-- ==== Sys2Proof/Word.lean ====
section
/-! DEFINITION. The words the block handles (spec/00_scope.md R7): bytes and 16-bit register values. -/

namespace Sys2Proof

/-- Eight bits: a byte of a packet, of the link, or of a host register (R7). -/
abbrev Byte := BitVec 8

/-- A register value: "a 16-bit unsigned integer" (R7). -/
abbrev RegValue := BitVec 16

end Sys2Proof
end

