-- ==== Sys2Proof/Syntax.lean ====
section
/-! DEFINITION. The instructions: one constructor per row of spec/opcode_table.json, sixteen commands
(spec/30_encoding.md R81) and the six header opcodes of the wire (R72, R73). -/

namespace Sys2Proof

/-- The buffer operand BUF of the PKT commands, CMD[7]: 0 selects TX, 1 selects RX (R79). -/
inductive Buf where
  | tx
  | rx
deriving DecidableEq, Repr

/-- The instruction set. A command's other operands stand in the ARG and VAL registers (R80). A header
opcode carries the 6-bit register count that stands beside it in byte 0 (R71). -/
inductive Instr where
  | pktDefault (buf : Buf)
  | pktClear (buf : Buf)
  | pktBuild (buf : Buf)
  | pktCrc8 (buf : Buf)
  | pktCheck (buf : Buf)
  | pktCount (buf : Buf)
  | pktCode (buf : Buf)
  | xcvrSetup
  | xcvrDiscard
  | xcvrExchange
  | drvNew
  | regGet
  | regGet1
  | regSet
  | regSet1
  | regModify
  | wireReadReq (count : BitVec 6)
  | wireWriteReq (count : BitVec 6)
  | wireRespOk (count : BitVec 6)
  | wireRespCorrupt (count : BitVec 6)
  | wireRespError (count : BitVec 6)
  | wireRespReserved (count : BitVec 6)
deriving DecidableEq, Repr

end Sys2Proof
end

