-- ==== Sys2Proof/WellFormed.lean ====
section
/-! DEFINITION. Well-formed instructions. The one check the spec makes on an encoding's fields is the
count of a request: "legal counts are 0 to 32" and the block never builds another (spec/30_encoding.md R74).
A response header may hold any count: one over 32 is handled (spec/42_transceiver.md R150). -/

namespace Sys2Proof

/-- Legal register counts: 0 to 32 (R74). -/
def legalCount (count : BitVec 6) : Bool := decide (count.toNat ≤ 32)

/-- The instruction is one the block can meet: a request it sends has a legal count (R74). -/
def WellFormed : Instr → Bool
  | .pktDefault _ => true
  | .pktClear _ => true
  | .pktBuild _ => true
  | .pktCrc8 _ => true
  | .pktCheck _ => true
  | .pktCount _ => true
  | .pktCode _ => true
  | .xcvrSetup => true
  | .xcvrDiscard => true
  | .xcvrExchange => true
  | .drvNew => true
  | .regGet => true
  | .regGet1 => true
  | .regSet => true
  | .regSet1 => true
  | .regModify => true
  | .wireReadReq count => legalCount count
  | .wireWriteReq count => legalCount count
  | .wireRespOk _ => true
  | .wireRespCorrupt _ => true
  | .wireRespError _ => true
  | .wireRespReserved _ => true

end Sys2Proof
end

