-- ==== Sys2Proof/Decode.lean ====
section
/-! DEFINITION. Decoding and encoding (spec/30_encoding.md). Two encodings share the 8-bit words: a byte
written to CMD (R79, R81, R82) and byte 0 of a packet, whose opcode bits read one way in a request (R72)
and another in a response (R73). A word is therefore decoded at a PORT. -/

namespace Sys2Proof

/-- Where an instruction word stands: in CMD, in byte 0 of the packet being sent, or in byte 0 of the
header being received. -/
inductive Port where
  | command
  | request
  | response
deriving DecidableEq, Repr

/-- Why a word is no instruction. -/
inductive DecodeError where
  /-- CMD[6:0] is not in the code map (R82). -/
  | illegalCode
  /-- CMD[7] is 1 on a command that is no PKT command (R82). -/
  | bufOnNonPkt
  /-- Opcode 0b10 or 0b11 has no request meaning (R72). -/
  | noRequestOpcode
  /-- A request's count is over 32 (R74). -/
  | illegalCount
deriving DecidableEq, Repr

/-- BUF = CMD[7] (R79). -/
def bufOf (w : Byte) : Buf := if w.getLsbD 7 then .rx else .tx

/-- The command code CMD[6:0] (R79). -/
def codeOf (w : Byte) : BitVec 7 := w.extractLsb' 0 7

/-- The opcode bits of a header's byte 0 (R71). -/
def opcodeOf (w : Byte) : BitVec 2 := w.extractLsb' 6 2

/-- The count bits of a header's byte 0 (R71). -/
def countOf (w : Byte) : BitVec 6 := w.extractLsb' 0 6

/-- The PKT commands of the code map (R81). -/
def pktCommand (code : BitVec 7) (buf : Buf) : Option Instr :=
  if code = 0x01#7 then some (.pktDefault buf)
  else if code = 0x02#7 then some (.pktClear buf)
  else if code = 0x03#7 then some (.pktBuild buf)
  else if code = 0x04#7 then some (.pktCrc8 buf)
  else if code = 0x05#7 then some (.pktCheck buf)
  else if code = 0x06#7 then some (.pktCount buf)
  else if code = 0x07#7 then some (.pktCode buf)
  else none

/-- The other commands of the code map (R81). -/
def plainCommand (code : BitVec 7) : Option Instr :=
  if code = 0x10#7 then some .xcvrSetup
  else if code = 0x11#7 then some .xcvrDiscard
  else if code = 0x12#7 then some .xcvrExchange
  else if code = 0x20#7 then some .drvNew
  else if code = 0x21#7 then some .regGet
  else if code = 0x22#7 then some .regGet1
  else if code = 0x23#7 then some .regSet
  else if code = 0x24#7 then some .regSet1
  else if code = 0x25#7 then some .regModify
  else none

/-- What a byte written to CMD says (R79 to R82). -/
def decodeCommand (w : Byte) : Except DecodeError Instr :=
  match pktCommand (codeOf w) (bufOf w) with
  | some i => .ok i
  | none =>
    match plainCommand (codeOf w) with
    | none => .error .illegalCode
    | some i => if bufOf w = .rx then .error .bufOnNonPkt else .ok i

/-- What byte 0 of a packet to be sent says (R72, R74). -/
def decodeRequest (w : Byte) : Except DecodeError Instr :=
  if opcodeOf w = 0b00#2 then
    if legalCount (countOf w) then .ok (.wireReadReq (countOf w)) else .error .illegalCount
  else if opcodeOf w = 0b01#2 then
    if legalCount (countOf w) then .ok (.wireWriteReq (countOf w)) else .error .illegalCount
  else .error .noRequestOpcode

/-- What byte 0 of a received header says (R73): every byte is a response. -/
def responseOf (w : Byte) : Instr :=
  if opcodeOf w = 0b00#2 then .wireRespOk (countOf w)
  else if opcodeOf w = 0b01#2 then .wireRespCorrupt (countOf w)
  else if opcodeOf w = 0b10#2 then .wireRespError (countOf w)
  else .wireRespReserved (countOf w)

/-- The decoder: total on any byte at any port, rejecting by name. -/
def decode : Port → Byte → Except DecodeError Instr
  | .command, w => decodeCommand w
  | .request, w => decodeRequest w
  | .response, w => .ok (responseOf w)

/-- The port an instruction is read at. -/
def Instr.port : Instr → Port
  | .pktDefault _ => .command
  | .pktClear _ => .command
  | .pktBuild _ => .command
  | .pktCrc8 _ => .command
  | .pktCheck _ => .command
  | .pktCount _ => .command
  | .pktCode _ => .command
  | .xcvrSetup => .command
  | .xcvrDiscard => .command
  | .xcvrExchange => .command
  | .drvNew => .command
  | .regGet => .command
  | .regGet1 => .command
  | .regSet => .command
  | .regSet1 => .command
  | .regModify => .command
  | .wireReadReq _ => .request
  | .wireWriteReq _ => .request
  | .wireRespOk _ => .response
  | .wireRespCorrupt _ => .response
  | .wireRespError _ => .response
  | .wireRespReserved _ => .response

/-- CMD[7] for a buffer (R79). -/
def bufBit : Buf → BitVec 1
  | .tx => 0#1
  | .rx => 1#1

/-- The word of an instruction: code | (BUF << 7) for a command (R83), opcode and count for a header's
byte 0 (R71 to R73). -/
def encode : Instr → Byte
  | .pktDefault b => bufBit b ++ 0x01#7
  | .pktClear b => bufBit b ++ 0x02#7
  | .pktBuild b => bufBit b ++ 0x03#7
  | .pktCrc8 b => bufBit b ++ 0x04#7
  | .pktCheck b => bufBit b ++ 0x05#7
  | .pktCount b => bufBit b ++ 0x06#7
  | .pktCode b => bufBit b ++ 0x07#7
  | .xcvrSetup => 0x10#8
  | .xcvrDiscard => 0x11#8
  | .xcvrExchange => 0x12#8
  | .drvNew => 0x20#8
  | .regGet => 0x21#8
  | .regGet1 => 0x22#8
  | .regSet => 0x23#8
  | .regSet1 => 0x24#8
  | .regModify => 0x25#8
  | .wireReadReq c => 0b00#2 ++ c
  | .wireWriteReq c => 0b01#2 ++ c
  | .wireRespOk c => 0b00#2 ++ c
  | .wireRespCorrupt c => 0b01#2 ++ c
  | .wireRespError c => 0b10#2 ++ c
  | .wireRespReserved c => 0b11#2 ++ c

/-- What the decoder makes of a table word. Rows of the two encodings share words, so a word is read as a
command where the code map has it, and as a received header's byte 0 otherwise (log 16). Every instruction
is one byte; a word with a bit above bit 7 is none. -/
def decodeTableWord (nbits w : Nat) : Option Instr :=
  if nbits ≤ 8 ∧ w < 256 then
    match decodeCommand (BitVec.ofNat 8 w) with
    | .ok i => some i
    | .error _ => some (responseOf (BitVec.ofNat 8 w))
  else none

end Sys2Proof
end

