-- ==== Sys2Proof/Config.lean ====
section
/-! DEFINITION. What an implementation of the block fixes (spec/00_scope.md R6) and what the link may
answer (R12). The parameters are plain data that State carries and no step writes (log 1), so a statement
about every state holds for every choice of them. The free values are constants without a body. -/

namespace Sys2Proof

/-- REG_BYTE_ORDER (spec/20_memory.md R53): "no other ordering exists". -/
inductive ByteOrder where
  | le
  | be
deriving DecidableEq, Repr, Inhabited

/-- READ_CRC_MODE (spec/43_register_access.md R193). -/
inductive ReadCrcMode where
  | zeroPayload
  | headerOnly
deriving DecidableEq, Repr, Inhabited

/-- OVERCOUNT_POLICY (spec/42_transceiver.md R150). -/
inductive OvercountPolicy where
  | retry
  | fault
deriving DecidableEq, Repr, Inhabited

/-- The type of CRC8_TABLE (spec/41_crc8_framer.md R103): 256 bytes, of which no law is assumed. -/
abbrev CrcTable := Vector Byte 256

/-- The parameters that R6 leaves open or gives by a decision. -/
structure Params where
  crcTable : CrcTable
  regByteOrder : ByteOrder
  stallTolerance : Nat
  rejectCode3 : Bool
  readCrcMode : ReadCrcMode
  overcountPolicy : OvercountPolicy
  flushAfterWrite : Bool
deriving DecidableEq, Repr

/-- A type of error values. -/
class ErrorCarrier where
  carrier : Type

/-- A type of error values that can be printed and compared, as State being plain data asks. No rule uses the
order: it only makes equality decidable, and every type can be ordered. -/
class ErrorType extends ErrorCarrier, Repr carrier, LinearOrder carrier

/-- The parameter LinkErr (R6, "OPEN (any type)"; spec/92_eei_decisions.md D10, "an opaque type"): whatever type
of error an implementation's link has. It has no body, so every statement holds for every type. -/
opaque Config.linkErrType [Inhabited ErrorType] : ErrorType

/-- The implementation's error type. The type in brackets only shows Lean that some type exists. -/
abbrev implErrType : ErrorType :=
  @Config.linkErrType ⟨{ carrier := Nat, toLinearOrder := inferInstance, reprPrec := reprPrec }⟩

/-- LinkErr, the opaque error value the link reports (R6): a value of the implementation's type, into which no
rule looks. DESIGN CHOICE (log 4): beside those values stand numbered ones, so that a test can write an error
down; a link of any type is one that never answers with a numbered error. -/
inductive LinkErr where
  | impl (e : implErrType.carrier)
  | code (n : Nat)
deriving DecidableEq, Repr

/-- What LinkSetup may answer (R12). -/
inductive SetupAnswer where
  | ok
  | err (e : LinkErr)
deriving DecidableEq, Repr, Inhabited

/-- What LinkPoll may answer (R12). -/
inductive PollAnswer where
  | data (b : Byte)
  | noData
  | err (e : LinkErr)
deriving DecidableEq, Repr, Inhabited

/-- What LinkWrite and LinkFlush may answer (R12). -/
inductive SendAnswer where
  | ok
  | busy
  | err (e : LinkErr)
deriving DecidableEq, Repr, Inhabited

/-- The free answer to the n-th link call when it is a LinkSetup (spec/20_memory.md R59; log 5). -/
opaque Config.setupAnswer : Nat → SetupAnswer

/-- The free answer to the n-th link call when it is a LinkPoll (R59; log 5). -/
opaque Config.pollAnswer : Nat → PollAnswer

/-- The free answer to the n-th link call when it is a LinkWrite (R59; log 5). -/
opaque Config.writeAnswer : Nat → SendAnswer

/-- The free answer to the n-th link call when it is a LinkFlush (R59; log 5). -/
opaque Config.flushAnswer : Nat → SendAnswer

end Sys2Proof
end

