-- ==== Sys2Proof/Machine/State.lean ====
section
/-! DEFINITION. The machine's state as plain data (spec/10_state.md), its value after reset (R40), and the
reasons a step can stop. -/

namespace Sys2Proof.Machine

/-- The byte image of a packet buffer (R20, R21): its bytes that are not 0, addresses rising. An address
that is not listed reads 0, the reset value (R40; log 18). -/
abbrev Image := List Host.Cell

/-- The two packet buffers, the block's only addressable storage (spec/20_memory.md R50). -/
structure Memory where
  tx : Image
  rx : Image
deriving DecidableEq, Repr

/-- XST, the transceiver state register (R23). -/
inductive XState where
  | idle
  | discard
  | write
  | flush
  | rdHdr
  | rdBody
deriving DecidableEq, Repr

/-- The transceiver's registers (R22 to R29). -/
structure Xcvr where
  xst : XState
  idx : Byte
  wb : Byte
  att : Byte
  retr : Byte
  txlen : Byte
  nbody : Byte
  hdr : Vector Byte 4
deriving DecidableEq, Repr

/-- FE, the front-end sequencing state (R30). -/
inductive FState where
  | idle
  | get
  | set
  | modRead
  | modWrite
deriving DecidableEq, Repr

/-- The front end (R30): FE, CATT, and the operands a running REG command took at issue (log 11). -/
structure FrontEnd where
  state : FState
  catt : Byte
  page : Byte
  offset : Byte
  n : Byte
  clearBits : RegValue
  setBits : RegValue
deriving DecidableEq, Repr

/-- The command and operand registers the host writes (R31, R32). -/
structure HostRegs where
  cmd : Byte
  mode : Byte
  page : Byte
  offset : Byte
  n : Byte
  retries : Byte
  clearBits : RegValue
  setBits : RegValue
  val : Vector RegValue 32
deriving DecidableEq, Repr

/-- The result registers (R33 to R35). ERRINFO holds "none" until a COMM error (R40). -/
structure Results where
  out : Vector RegValue 32
  status : Byte
  errinfo : Option LinkErr
  result : Byte
  flag : Bool
deriving DecidableEq, Repr

/-- The observability counters (R38), wrapping modulo 2^32. -/
structure Counters where
  stall : BitVec 32
  retry : BitVec 32
  crcFail : BitVec 32
deriving DecidableEq, Repr

/-- The registers that the host reads and a command writes (R37): results and counters. -/
structure Readable where
  res : Results
  cnt : Counters
deriving DecidableEq, Repr

/-- The reasons of the sticky FAULT (spec/60_exceptions.md R236). -/
inductive FaultReason where
  | busyOverlap
  | illegalCmd
  | notReady
  | badCount
  | badMode
  | overcount
deriving DecidableEq, Repr

/-- One link call (spec/00_scope.md R12); a write is kept with the byte offered and the link's answer. -/
inductive LinkCall where
  | setup
  | poll
  | write (b : Byte) (answer : SendAnswer)
  | flush
deriving DecidableEq, Repr

/-- The link agent (R12; spec/20_memory.md R59): its next answers to each kind of call (log 5), and the
calls made so far, newest first (log 6). When a list is used up the answer is free. -/
structure Link where
  setup : List SetupAnswer
  poll : List PollAnswer
  write : List SendAnswer
  flush : List SendAnswer
  calls : List LinkCall
deriving DecidableEq, Repr

/-- What the host agent can do (R31, R32; spec/30_encoding.md R83; log 7). -/
inductive HostAction where
  | writeMode (v : Byte)
  | writePage (v : Byte)
  | writeOffset (v : Byte)
  | writeN (v : Byte)
  | writeRetries (v : Byte)
  | writeClear (v : RegValue)
  | writeSet (v : RegValue)
  | writeVal (i : Fin 32) (v : RegValue)
  /-- Write CMD: issue a command. -/
  | writeCmd (w : Byte)
  /-- Do nothing while the block takes one step. -/
  | letRun
  /-- Wait until BUSY = 0. -/
  | await
deriving DecidableEq, Repr

/-- Why the machine stops. -/
inductive Fault where
  /-- Raised by step and by every meaning when FAULT is set: "a faulted block takes no step" (R36). Safe:
  the spec gives a faulted block nothing to do. -/
  | halted (r : FaultReason)
  /-- Raised by a transceiver step that would read or write past byte 67 of a packet image or byte 3 of HDR
  (spec/20_memory.md R51 allows the fault). Safe: no state reached from reset raises it (log 19). -/
  | outsidePacket
deriving DecidableEq, Repr

/-- Why an instruction has no meaning. -/
inductive Refusal where
  /-- Raised by an arm of exec whose instruction is not modelled. Safe. No arm raises it. -/
  | notModelled (mnemonic : String)
deriving DecidableEq, Repr

/-- The state of host, block and link. -/
structure State where
  params : Params
  mem : Memory
  xc : Xcvr
  fe : FrontEnd
  regs : HostRegs
  res : Results
  cnt : Counters
  /-- The results and counters as they stood when the running command was issued: what the host reads while
  BUSY = 1 (R37; spec/20_memory.md R60; log 24). -/
  shown : Readable
  fault : Option FaultReason
  busy : Bool
  ready : Bool
  link : Link
  host : List HostAction
deriving DecidableEq, Repr

/-- The outcome of a step or a meaning. -/
abbrev Outcome := Host.Outcome State Fault Refusal

/-- The result registers after reset (R40). -/
def Results.reset : Results :=
  { out := Vector.replicate 32 0, status := statusOk, errinfo := none, result := 0, flag := false }

/-- The counters after reset (R40). -/
def Counters.reset : Counters := { stall := 0, retry := 0, crcFail := 0 }

/-- The machine right after reset (R40). The latched operands are 0 (log 11); the host reads the reset values
(log 24); the link's lists, the record of calls and the host's list are empty (logs 5 to 7); the parameters have
their default values (logs 2, 3). -/
def State.reset : State where
  params := defaultParams
  mem := { tx := [], rx := [] }
  xc :=
    { xst := .idle, idx := 0, wb := 0, att := 0, retr := 0, txlen := 4, nbody := 0,
      hdr := Vector.replicate 4 0 }
  fe := { state := .idle, catt := 0, page := 0, offset := 0, n := 0, clearBits := 0, setBits := 0 }
  regs :=
    { cmd := 0, mode := 0, page := 0, offset := 0, n := 0, retries := 0, clearBits := 0, setBits := 0,
      val := Vector.replicate 32 0 }
  res := Results.reset
  cnt := Counters.reset
  shown := { res := Results.reset, cnt := Counters.reset }
  fault := none
  busy := false
  ready := false
  link := { setup := [], poll := [], write := [], flush := [], calls := [] }
  host := []

end Sys2Proof.Machine
end

