-- ==== Sys2Proof/Machine/Ops.lean ====
section
/-! DEFINITION. The named operations over packet memory, the link and the result registers: the primitives
of spec/20_memory.md (R51, R52), the link primitives of spec/00_scope.md R12, taking a model fault (R11) and
ending a command with a status (spec/60_exceptions.md R238). Nothing returns from either: "nothing needs to
be acknowledged or cleared" (R239). -/

namespace Sys2Proof.Machine

/-! ### Packet images (R50 to R57) -/

/-- Byte a of an image. An address that is not listed reads 0 (log 18). -/
def Image.get : Image → Nat → Byte
  | [], _ => 0#8
  | (k, v) :: rest, a => if a = k then v else Image.get rest a

/-- An image with nothing listed at address a. -/
def Image.without : Image → Nat → Image
  | [], _ => []
  | (k, v) :: rest, a => if k = a then Image.without rest a else (k, v) :: Image.without rest a

/-- List v at address a, before the first higher address. -/
def Image.insert : Image → Nat → Byte → Image
  | [], a, v => [(a, v)]
  | (k, w) :: rest, a, v => if a < k then (a, v) :: (k, w) :: rest else (k, w) :: Image.insert rest a v

/-- Store v at address a, keeping addresses rising and listing no 0. -/
def Image.put (img : Image) (a : Nat) (v : Byte) : Image :=
  if v = 0#8 then Image.without img a else Image.insert (Image.without img a) a v

/-- `B[a] <- v`. Addresses 0 to 67 exist (R57); the callers that could pass another fault first (log 19). -/
def Image.set (img : Image) (a : Nat) (v : Byte) : Image :=
  if a < pktLen then Image.put img a v else img

/-- The canonical form over addresses from `lo` on: addresses strictly rising and below 68, no entry 0. -/
def Image.wfFrom : Nat → Image → Bool
  | _, [] => true
  | lo, (k, v) :: rest => decide (lo ≤ k) && decide (k < pktLen) && decide (v ≠ 0#8) && Image.wfFrom (k + 1) rest

/-- The canonical form of a packet image. -/
def Image.wf (img : Image) : Bool := Image.wfFrom 0 img

/-- Both packet images have their canonical form. -/
def Memory.wf (m : Memory) : Bool := Image.wf m.tx && Image.wf m.rx

/-- `MemRead(B, a, 1)` (R51), with no answer past byte 67. -/
def Image.read8 (img : Image) (a : Nat) : Option Byte :=
  if a < pktLen then some (Image.get img a) else none

/-- `MemWrite(B, a, 1, v)` (R52), with no answer past byte 67. -/
def Image.write8 (img : Image) (a : Nat) (v : Byte) : Option Image :=
  if a < pktLen then some (Image.set img a v) else none

/-- `MemRead(B, a, 2)` (R51). -/
def Image.read16 (order : ByteOrder) (img : Image) (a : Nat) : RegValue :=
  match order with
  | .le => Image.get img (a + 1) ++ Image.get img a
  | .be => Image.get img a ++ Image.get img (a + 1)

/-- The byte of a 16-bit value that goes to the lower address (R52, R53). -/
def firstByte (order : ByteOrder) (v : RegValue) : Byte :=
  match order with
  | .le => v.extractLsb' 0 8
  | .be => v.extractLsb' 8 8

/-- The byte of a 16-bit value that goes to the higher address (R52, R53). -/
def secondByte (order : ByteOrder) (v : RegValue) : Byte :=
  match order with
  | .le => v.extractLsb' 8 8
  | .be => v.extractLsb' 0 8

/-- `MemWrite(B, a, 2, v)` (R52). -/
def Image.write16 (order : ByteOrder) (img : Image) (a : Nat) (v : RegValue) : Image :=
  Image.set (Image.set img a (firstByte order v)) (a + 1) (secondByte order v)

/-- `B.reg[k]` (spec/00_scope.md R10): slot k stands at bytes 4+2k and 5+2k (R57). -/
def Image.reg (order : ByteOrder) (img : Image) (k : Nat) : RegValue :=
  Image.read16 order img (hdrLen + 2 * k)

/-- `B.reg[k] <- v` (R10, R57). -/
def Image.setReg (order : ByteOrder) (img : Image) (k : Nat) (v : RegValue) : Image :=
  Image.write16 order img (hdrLen + 2 * k) v

/-- `for k in 0 .. n: B.reg[k] <- f k`. -/
def Image.setRegs (order : ByteOrder) (img : Image) (f : Nat → RegValue) : Nat → Image
  | 0 => img
  | n + 1 => Image.setReg order (Image.setRegs order img f n) n (f n)

/-- `for i in 0 .. n: B[i] <- v`. -/
def Image.fill (img : Image) (v : Byte) : Nat → Image
  | 0 => img
  | n + 1 => Image.set (Image.fill img v n) n v

/-- The buffer BUF selects (spec/30_encoding.md R79). -/
def Memory.image (m : Memory) : Buf → Image
  | .tx => m.tx
  | .rx => m.rx

/-- Replace the buffer BUF selects. -/
def Memory.setImage (m : Memory) (b : Buf) (img : Image) : Memory :=
  match b with
  | .tx => { m with tx := img }
  | .rx => { m with rx := img }

/-- Byte a of a buffer: the model's read of one byte of memory. -/
def Memory.byte (m : Memory) (b : Buf) (a : Nat) : Byte := Image.get (m.image b) a

/-- A machine with the buffer BUF selects replaced. -/
def State.setImage (s : State) (b : Buf) (img : Image) : State :=
  { s with mem := s.mem.setImage b img }

/-- The byte order of register values in this block (R53). -/
def State.order (s : State) : ByteOrder := s.params.regByteOrder

/-! ### The link (R12) -/

/-- The answer to the next LinkSetup: the link's next one, or a free one (log 5). -/
def Link.setupAnswer (l : Link) : SetupAnswer := l.setup.headD (Config.setupAnswer l.calls.length)

/-- The answer to the next LinkPoll. -/
def Link.pollAnswer (l : Link) : PollAnswer := l.poll.headD (Config.pollAnswer l.calls.length)

/-- The answer to the next LinkWrite. -/
def Link.writeAnswer (l : Link) : SendAnswer := l.write.headD (Config.writeAnswer l.calls.length)

/-- The answer to the next LinkFlush. -/
def Link.flushAnswer (l : Link) : SendAnswer := l.flush.headD (Config.flushAnswer l.calls.length)

/-- The link once LinkSetup has been called. -/
def Link.afterSetup (l : Link) : Link := { l with setup := l.setup.tail, calls := .setup :: l.calls }

/-- The link once LinkPoll has been called: a byte it gave is gone (R56). -/
def Link.afterPoll (l : Link) : Link := { l with poll := l.poll.tail, calls := .poll :: l.calls }

/-- The link once LinkWrite(b) has been called. -/
def Link.afterWrite (l : Link) (b : Byte) : Link :=
  { l with write := l.write.tail, calls := .write b l.writeAnswer :: l.calls }

/-- The link once LinkFlush has been called. -/
def Link.afterFlush (l : Link) : Link := { l with flush := l.flush.tail, calls := .flush :: l.calls }

/-- A machine that has called LinkSetup. -/
def State.afterSetup (s : State) : State := { s with link := s.link.afterSetup }

/-- A machine that has called LinkPoll. -/
def State.afterPoll (s : State) : State := { s with link := s.link.afterPoll }

/-- A machine that has called LinkWrite(b). -/
def State.afterWrite (s : State) (b : Byte) : State := { s with link := s.link.afterWrite b }

/-- A machine that has called LinkFlush. -/
def State.afterFlush (s : State) : State := { s with link := s.link.afterFlush }

/-- The byte that a link call put on the wire: one that LinkWrite answered Ok (R146, R147). -/
def LinkCall.sentByte : LinkCall → Option Byte
  | .setup => none
  | .poll => none
  | .write b .ok => some b
  | .write _ .busy => none
  | .write _ (.err _) => none
  | .flush => none

/-- The bytes on the wire so far, oldest first. -/
def Link.sent (l : Link) : List Byte := (l.calls.filterMap LinkCall.sentByte).reverse

/-! ### Ending a command -/

/-- `fault <Reason>` (R11): set the sticky FAULT and end the command. Everything else stays where it stood;
BUSY falls because the command has ended (R272; log 12). -/
def raise (r : FaultReason) (s : State) : State := { s with fault := some r, busy := false }

/-- `STATUS <- st; BUSY <- 0`: the end of a command that can fail (R34). An error saves nothing and is not
vectored (spec/60_exceptions.md R238). -/
def finish (st : Byte) (s : State) : State :=
  { s with res := { s.res with status := st }, busy := false }

/-- `ERRINFO <- e` (R231). -/
def setErrinfo (e : LinkErr) (s : State) : State :=
  { s with res := { s.res with errinfo := some e } }

/-- A faulted block takes no step (R36): every meaning stops first if FAULT is set (log 13). -/
def whileSound (s : State) (k : State → Outcome) : Outcome :=
  match s.fault with
  | some r => .fault (.halted r)
  | none => k s

/-- The reset event (spec/70_reset_and_hazards.md R260, R261): every piece of the block at its reset value,
no link call, the link and the host untouched, the parameters kept (R41). It is no step (log 25). -/
def resetBlock (s : State) : State :=
  { State.reset with params := s.params, link := s.link, host := s.host }

end Sys2Proof.Machine
end

