-- ==== Sys2Proof/Machine/Operands.lean ====
section
/-! DEFINITION. Operand assembly (spec/30_encoding.md R80), header fields (R71, spec/00_scope.md R13), live
length (R77), and the checks made when a command is issued (spec/60_exceptions.md R237). -/

namespace Sys2Proof.Machine

/-- `count(B)` (R13). -/
def Image.count (img : Image) : Nat := (countOf (Image.get img 0)).toNat

/-- `code(B) = B[0] & 0xC0` (R13). -/
def codeBits (w : Byte) : Byte := w &&& 0xC0#8

/-- `B[0] & 0x3F` (R13). -/
def countBits (w : Byte) : Byte := w &&& 0x3F#8

/-- `VAL[k]` (R32). Only k < 32 is asked for. -/
def HostRegs.value (g : HostRegs) (k : Nat) : RegValue := if h : k < 32 then g.val[k] else 0#16

/-- `count_code = n | mode` (R80). -/
def countCode (n mode : Byte) : Byte := n ||| mode

/-- The operand n is legal: 0 to 32 (R80). -/
def legalN (n : Byte) : Bool := decide (n.toNat ≤ capacity)

/-- `mode & 0x3F = 0` (spec/41_crc8_framer.md R108). -/
def legalMode (mode : Byte) : Bool := decide (mode &&& 0x3F#8 = 0#8)

/-- The live bytes of a packet to send, as byte 0 gives them (R77; spec/42_transceiver.md R143). -/
def liveLength (w : Byte) : Byte := 4#8 + (if codeBits w = modeWrite then 2#8 * countBits w else 0#8)

/-- `REJECTED` (R73). -/
def rejected (p : Params) (code : Byte) : Bool :=
  decide (code = 0x40#8) || decide (code = 0x80#8) || (p.rejectCode3 && decide (code = 0xC0#8))

/-- Whether a command needs READY = 1 when it is issued (spec/70_reset_and_hazards.md R262). -/
inductive Readiness where
  | needsReady
  | always
deriving DecidableEq, Repr

/-- `CMD <- w` (R79). -/
def setCmd (w : Byte) (s : State) : State := { s with regs := { s.regs with cmd := w } }

/-- Issue the command whose CMD byte is w: CMD holds w (log 14); then the checks that come before a
command's own, BUSY_OVERLAP and NOT_READY, in the order of R237; then the command. ILLEGAL_CMD stands
between them where CMD is written and no command is found (`issueIllegal`). -/
def issue (w : Byte) (r : Readiness) (s : State) (body : State → State) : Outcome :=
  whileSound s fun s =>
    .next
      (if s.busy then raise .busyOverlap (setCmd w s)
       else if r = .needsReady ∧ s.ready = false then raise .notReady (setCmd w s)
       else body (setCmd w s))

/-- A byte that is no command written to CMD: BUSY_OVERLAP comes before ILLEGAL_CMD (R82, R237). -/
def issueIllegal (w : Byte) (s : State) : Outcome :=
  whileSound s fun s =>
    .next (if s.busy then raise .busyOverlap (setCmd w s) else raise .illegalCmd (setCmd w s))

end Sys2Proof.Machine
end

