-- ==== Sys2Proof/Machine/Flags.lean ====
section
/-! DEFINITION. The computed verdicts: CRC8 (spec/41_crc8_framer.md R100), the validity that PKT.CHECK puts
into FLAG (R109), and the acceptance of a reply (spec/43_register_access.md R192). -/

namespace Sys2Proof.Machine

/-- `CRC8_TABLE[c]` (R103). -/
def CrcTable.entry (t : CrcTable) (c : Byte) : Byte := t[c.toNat]'c.isLt

/-- `for i in start .. start + len: c <- CRC8_TABLE[c ^ B[i]]` (R100). -/
def crcWalk (t : CrcTable) (img : Image) : (start len : Nat) → Byte → Byte
  | _, 0, c => c
  | i, len + 1, c => crcWalk t img (i + 1) len (CrcTable.entry t (c ^^^ Image.get img i))

/-- `CRC8(B, n)` (R100): seed on byte 0, one more lookup for the CRC slot, then bytes 2 up to 4 + 2n. -/
def crc8 (t : CrcTable) (img : Image) (n : Nat) : Byte :=
  crcWalk t img 2 (2 + 2 * n) (CrcTable.entry t (CrcTable.entry t (Image.get img 0)))

/-- The verdict of PKT.CHECK (R109): an over-count packet is invalid and its CRC is not evaluated. -/
def crcValid (t : CrcTable) (img : Image) : Bool :=
  if Image.count img ≤ capacity then decide (crc8 t img (Image.count img) = Image.get img 1) else false

/-- `Accept(RX)` (R192). -/
def accept (p : Params) (img : Image) : Bool :=
  crcValid p.crcTable img && !rejected p (codeBits (Image.get img 0))

/-- `FLAG <- v` (R35). -/
def setFlag (v : Bool) (s : State) : State := { s with res := { s.res with flag := v } }

/-- `RESULT <- v` (R35). -/
def setResult (v : Byte) (s : State) : State := { s with res := { s.res with result := v } }

end Sys2Proof.Machine
end

