-- ==== Sys2Proof/Machine/Packet.lean ====
section
/-! DEFINITION. The packet framer and the seven PKT commands (spec/41_crc8_framer.md R105 to R111). Each
completes in one step, makes no link call and writes no STATUS (log 21). -/

namespace Sys2Proof.Machine

/-- The zeroed buffer of PKT.DEFAULT (R106). -/
def defaultImage (img : Image) : Image := Image.fill img 0#8 pktLen

/-- The cleared buffer of PKT.CLEAR (R107): a zero header, SENTINEL in every slot. -/
def clearImage (order : ByteOrder) (img : Image) : Image :=
  Image.setRegs order (Image.fill img 0#8 hdrLen) (fun _ => sentinel) capacity

/-- The header and slots of a packet before its CRC is stamped (R108). -/
def layImage (order : ByteOrder) (img : Image) (cc page offset : Byte) (n : Nat)
    (values : Nat → RegValue) : Image :=
  Image.setRegs order (Image.set (Image.set (Image.set img 0 cc) 2 page) 3 offset) values n

/-- `B[1] <- CRC8(B, n)`. -/
def stampCrc (t : CrcTable) (img : Image) (n : Nat) : Image := Image.set img 1 (crc8 t img n)

/-- The packet of PKT.BUILD (R108): header, n slots, then the CRC over what was written. -/
def buildImage (p : Params) (img : Image) (mode page offset : Byte) (n : Byte)
    (values : Nat → RegValue) : Image :=
  stampCrc p.crcTable (layImage p.regByteOrder img (countCode n mode) page offset n.toNat values) n.toNat

/-- PKT.DEFAULT (R106). -/
def execPktDefault (b : Buf) (s : State) : Outcome :=
  issue (encode (.pktDefault b)) .always s fun s => s.setImage b (defaultImage (s.mem.image b))

/-- PKT.CLEAR (R107). -/
def execPktClear (b : Buf) (s : State) : Outcome :=
  issue (encode (.pktClear b)) .always s fun s => s.setImage b (clearImage s.order (s.mem.image b))

/-- PKT.BUILD (R108): BAD_COUNT is checked before BAD_MODE (spec/60_exceptions.md R237). -/
def execPktBuild (b : Buf) (s : State) : Outcome :=
  issue (encode (.pktBuild b)) .always s fun s =>
    if legalN s.regs.n = false then raise .badCount s
    else if legalMode s.regs.mode = false then raise .badMode s
    else
      s.setImage b
        (buildImage s.params (s.mem.image b) s.regs.mode s.regs.page s.regs.offset s.regs.n s.regs.value)

/-- PKT.CRC8 (R105). -/
def execPktCrc8 (b : Buf) (s : State) : Outcome :=
  issue (encode (.pktCrc8 b)) .always s fun s =>
    if legalN s.regs.n = false then raise .badCount s
    else setResult (crc8 s.params.crcTable (s.mem.image b) s.regs.n.toNat) s

/-- PKT.CHECK (R109). -/
def execPktCheck (b : Buf) (s : State) : Outcome :=
  issue (encode (.pktCheck b)) .always s fun s =>
    setFlag (crcValid s.params.crcTable (s.mem.image b)) s

/-- PKT.COUNT (R110). -/
def execPktCount (b : Buf) (s : State) : Outcome :=
  issue (encode (.pktCount b)) .always s fun s => setResult (countBits (Image.get (s.mem.image b) 0)) s

/-- PKT.CODE (R111). -/
def execPktCode (b : Buf) (s : State) : Outcome :=
  issue (encode (.pktCode b)) .always s fun s => setResult (codeBits (Image.get (s.mem.image b) 0)) s

end Sys2Proof.Machine
end

