-- ==== Sys2Proof/Machine/Exchange.lean ====
section
/-! DEFINITION. The start of an exchange and of an attempt (spec/42_transceiver.md R143, R144), and the two
request opcodes of the wire, which fix how many bytes an exchange sends (spec/30_encoding.md R72, R77). -/

namespace Sys2Proof.Machine

/-- BeginAttempt (R144). -/
def beginAttempt (s : State) : State :=
  { s with
    xc := { s.xc with att := s.xc.att + 1#8, wb := 0#8, idx := 0#8, xst := .discard },
    cnt := if 1#8 < s.xc.att + 1#8 then { s.cnt with retry := s.cnt.retry + 1#32 } else s.cnt }

/-- The part of R143 that follows the latches of RETR and ATT: TXLEN is latched, then the first attempt
begins, or the exchange ends at once when no attempt is allowed. -/
def sendRequest (len : Byte) (s : State) : State :=
  if s.xc.retr = 0#8 then finish statusUnresponsive { s with xc := { s.xc with txlen := len } }
  else beginAttempt { s with xc := { s.xc with txlen := len } }

/-- The link-free start of an exchange with r retries (R143). -/
def startExchange (r : Byte) (s : State) : State :=
  sendRequest (liveLength (Image.get s.mem.tx 0)) { s with xc := { s.xc with retr := r, att := 0#8 } }

/-- The header opcode READ of a request (R72): the exchange sends the four header bytes, whatever the count
asked for (R77; log 15). -/
def execWireReadReq (_count : BitVec 6) (s : State) : Outcome :=
  whileSound s fun s => .next (sendRequest 4#8 s)

/-- The header opcode WRITE of a request (R72): the exchange sends the header and count values (R77; log 15). -/
def execWireWriteReq (count : BitVec 6) (s : State) : Outcome :=
  whileSound s fun s => .next (sendRequest (4#8 + 2#8 * count.zeroExtend 8) s)

end Sys2Proof.Machine
end

