-- ==== Sys2Proof/Machine/Driver.lean ====
section
/-! DEFINITION. The register-access front end (spec/43_register_access.md): PacketExchange (R191), the request
packets (R193, R196), and what each REG command does when its packet exchange returns. Every update here is
link-free and is chained into the step around it (spec/42_transceiver.md R140). -/

namespace Sys2Proof.Machine

/-- FE <- f. -/
def setFe (f : FState) (s : State) : State := { s with fe := { s.fe with state := f } }

/-- CATT <- c. -/
def setCatt (c : Byte) (s : State) : State := { s with fe := { s.fe with catt := c } }

/-- A REG command takes its operands at issue (spec/30_encoding.md R79; spec/70_reset_and_hazards.md R263;
log 11). -/
def latchOperands (n : Byte) (s : State) : State :=
  { s with
    fe :=
      { s.fe with
        page := s.regs.page, offset := s.regs.offset, n := n,
        clearBits := s.regs.clearBits, setBits := s.regs.setBits } }

/-- One classification attempt begins (R191): CATT counts it, RX is cleared, an exchange starts. -/
def classifyAttempt (r : Byte) (s : State) : State :=
  startExchange r ((setCatt (s.fe.catt + 1#8) s).setImage .rx (clearImage s.order s.mem.rx))

/-- PacketExchange(r) begins (R191): with no attempt allowed it returns ERROR_RESPONSE at once (R232). The
first component is the status it has returned, or none while it awaits the link. -/
def packetExchange (r : Byte) (s : State) : Option Byte × State :=
  if classifyAttempts r = 0#8 then (some statusErrorResponse, setCatt 0#8 s)
  else (none, classifyAttempt r (setCatt 0#8 s))

/-- Continue with k once a packet exchange has returned; until then it runs in later steps. -/
def onReturn (k : Byte → State → State) : Option Byte × State → State
  | (some st, s) => k st s
  | (none, s) => s

/-- `STATUS <- st; FE <- FE_IDLE; BUSY <- 0`: the end of a REG command. -/
def endCommand (st : Byte) (s : State) : State := setFe .idle (finish st s)

/-- `for k in 0 .. n: OUT[k] <- RX.reg[k]` (R193), past the reply's count too (R200). -/
def copyRegs (order : ByteOrder) (rx : Image) (out : Vector RegValue 32) : Nat → Vector RegValue 32
  | 0 => out
  | n + 1 => (copyRegs order rx out n).setIfInBounds n (Image.reg order rx n)

/-- The n first values of RX go to OUT; the rest of OUT is unchanged (spec/10_state.md R33). -/
def copyOut (n : Byte) (s : State) : State :=
  { s with res := { s.res with out := copyRegs s.order s.mem.rx s.res.out n.toNat } }

/-- The READ request of R193 in TX; READ_CRC_MODE decides what its CRC covers (R194). -/
def readRequest (p : Params) (img : Image) (page offset n : Byte) : Image :=
  match p.readCrcMode with
  | .zeroPayload => buildImage p img modeRead page offset n fun _ => 0#16
  | .headerOnly =>
    stampCrc p.crcTable (layImage p.regByteOrder img (countCode n modeRead) page offset 0 fun _ => 0#16) 0

/-- What REG.GET does with the status of its packet exchange (R193). -/
def getReturn (st : Byte) (s : State) : State :=
  endCommand st (if st = statusOk then copyOut s.fe.n s else s)

/-- What the write phase of REG.SET and REG.MODIFY does with the status of its packet exchange (R196). -/
def setReturn (st : Byte) (s : State) : State := endCommand st s

/-- The body of REG.SET (R196): build the WRITE request in TX and run a packet exchange. -/
def setBody (n : Byte) (values : Nat → RegValue) (s : State) : State :=
  onReturn setReturn
    (packetExchange driverRetries
      (s.setImage .tx (buildImage s.params s.mem.tx modeWrite s.fe.page s.fe.offset n values)))

/-- `w <- (v & ~clear_bits) | set_bits` (R198). -/
def modified (v clearBits setBits : RegValue) : RegValue := (v &&& ~~~clearBits) ||| setBits

/-- The write phase of REG.MODIFY (R198): the modified value of OUT[0] is written back. -/
def writeBack (s : State) : State :=
  setBody 1#8 (fun _ => modified s.res.out[0] s.fe.clearBits s.fe.setBits) (setFe .modWrite s)

/-- What REG.MODIFY does with the status of its read (R198): a failed read ends the command; otherwise the
modified value is written back. -/
def modReadReturn (st : Byte) (s : State) : State :=
  if st = statusOk then writeBack (copyOut 1#8 s) else endCommand st s

/-- The body of REG.GET (R193): build the READ request in TX and run a packet exchange. -/
def getBody (n : Byte) (ret : Byte → State → State) (s : State) : State :=
  onReturn ret
    (packetExchange driverRetries
      (s.setImage .tx (readRequest s.params s.mem.tx s.fe.page s.fe.offset n)))

/-- PacketExchange has returned st to the running REG command; `CATT <- 0` (R191). -/
def feReturn (st : Byte) (s : State) : State :=
  match s.fe.state with
  | .idle => setCatt 0#8 s
  | .get => getReturn st (setCatt 0#8 s)
  | .set => setReturn st (setCatt 0#8 s)
  | .modRead => modReadReturn st (setCatt 0#8 s)
  | .modWrite => setReturn st (setCatt 0#8 s)

/-- `CRCFAIL_CNT <- CRCFAIL_CNT + 1` when the reply's CRC check fails (R191; spec/10_state.md R38). -/
def countCrcFail (s : State) : State :=
  if crcValid s.params.crcTable s.mem.rx then s
  else { s with cnt := { s.cnt with crcFail := s.cnt.crcFail + 1#32 } }

/-- An exchange inside PacketExchange has returned with STATUS set (R191): transport errors pass through;
a reply is counted if its CRC fails, and accepted, tried again, or given up as ERROR_RESPONSE. -/
def exchangeReturned (s : State) : State :=
  if s.res.status = statusOk then
    if accept s.params s.mem.rx then feReturn statusOk (countCrcFail s)
    else if s.fe.catt = classifyAttempts driverRetries then feReturn statusErrorResponse (countCrcFail s)
    else classifyAttempt driverRetries (countCrcFail s)
  else feReturn s.res.status s

/-- `STATUS <- st; XST <- IDLE` (R152 to R154). -/
def closeExchange (st : Byte) (s : State) : State :=
  { s with res := { s.res with status := st }, xc := { s.xc with xst := .idle } }

/-- The end of an exchange: `BUSY <- 0` when the exchange was the whole command (R152 to R154); within a REG
command the packet exchange goes on and BUSY stays 1 (spec/10_state.md R37; log 17). -/
def endExchange (st : Byte) (s : State) : State :=
  if s.fe.state = .idle then { closeExchange st s with busy := false }
  else exchangeReturned (closeExchange st s)

end Sys2Proof.Machine
end

