-- ==== Sys2Proof/Machine/Wire.lean ====
section
/-! DEFINITION. How an attempt ends (spec/42_transceiver.md R152 to R154), and the four response opcodes of
the wire (spec/30_encoding.md R73): what the transceiver does on a received header (R150). -/

namespace Sys2Proof.Machine

/-- The kinds of a failed attempt (R153). -/
inductive AttemptFailure where
  | stall
  | reject
  | overcount
deriving DecidableEq, Repr

/-- Byte i of HDR. Only i < 4 is asked for. -/
def Xcvr.hdrByte (x : Xcvr) (i : Nat) : Byte := if h : i < 4 then x.hdr[i] else 0#8

/-- `RX[0..3] <- HDR[0..3]` (R152). -/
def copyHeader (s : State) : State :=
  s.setImage .rx
    (Image.set
      (Image.set (Image.set (Image.set s.mem.rx 0 (s.xc.hdrByte 0)) 1 (s.xc.hdrByte 1)) 2 (s.xc.hdrByte 2))
      3 (s.xc.hdrByte 3))

/-- Complete(m) (R152). -/
def complete (m : Byte) (s : State) : State :=
  endExchange statusOk (setResult (4#8 + 2#8 * m) (copyHeader s))

/-- `if kind = STALL: STALL_CNT <- STALL_CNT + 1` (R153). -/
def countStall (kind : AttemptFailure) (s : State) : State :=
  match kind with
  | .stall => { s with cnt := { s.cnt with stall := s.cnt.stall + 1#32 } }
  | .reject => s
  | .overcount => s

/-- AttemptFailed(kind) (R153). -/
def attemptFailed (kind : AttemptFailure) (s : State) : State :=
  if s.xc.att = s.xc.retr then endExchange statusUnresponsive (countStall kind s)
  else beginAttempt (countStall kind s)

/-- CommAbort(e) (R154). -/
def commAbort (e : LinkErr) (s : State) : State := endExchange statusComm (setErrinfo e s)

/-- The part of ValidateHeader (R150) that a header with an accepted opcode and count m reaches. -/
def acceptHeader (m : BitVec 6) (s : State) : State :=
  if m.toNat ≤ capacity then
    if m = 0#6 then complete 0#8 s
    else
      { s with xc := { s.xc with nbody := 2#8 * m.zeroExtend 8, idx := 0#8, xst := .rdBody } }
  else
    match s.params.overcountPolicy with
    | .retry => attemptFailed .overcount s
    | .fault => raise .overcount s

/-- ValidateHeader for the opcode 0b00: success (R73, R150). -/
def onRespOk (m : BitVec 6) (s : State) : State := acceptHeader m s

/-- ValidateHeader for the opcode CORRUPT: the attempt fails, whatever the count (R73, R150). -/
def onRespCorrupt (_m : BitVec 6) (s : State) : State := attemptFailed .reject s

/-- ValidateHeader for the opcode ERROR: the attempt fails, whatever the count (R73, R150). -/
def onRespError (_m : BitVec 6) (s : State) : State := attemptFailed .reject s

/-- ValidateHeader for the opcode 0b11: REJECT_CODE_3 decides (R73, R150). -/
def onRespReserved (m : BitVec 6) (s : State) : State :=
  if s.params.rejectCode3 then attemptFailed .reject s else acceptHeader m s

/-- The response opcode 0b00, success (R73; log 15). -/
def execWireRespOk (count : BitVec 6) (s : State) : Outcome :=
  whileSound s fun s => .next (onRespOk count s)

/-- The response opcode CORRUPT (R73; log 15). -/
def execWireRespCorrupt (count : BitVec 6) (s : State) : Outcome :=
  whileSound s fun s => .next (onRespCorrupt count s)

/-- The response opcode ERROR (R73; log 15). -/
def execWireRespError (count : BitVec 6) (s : State) : Outcome :=
  whileSound s fun s => .next (onRespError count s)

/-- The response opcode 0b11 (R73; log 15). -/
def execWireRespReserved (count : BitVec 6) (s : State) : Outcome :=
  whileSound s fun s => .next (onRespReserved count s)

/-- ValidateHeader (R150): the opcode of HDR[0] picks the response's meaning. -/
def validateHeader (s : State) : State :=
  if opcodeOf (s.xc.hdrByte 0) = 0b00#2 then onRespOk (countOf (s.xc.hdrByte 0)) s
  else if opcodeOf (s.xc.hdrByte 0) = 0b01#2 then onRespCorrupt (countOf (s.xc.hdrByte 0)) s
  else if opcodeOf (s.xc.hdrByte 0) = 0b10#2 then onRespError (countOf (s.xc.hdrByte 0)) s
  else onRespReserved (countOf (s.xc.hdrByte 0)) s

end Sys2Proof.Machine
end

