-- ==== Sys2Proof/Machine/Transceiver.lean ====
section
/-! DEFINITION. The step of a running command (spec/42_transceiver.md R140 to R151): one link call, then the
updates of the rule for the current XST, with every link-free update the rule chains. Then the three XCVR
commands (R141 to R143). A command's issue and its first link call are one step (log 9). -/

namespace Sys2Proof.Machine

/-- A step of XCVR.DISCARD (R142). -/
def drainStep (s : State) : State :=
  match s.link.pollAnswer with
  | .data _ => s.afterPoll
  | .noData => finish statusOk s.afterPoll
  | .err _ => finish statusOk s.afterPoll

/-- XST <- x; IDX <- 0. -/
def enter (x : XState) (s : State) : State := { s with xc := { s.xc with xst := x, idx := 0#8 } }

/-- A step in DISCARD (R145). -/
def discardStep (s : State) : State :=
  match s.link.pollAnswer with
  | .data _ => s.afterPoll
  | .noData => enter .write s.afterPoll
  | .err _ => enter .write s.afterPoll

/-- The state that follows the last live byte (R146). -/
def afterLastByte (p : Params) : XState := if p.flushAfterWrite then .flush else .rdHdr

/-- IDX counts one written byte; after the last one the next phase begins (R146). -/
def byteWritten (s : State) : State :=
  if s.xc.idx + 1#8 = s.xc.txlen then enter (afterLastByte s.params) s
  else { s with xc := { s.xc with idx := s.xc.idx + 1#8 } }

/-- A step in WRITE (R146); a Busy answer holds (R147). -/
def writeStep (s : State) : Outcome :=
  match Image.read8 s.mem.tx s.xc.idx.toNat with
  | none => .fault .outsidePacket
  | some b =>
    match s.link.writeAnswer with
    | .ok => .next (byteWritten (s.afterWrite b))
    | .busy => .next (s.afterWrite b)
    | .err e => .next (commAbort e (s.afterWrite b))

/-- A step in FLUSH (R148); a Busy answer holds (R147). -/
def flushStep (s : State) : State :=
  match s.link.flushAnswer with
  | .ok => enter .rdHdr s.afterFlush
  | .busy => s.afterFlush
  | .err e => commAbort e s.afterFlush

/-- `WB <- WB + 1`. -/
def countWouldBlock (s : State) : State := { s with xc := { s.xc with wb := s.xc.wb + 1#8 } }

/-- A NoData answer while reading (R149, R151, R155). -/
def wouldBlock (s : State) : State :=
  if s.params.stallTolerance < (s.xc.wb + 1#8).toNat then attemptFailed .stall (countWouldBlock s)
  else countWouldBlock s

/-- A received byte moves IDX on and resets WB (R149, R151). -/
def byteRead (s : State) : State :=
  { s with xc := { s.xc with idx := s.xc.idx + 1#8, wb := 0#8 } }

/-- `HDR[i] <- b`. Only i < 4 is asked for. -/
def storeHdr (i : Nat) (b : Byte) (s : State) : State :=
  { s with xc := { s.xc with hdr := s.xc.hdr.setIfInBounds i b } }

/-- A received header byte: `HDR[IDX] <- b; IDX <- IDX + 1; WB <- 0`, and ValidateHeader after the fourth
(R149). -/
def headerByte (b : Byte) (s : State) : State :=
  if s.xc.idx + 1#8 = 4#8 then validateHeader (byteRead (storeHdr s.xc.idx.toNat b s))
  else byteRead (storeHdr s.xc.idx.toNat b s)

/-- A step in RD_HDR (R149). -/
def rdHdrStep (s : State) : Outcome :=
  match s.link.pollAnswer with
  | .data b => if s.xc.idx.toNat < hdrLen then .next (headerByte b s.afterPoll) else .fault .outsidePacket
  | .noData => .next (wouldBlock s.afterPoll)
  | .err e => .next (commAbort e s.afterPoll)

/-- A received body byte is in RX: `IDX <- IDX + 1; WB <- 0`, and Complete after the last (R151). -/
def bodyByte (s : State) : State :=
  if s.xc.idx + 1#8 = s.xc.nbody then complete (s.xc.nbody / 2#8) (byteRead s) else byteRead s

/-- A step in RD_BODY (R151). -/
def rdBodyStep (s : State) : Outcome :=
  match s.link.pollAnswer with
  | .data b =>
    match Image.write8 s.mem.rx (hdrLen + s.xc.idx.toNat) b with
    | none => .fault .outsidePacket
    | some rx => .next (bodyByte (s.afterPoll.setImage .rx rx))
  | .noData => .next (wouldBlock s.afterPoll)
  | .err e => .next (commAbort e s.afterPoll)

/-- One step of a block with BUSY = 1 (R140). With XST = IDLE the running command is XCVR.DISCARD, the one
command over the link that uses no other state of XST (log 10); the command registers are not read (R31). -/
def linkStep (s : State) : Outcome :=
  match s.xc.xst with
  | .idle => .next (drainStep s)
  | .discard => .next (discardStep s)
  | .write => writeStep s
  | .flush => .next (flushStep s)
  | .rdHdr => rdHdrStep s
  | .rdBody => rdBodyStep s

/-- BUSY <- 1 at the issue of a command that runs over the link (spec/10_state.md R37). What the host reads
until it ends is kept (spec/20_memory.md R60; log 24). -/
def setBusy (s : State) : State := { s with busy := true, shown := { res := s.res, cnt := s.cnt } }

/-- The first link call of a command that has just begun its first attempt (R140, R143): the drain. A
command that ended without a link call (R143 with no retries) makes none. -/
def firstCall (s : State) : State := if s.busy then discardStep s else s

/-- The LinkSetup call of SETUP and NEW: what the answer does, given READY after an error (R141, R190). -/
def setupCall (readyOnError : Bool) (s : State) : State :=
  match s.link.setupAnswer with
  | .ok => finish statusOk { s.afterSetup with ready := true }
  | .err e => finish statusComm (setErrinfo e { s.afterSetup with ready := readyOnError })

/-- XCVR.SETUP (R141): an error leaves READY as it was. -/
def execXcvrSetup (s : State) : Outcome :=
  issue (encode .xcvrSetup) .always s fun s => setupCall s.ready s

/-- XCVR.DISCARD (R142). -/
def execXcvrDiscard (s : State) : Outcome :=
  issue (encode .xcvrDiscard) .needsReady s fun s => drainStep (setBusy s)

/-- XCVR.EXCHANGE (R143). -/
def execXcvrExchange (s : State) : Outcome :=
  issue (encode .xcvrExchange) .needsReady s fun s => firstCall (startExchange s.regs.retries (setBusy s))

end Sys2Proof.Machine
end

