-- ==== Sys2Proof/Machine/Registers.lean ====
section
/-! DEFINITION. The commands of the register driver (spec/43_register_access.md R190, R193 to R198). -/

namespace Sys2Proof.Machine

/-- Both packet buffers zeroed: two default() packets (R190). -/
def zeroBuffers (s : State) : State :=
  (s.setImage .tx (defaultImage s.mem.tx)).setImage .rx (defaultImage s.mem.rx)

/-- Issue a REG command: BUSY <- 1, FE and the operands latched, the body, then the first link call. -/
def runReg (f : FState) (n : Byte) (body : State → State) (s : State) : State :=
  firstCall (body (setFe f (latchOperands n (setBusy s))))

/-- DRV.NEW (R190): a failed setup leaves READY = 0. -/
def execDrvNew (s : State) : Outcome :=
  issue (encode .drvNew) .always s fun s => setupCall false (zeroBuffers s)

/-- REG.GET (R193). -/
def execRegGet (s : State) : Outcome :=
  issue (encode .regGet) .needsReady s fun s =>
    if legalN s.regs.n = false then raise .badCount s
    else runReg .get s.regs.n (getBody s.regs.n getReturn) s

/-- REG.GET1 (R195): REG.GET with n = 1; ARG_N is not read. -/
def execRegGet1 (s : State) : Outcome :=
  issue (encode .regGet1) .needsReady s fun s => runReg .get 1#8 (getBody 1#8 getReturn) s

/-- REG.SET (R196). -/
def execRegSet (s : State) : Outcome :=
  issue (encode .regSet) .needsReady s fun s =>
    if legalN s.regs.n = false then raise .badCount s
    else runReg .set s.regs.n (setBody s.regs.n s.regs.value) s

/-- REG.SET1 (R197): REG.SET with n = 1 and VAL[0]; ARG_N is not read. -/
def execRegSet1 (s : State) : Outcome :=
  issue (encode .regSet1) .needsReady s fun s => runReg .set 1#8 (setBody 1#8 s.regs.value) s

/-- REG.MODIFY (R198): the read phase; the write phase follows when the read returns (`modReadReturn`). -/
def execRegModify (s : State) : Outcome :=
  issue (encode .regModify) .needsReady s fun s => runReg .modRead 1#8 (getBody 1#8 modReadReturn) s

end Sys2Proof.Machine
end

