-- ==== Sys2Proof/Machine/Dispatch.lean ====
section
/-! DEFINITION. One arm per instruction. -/

namespace Sys2Proof.Machine

def exec (i : Instr) (s : State) : Host.Outcome State Fault Refusal :=
  match i with
  | .pktDefault b => Sys2Proof.Machine.execPktDefault b s
  | .pktClear b => Sys2Proof.Machine.execPktClear b s
  | .pktBuild b => Sys2Proof.Machine.execPktBuild b s
  | .pktCrc8 b => Sys2Proof.Machine.execPktCrc8 b s
  | .pktCheck b => Sys2Proof.Machine.execPktCheck b s
  | .pktCount b => Sys2Proof.Machine.execPktCount b s
  | .pktCode b => Sys2Proof.Machine.execPktCode b s
  | .xcvrSetup => Sys2Proof.Machine.execXcvrSetup s
  | .xcvrDiscard => Sys2Proof.Machine.execXcvrDiscard s
  | .xcvrExchange => Sys2Proof.Machine.execXcvrExchange s
  | .drvNew => Sys2Proof.Machine.execDrvNew s
  | .regGet => Sys2Proof.Machine.execRegGet s
  | .regGet1 => Sys2Proof.Machine.execRegGet1 s
  | .regSet => Sys2Proof.Machine.execRegSet s
  | .regSet1 => Sys2Proof.Machine.execRegSet1 s
  | .regModify => Sys2Proof.Machine.execRegModify s
  | .wireReadReq c => Sys2Proof.Machine.execWireReadReq c s
  | .wireWriteReq c => Sys2Proof.Machine.execWireWriteReq c s
  | .wireRespOk c => Sys2Proof.Machine.execWireRespOk c s
  | .wireRespCorrupt c => Sys2Proof.Machine.execWireRespCorrupt c s
  | .wireRespError c => Sys2Proof.Machine.execWireRespError c s
  | .wireRespReserved c => Sys2Proof.Machine.execWireRespReserved c s

end Sys2Proof.Machine
end

