-- ==== Sys2Proof/Machine/HostIface.lean ====
section
/-! DEFINITION. The host's side (spec/10_state.md R31 to R38): register writes, the issue of a command by a
write of CMD (spec/30_encoding.md R79, R82), what the host can read, and how host and block take turns
(spec/20_memory.md R60; log 7). -/

namespace Sys2Proof.Machine

/-- `VAL[i] <- v` (R32). -/
def HostRegs.setValue (g : HostRegs) (i : Fin 32) (v : RegValue) : HostRegs :=
  { g with val := g.val.set i.val v i.isLt }

/-- A host write of an operand register; it changes nothing else, also while a command runs (R31;
spec/70_reset_and_hazards.md R263). The other actions write no operand register. -/
def writeOperand (a : HostAction) (g : HostRegs) : HostRegs :=
  match a with
  | .writeMode v => { g with mode := v }
  | .writePage v => { g with page := v }
  | .writeOffset v => { g with offset := v }
  | .writeN v => { g with n := v }
  | .writeRetries v => { g with retries := v }
  | .writeClear v => { g with clearBits := v }
  | .writeSet v => { g with setBits := v }
  | .writeVal i v => g.setValue i v
  | .writeCmd _ => g
  | .letRun => g
  | .await => g

/-- Writing CMD issues the command (R31; R79), or faults (R82). -/
def issueWord (w : Byte) (s : State) : Outcome :=
  match decodeCommand w with
  | .ok i => exec i s
  | .error _ => issueIllegal w s

/-- The block's turn: a link call while a command runs, nothing otherwise ("after reset the block waits for
a CMD write", spec/70_reset_and_hazards.md R260). -/
def blockTurn (s : State) : Outcome := if s.busy then linkStep s else .next s

/-- One turn of host and block (log 7). A faulted block takes no step. The host's next action goes first;
with no action, or while the host waits, the block moves. -/
def turn (s : State) : Outcome :=
  whileSound s fun s =>
    match s.host with
    | [] => blockTurn s
    | .writeCmd w :: rest => issueWord w { s with host := rest }
    | .letRun :: rest => blockTurn { s with host := rest }
    | .await :: rest => if s.busy then linkStep s else .next { s with host := rest }
    | a :: rest => .next { s with regs := writeOperand a s.regs, host := rest }

/-- What the host can read (R37). -/
structure HostView where
  busy : Bool
  ready : Bool
  results : Readable
deriving DecidableEq, Repr

/-- The host's reads, possible at any time (R37), which change nothing (spec/20_memory.md R56). "No effect is
visible before" BUSY returns to 0 (R60): until then results and counters read as they stood at the issue of the
running command (log 24). -/
def State.view (s : State) : HostView where
  busy := s.busy
  ready := s.ready
  results := if s.busy then s.shown else { res := s.res, cnt := s.cnt }

/-- Put an instruction word where the next turn finds it (log 8): a command word in the host's next write of
CMD; any other word in HDR[0] of a header whose last byte is about to arrive, the other header bytes 0. -/
def placeWord (s : State) (w : Byte) : State :=
  match decodeCommand w with
  | .ok _ => { s with host := .writeCmd w :: s.host }
  | .error _ =>
    { s with
      busy := true,
      xc := { s.xc with xst := .rdHdr, idx := 3#8, hdr := (Vector.replicate 4 0#8).set 0 w },
      link := { s.link with poll := .data 0#8 :: s.link.poll },
      host := .letRun :: s.host }

end Sys2Proof.Machine
end

