-- ==== Sys2Proof/Machine/Step.lean ====
section
/-! DEFINITION. One step of the machine, and where the host's tests place an instruction word. -/

namespace Sys2Proof.Machine

/-- One step: a turn of host and block. -/
def step (s : State) : Host.Outcome State Fault Refusal := turn s

/-- The instruction word w placed where the next step runs it (log 8). -/
def State.withFetchWord (s : State) (_nbits w : Nat) : State := placeWord s (BitVec.ofNat 8 w)

end Sys2Proof.Machine
end

