-- ==== Sys2Proof/Machine/Assembler.lean ====
section
/-! DEFINITION. The assembler (spec/30_encoding.md R83, R84): a line stands for the writes of the operand
registers it names, the write of CMD, and a wait until BUSY = 0. -/

namespace Sys2Proof.Machine

/-- A line of R83. `buildZeros` has the bare count of R84. -/
inductive AsmLine where
  | default (buf : Buf)
  | clear (buf : Buf)
  | build (buf : Buf) (mode page offset : Byte) (values : List RegValue)
  | buildZeros (buf : Buf) (mode page offset n : Byte)
  | crc8 (buf : Buf) (n : Byte)
  | check (buf : Buf)
  | count (buf : Buf)
  | code (buf : Buf)
  | setup
  | discard
  | exchange (retries : Byte)
  | new
  | get (page offset n : Byte)
  | get1 (page offset : Byte)
  | set (page offset : Byte) (values : List RegValue)
  | set1 (page offset : Byte) (v : RegValue)
  | modify (page offset : Byte) (clearBits setBits : RegValue)
deriving DecidableEq, Repr

/-- `VAL[i] <- vi` for the values from index i on. -/
def writeVals : Nat → List RegValue → List HostAction
  | _, [] => []
  | i, v :: rest => if h : i < 32 then .writeVal ⟨i, h⟩ v :: writeVals (i + 1) rest else []

/-- `ARG_N` = list length and `VAL[i]` = vi; a list holds at most 32 values (R83). -/
def writeList (values : List RegValue) : Option (List HostAction) :=
  if values.length ≤ capacity then
    some (.writeN (BitVec.ofNat 8 values.length) :: writeVals 0 values)
  else none

/-- The write of CMD and the wait that end a line (R83). -/
def issueLine (i : Instr) : List HostAction := [.writeCmd (encode i), .await]

/-- The host actions of a BUILD line. -/
def assembleBuild (buf : Buf) (mode page offset : Byte) (values : List RegValue) :
    Option (List HostAction) :=
  (writeList values).map fun ws =>
    [.writeMode mode, .writePage page, .writeOffset offset] ++ ws ++ issueLine (.pktBuild buf)

/-- The host actions of a line (R83, R84), or none for a list that is too long. -/
def assemble : AsmLine → Option (List HostAction)
  | .default buf => some (issueLine (.pktDefault buf))
  | .clear buf => some (issueLine (.pktClear buf))
  | .build buf mode page offset values => assembleBuild buf mode page offset values
  | .buildZeros buf mode page offset n =>
    some
      ([.writeMode mode, .writePage page, .writeOffset offset, .writeN n] ++
        writeVals 0 (List.replicate n.toNat 0#16) ++ issueLine (.pktBuild buf))
  | .crc8 buf n => some (.writeN n :: issueLine (.pktCrc8 buf))
  | .check buf => some (issueLine (.pktCheck buf))
  | .count buf => some (issueLine (.pktCount buf))
  | .code buf => some (issueLine (.pktCode buf))
  | .setup => some (issueLine .xcvrSetup)
  | .discard => some (issueLine .xcvrDiscard)
  | .exchange retries => some (.writeRetries retries :: issueLine .xcvrExchange)
  | .new => some (issueLine .drvNew)
  | .get page offset n => some ([.writePage page, .writeOffset offset, .writeN n] ++ issueLine .regGet)
  | .get1 page offset => some ([.writePage page, .writeOffset offset] ++ issueLine .regGet1)
  | .set page offset values =>
    (writeList values).map fun ws =>
      [.writePage page, .writeOffset offset] ++ ws ++ issueLine .regSet
  | .set1 page offset v =>
    some ([.writePage page, .writeOffset offset, .writeVal 0 v] ++ issueLine .regSet1)
  | .modify page offset clearBits setBits =>
    some
      ([.writePage page, .writeOffset offset, .writeClear clearBits, .writeSet setBits] ++
        issueLine .regModify)

end Sys2Proof.Machine
end

