-- ==== Sys2Proof/Safety.lean ====
section
/-! DEFINITION. What the claims speak of: a block that can take a command, the invariant of the states a run
reaches, the answers that hold the block (spec/42_transceiver.md R147, spec/70_reset_and_hazards.md R271), and
a bound on the link calls a running command can still make (R157, R270). -/

namespace Sys2Proof.Machine

/-- The block is sound and no command runs: it can be given a command. -/
def State.Free (s : State) : Prop := s.fault = none ∧ s.busy = false

/-- The block can be given a command that uses the link (spec/70_reset_and_hazards.md R262). -/
def State.Able (s : State) : Prop := s.fault = none ∧ s.busy = false ∧ s.ready = true

/-- The host does nothing, or waits until BUSY = 0: while a command runs every turn is the block's (log 7). -/
def State.Waits (s : State) : Prop := s.host = [] ∨ ∃ rest, s.host = .await :: rest

/-- A command runs and the next turn is the block's: the host does nothing, waits, or lets the block take one
step (log 7). -/
def State.Runs (s : State) : Prop :=
  s.fault = none ∧ s.busy = true ∧ (s.Waits ∨ ∃ rest, s.host = .letRun :: rest)

/-- The host's actions once the block has taken its turn: letRun is used up, a wait goes on. -/
def hostAfterTurn : List HostAction → List HostAction
  | .letRun :: rest => rest
  | actions => actions

/-- The machine in the block's turn. -/
def State.turned (s : State) : State := { s with host := hostAfterTurn s.host }

/-- CMD holds the byte that issues an instruction. -/
def State.withCmd (s : State) (i : Instr) : State := setCmd (encode i) s

/-- A command that runs over the link has been issued: CMD written, BUSY = 1, and the host reads what stood
before (spec/20_memory.md R60; log 24). -/
def State.issued (s : State) (i : Instr) : State :=
  { s.withCmd i with busy := true, shown := { res := s.res, cnt := s.cnt } }

/-- The STATUS codes that are ever written (spec/60_exceptions.md R230). -/
def statusWritten (st : Byte) : Prop :=
  st = statusOk ∨ st = statusComm ∨ st = statusErrorResponse ∨ st = statusUnresponsive

/-- An even length in a range: what TXLEN and NBODY hold (spec/10_state.md R28, R29). -/
def evenIn (lo hi : Nat) (v : Byte) : Prop := lo ≤ v.toNat ∧ v.toNat ≤ hi ∧ v.toNat % 2 = 0

/-- What holds of the transceiver's registers in each state of XST while a command runs (spec/10_state.md R23
to R29). -/
def State.XcvrInv (s : State) : Prop :=
  match s.xc.xst with
  | .idle => s.regs.cmd = encode .xcvrDiscard ∧ s.fe.state = .idle
  | .discard => s.xc.idx = 0#8
  | .write => s.xc.idx.toNat < s.xc.txlen.toNat
  | .flush => s.xc.idx = 0#8
  | .rdHdr => s.xc.idx.toNat < 4
  | .rdBody => s.xc.idx.toNat < s.xc.nbody.toNat

/-- What holds of every state of the machine, a faulted one included. -/
structure State.DataInv (s : State) : Prop where
  /-- Packet memory has its canonical form. -/
  memory : s.mem.wf = true
  /-- "The block never builds" an illegal count (spec/30_encoding.md R74). -/
  txCount : Image.count s.mem.tx ≤ capacity
  /-- STATUS holds a code that some rule writes (spec/60_exceptions.md R230, R233, R235). -/
  status : statusWritten s.res.status
  /-- TXLEN is in {4, 6, ..., 68} (spec/10_state.md R28). -/
  txlen : evenIn 4 68 s.xc.txlen
  /-- NBODY is 2 * count, 0 to 64 (R29). -/
  nbody : evenIn 0 64 s.xc.nbody
  /-- IDX never exceeds 68 (R24). -/
  idx : s.xc.idx.toNat ≤ 68
  /-- WB never exceeds STALL_TOLERANCE + 1 (R25). -/
  wb : s.xc.wb.toNat ≤ s.params.stallTolerance + 1
  /-- CATT is 0 to CLASSIFY_ATTEMPTS(10) (R30). -/
  catt : s.fe.catt.toNat ≤ (classifyAttempts driverRetries).toNat

/-- What holds while a command runs. -/
structure State.RunInv (s : State) : Prop where
  sound : s.fault = none
  ready : s.ready = true
  xcvr : s.XcvrInv
  /-- ATT is 1 to RETR while an exchange runs (R26). -/
  attempts : s.xc.xst ≠ .idle → 1 ≤ s.xc.att.toNat ∧ s.xc.att.toNat ≤ s.xc.retr.toNat
  /-- An attempt that goes on has not exceeded the tolerance (R25, R155). -/
  wb : s.xc.xst ≠ .idle → s.xc.wb.toNat ≤ s.params.stallTolerance
  /-- A REG command runs exchanges of DRIVER_RETRIES attempts and counts its classification attempts from 1. -/
  front : s.fe.state ≠ .idle →
    s.xc.xst ≠ .idle ∧ s.xc.retr = driverRetries ∧ 1 ≤ s.fe.catt.toNat ∧ s.fe.n.toNat ≤ capacity
  /-- CATT is 0 while no REG command runs. -/
  raw : s.fe.state = .idle → s.fe.catt = 0#8

/-- What holds between commands: XST = IDLE, FE = FE_IDLE, CATT = 0 (R30; spec/60_exceptions.md R238, R246). -/
structure State.RestInv (s : State) : Prop where
  xst : s.xc.xst = .idle
  fe : s.fe.state = .idle
  catt : s.fe.catt = 0#8

/-- The invariant of the states a run reaches. -/
structure State.Inv (s : State) : Prop where
  data : s.DataInv
  run : s.busy = true → s.RunInv
  rest : s.busy = false → s.fault = none → s.RestInv

/-- The link's next answer holds the block where it is: Data while input is drained, Busy while a byte is
written or the link is flushed. These are the two unbounded waits of R271. -/
def State.Held (s : State) : Prop :=
  match s.xc.xst with
  | .idle => ∃ b, s.link.pollAnswer = .data b
  | .discard => ∃ b, s.link.pollAnswer = .data b
  | .write => s.link.writeAnswer = .busy
  | .flush => s.link.flushAnswer = .busy
  | .rdHdr => False
  | .rdBody => False

/-- The most link calls that one attempt can make without being held: one drain, 68 writes, one flush, and
68 bytes read with STALL_TOLERANCE = T would-blocks before each, one more ending the attempt (R157, R270). -/
def attemptCalls (T : Nat) : Nat := 1 + 68 + 1 + 68 * (T + 1)

/-- A bound on the calls that the running attempt can still make. -/
def State.attemptLeft (s : State) : Nat :=
  let T := s.params.stallTolerance
  match s.xc.xst with
  | .idle => 1
  | .discard => attemptCalls T
  | .write => (68 - s.xc.idx.toNat) + 1 + 68 * (T + 1)
  | .flush => 1 + 68 * (T + 1)
  | .rdHdr => (68 - s.xc.idx.toNat) * (T + 1) - s.xc.wb.toNat
  | .rdBody => (64 - s.xc.idx.toNat) * (T + 1) - s.xc.wb.toNat

/-- A bound on the link calls that the running command can still make without being held: the attempt under
way, the attempts left of the exchange, the classification attempts left, and the write phase of MODIFY. -/
def State.callsLeft (s : State) : Nat :=
  let B := attemptCalls s.params.stallTolerance
  (if s.fe.state = .modRead then 100 * B else 0) +
  (if s.fe.state = .idle then 0 else (10 - s.fe.catt.toNat) * (10 * B)) +
  (s.xc.retr.toNat - s.xc.att.toNat) * B + s.attemptLeft

/-- A run of the machine from s: the state after k steps, if every one of them went on. -/
def State.after (s : State) (k : Nat) : Option State :=
  match Host.Core.run Sys2Proof.core k s with
  | .next t => some t
  | .fault _ => none
  | .refused _ => none

/-- Change the state that an outcome goes on with. -/
def mapNext (f : State → State) : Outcome → Outcome
  | .next t => .next (f t)
  | .fault r => .fault r
  | .refused r => .refused r

/-- The commands that need READY = 1 (spec/70_reset_and_hazards.md R262). -/
def linkCommands : List Instr :=
  [.xcvrDiscard, .xcvrExchange, .regGet, .regGet1, .regSet, .regSet1, .regModify]

/-- The commands whose operand n is checked (spec/60_exceptions.md R236, BAD_COUNT). -/
def countedCommands : List Instr :=
  [.pktBuild .tx, .pktBuild .rx, .pktCrc8 .tx, .pktCrc8 .rx, .regGet, .regSet]

/-- The bytes that are commands when they are written to CMD: the codes of spec/30_encoding.md R81, and the
same with BUF = 1 for the seven PKT commands (R82). -/
def commandWords : List Byte :=
  [0x01, 0x02, 0x03, 0x04, 0x05, 0x06, 0x07, 0x81, 0x82, 0x83, 0x84, 0x85, 0x86, 0x87,
   0x10, 0x11, 0x12, 0x20, 0x21, 0x22, 0x23, 0x24, 0x25]

/-- The image img holds the packet of spec/41_crc8_framer.md R108: header, n values, a CRC over crcCount values;
`old` is what the buffer held before, and the bytes past the n-th slot are still as there. -/
structure Packet (p : Params) (old img : Image) (countCode page offset : Byte) (n crcCount : Nat)
    (values : Nat → RegValue) : Prop where
  byte0 : Image.get img 0 = countCode
  crc : Image.get img 1 = crc8 p.crcTable img crcCount
  byte2 : Image.get img 2 = page
  byte3 : Image.get img 3 = offset
  slots : ∀ k, k < n → Image.reg p.regByteOrder img k = values k
  rest : ∀ a, 4 + 2 * n ≤ a → Image.get img a = Image.get old a

/-- The image of a buffer after PKT.CLEAR (R107). -/
structure Cleared (p : Params) (old img : Image) : Prop where
  header : ∀ a, a < 4 → Image.get img a = 0#8
  slots : ∀ k, k < 32 → Image.reg p.regByteOrder img k = 0x55AA#16
  rest : ∀ a, 68 ≤ a → Image.get img a = Image.get old a

/-- The link's next LinkPoll answer is a byte. -/
def givesByte : PollAnswer → Bool
  | .data _ => true
  | .noData => false
  | .err _ => false

/-- The first attempt of an exchange, its first drain poll made: a byte keeps the block draining, any other
answer sends it on to WRITE (spec/42_transceiver.md R143 to R145). -/
def Xcvr.firstAttempt (x : Xcvr) (retr txlen : Byte) (drained : Bool) : Xcvr :=
  { x with
    xst := if drained then .write else .discard, idx := 0#8, wb := 0#8, att := 1#8, retr := retr,
    txlen := txlen }

/-- A REG command just issued (spec/43_register_access.md R191, R193, R196, R198): CMD written, BUSY = 1, FE and
the operands taken, the first classification attempt counted, the first attempt of its exchange begun with
DRIVER_RETRIES = 10, one LinkPoll made, and packet memory m. -/
def State.regIssued (s : State) (i : Instr) (f : FState) (n txlen : Byte) (m : Memory) : State :=
  { (s.issued i).afterPoll with
    mem := m,
    fe :=
      { state := f, catt := 1#8, page := s.regs.page, offset := s.regs.offset, n := n,
        clearBits := s.regs.clearBits, setBits := s.regs.setBits },
    xc := s.xc.firstAttempt 10#8 txlen (!givesByte s.link.pollAnswer) }

/-- The next attempt of an exchange (spec/42_transceiver.md R144). -/
def Xcvr.nextAttempt (x : Xcvr) : Xcvr :=
  { x with xst := .discard, idx := 0#8, wb := 0#8, att := x.att + 1#8 }

/-- FE and CATT after a command has ended: at rest if a REG command ran (spec/60_exceptions.md R238). -/
def FrontEnd.ended (f : FrontEnd) : FrontEnd :=
  if f.state = .idle then f else { f with state := .idle, catt := 0#8 }

/-- A command ended by an error of its exchange (spec/42_transceiver.md R153, R154; 43_register_access.md R191;
60_exceptions.md R238): STATUS written, XST = IDLE, FE and CATT at rest, BUSY = 0. -/
def State.endedWith (s : State) (st : Byte) : State :=
  { s with
    res := { s.res with status := st }, xc := { s.xc with xst := .idle }, fe := s.fe.ended, busy := false }

/-- The next byte received is the last of a reply of count m: the fourth byte of a header that is accepted with
count 0, or the last of the 2m body bytes (spec/42_transceiver.md R149 to R151). -/
def State.LastByteNext (s : State) (m : Nat) : Prop :=
  (m = 0 ∧ s.xc.xst = .rdHdr ∧ s.xc.idx = 3#8 ∧ countBits s.xc.hdr[0] = 0#8 ∧
    rejected s.params (codeBits s.xc.hdr[0]) = false) ∨
  (1 ≤ m ∧ m ≤ 32 ∧ s.xc.xst = .rdBody ∧ s.xc.nbody = BitVec.ofNat 8 (2 * m) ∧
    s.xc.idx.toNat + 1 = 2 * m)

/-- The transceiver's registers when that byte b has been stored (R149, R151). -/
def Xcvr.withLastByte (x : Xcvr) (b : Byte) : Xcvr :=
  { x with hdr := if x.xst = .rdHdr then x.hdr.set 3 b else x.hdr, idx := x.idx + 1#8, wb := 0#8 }

/-- RX when that byte b has been stored and the header copied from HDR (R151, R152). -/
def State.receivedWith (s : State) (b : Byte) : Image :=
  let hdr := (s.xc.withLastByte b).hdr
  let body := if s.xc.xst = .rdHdr then s.mem.rx else Image.set s.mem.rx (4 + s.xc.idx.toNat) b
  Image.set (Image.set (Image.set (Image.set body 0 hdr[0]) 1 hdr[1]) 2 hdr[2]) 3 hdr[3]

/-- The image img holds the READ request for n registers that READ_CRC_MODE asks for; `old` is what the buffer
held before (spec/43_register_access.md R193; log 27). -/
def ReadPacket (p : Params) (old img : Image) (n page offset : Byte) : Prop :=
  match p.readCrcMode with
  | .zeroPayload => Packet p old img n page offset n.toNat n.toNat fun _ => 0#16
  | .headerOnly => Packet p old img n page offset 0 0 fun _ => 0#16

/-- The link will take k bytes, then a flush if the block flushes, and nothing else of its lists is used. -/
def Link.Accepts (l : Link) (p : Params) (k : Nat) (restWrite restFlush : List SendAnswer) : Prop :=
  l.write = List.replicate k .ok ++ restWrite ∧
    l.flush = (if p.flushAfterWrite then [.ok] else []) ++ restFlush

/-- The link has nothing to drain, then delivers the bytes of a reply without a gap. -/
def Link.Delivers (l : Link) (reply : List Byte) (restPoll : List PollAnswer) : Prop :=
  l.poll = .noData :: (reply.map .data ++ restPoll)

/-- A reply that the transceiver accepts (spec/42_transceiver.md R150): the header's opcode is success and its
count m is legal, and 2m body bytes follow. -/
structure Reply (reply : List Byte) (m : Nat) : Prop where
  legal : m ≤ 32
  length : reply.length = 4 + 2 * m
  byte0 : reply[0]? = some (BitVec.ofNat 8 m)

/-- The image whose bytes from address a on are those of a list, every other byte 0. -/
def imageFrom : Nat → List Byte → Image
  | _, [] => []
  | a, b :: rest => Image.set (imageFrom (a + 1) rest) a b

/-- A reply that the classification layer accepts (spec/43_register_access.md R192): one that the transceiver
accepts, whose CRC byte is the CRC8 of its own bytes. -/
structure GoodReply (p : Params) (reply : List Byte) (m : Nat) : Prop extends Reply reply m where
  crc : reply[1]? = some (crc8 p.crcTable (imageFrom 0 reply) m)

/-- Slot k of a reply, for k below its count. -/
def replySlot (p : Params) (reply : List Byte) (k : Nat) : RegValue :=
  Image.reg p.regByteOrder (imageFrom 0 reply) k

/-- What RX reads after a reply has been received into it (spec/42_transceiver.md R156). -/
def afterReply (reply : List Byte) (old : Image) (a : Nat) : Byte := (reply[a]?).getD (Image.get old a)

/-- The steps that follow the drain poll of an exchange without a gap: the live bytes, the flush, the reply. -/
def exchangeSteps (p : Params) (live m : Nat) : Nat :=
  live + (if p.flushAfterWrite then 1 else 0) + (4 + 2 * m)

end Sys2Proof.Machine
end

