-- ==== Sys2Proof/Certificates/Slice0/Obligations.lean ====
section
/-! DEFINITION. The statements for the provers. -/

open Sys2Proof Sys2Proof.Machine

/-! ### Reset and steps -/

/-- R40, R260: after reset every piece of state holds its value of R40. -/
def Obligations.ResetValues : Prop :=
  (∀ b a, State.reset.mem.byte b a = 0#8) ∧
  State.reset.xc =
    { xst := .idle, idx := 0, wb := 0, att := 0, retr := 0, txlen := 4, nbody := 0,
      hdr := Vector.replicate 4 0 } ∧
  State.reset.fe.state = .idle ∧ State.reset.fe.catt = 0 ∧
  State.reset.regs =
    { cmd := 0, mode := 0, page := 0, offset := 0, n := 0, retries := 0, clearBits := 0, setBits := 0,
      val := Vector.replicate 32 0 } ∧
  State.reset.res =
    { out := Vector.replicate 32 0, status := 0, errinfo := none, result := 0, flag := false } ∧
  State.reset.cnt = { stall := 0, retry := 0, crcFail := 0 } ∧
  State.reset.fault = none ∧ State.reset.busy = false ∧ State.reset.ready = false

/-- R260, R261: a reset event puts the block at its reset values and touches neither the link nor the host; the
parameters stay (R41). That the event is no step is the model's choice (log 25). -/
def Obligations.ResetEventLeavesTheLink : Prop :=
  ∀ s : State,
    resetBlock s = { State.reset with params := s.params, link := s.link, host := s.host } ∧
    (resetBlock s).link.calls = s.link.calls

/-- R31, R79: a byte written to CMD that is a command is executed as the decoded instruction, the host's action
used up. The order of host and block is the model's (log 7). -/
def Obligations.StepRunsTheCommandWritten : Prop :=
  ∀ (s : State) (w : Byte) (rest : List HostAction) (i : Instr),
    s.fault = none → s.host = .writeCmd w :: rest → decode .command w = .ok i →
    step s = exec i { s with host := rest }

/-- R149, R150: when the fourth header byte arrives, the step stores it and executes the response that byte 0 of
the header stands for. That a received header is an instruction of its own is the model's choice (log 15), and
so are the host's turns (log 7). -/
def Obligations.StepRunsTheHeaderReceived : Prop :=
  ∀ (s : State) (b : Byte),
    s.Runs → s.xc.xst = .rdHdr → s.xc.idx = 3#8 → s.link.pollAnswer = .data b →
    ∃ i, decode .response s.xc.hdr[0] = .ok i ∧
      step s =
        exec i
          { s.turned.afterPoll with xc := { s.xc with hdr := s.xc.hdr.set 3 b, idx := 4#8, wb := 0#8 } }

/-- R77, R143: an exchange executes the request that byte 0 of TX stands for, with RETR and ATT latched, and
then makes its first link call. That a request is an instruction of its own is the model's choice (log 15), that
issue and first link call are one step is deduced (log 9). -/
def Obligations.ExchangeRunsTheRequestInTx : Prop :=
  ∀ (s : State) (i : Instr),
    s.Able → s.regs.retries ≠ 0#8 → decode .request (Image.get s.mem.tx 0) = .ok i →
    ∃ t u,
      exec i
        { s.issued .xcvrExchange with xc := { s.xc with retr := s.regs.retries, att := 0#8 } } = .next t ∧
      linkStep t = .next u ∧ exec .xcvrExchange s = .next u

/-- R36, R239: a faulted block takes no step, whatever the host does and whatever instruction is meant. That the
model's step then answers a fault is its own convention (log 13). -/
def Obligations.FaultedBlockTakesNoStep : Prop :=
  ∀ (s : State) (r : FaultReason), s.fault = some r →
    step s = .fault (.halted r) ∧ ∀ i, exec i s = .fault (.halted r)

/-- R31, R263: a host write of an operand register, also while a command runs, writes that register and changes
nothing else. -/
def Obligations.OperandWritesWriteOneRegister : Prop :=
  ∀ (s : State) (rest : List HostAction), s.fault = none →
    (∀ v, s.host = .writeMode v :: rest →
      step s = .next { s with host := rest, regs := { s.regs with mode := v } }) ∧
    (∀ v, s.host = .writePage v :: rest →
      step s = .next { s with host := rest, regs := { s.regs with page := v } }) ∧
    (∀ v, s.host = .writeOffset v :: rest →
      step s = .next { s with host := rest, regs := { s.regs with offset := v } }) ∧
    (∀ v, s.host = .writeN v :: rest →
      step s = .next { s with host := rest, regs := { s.regs with n := v } }) ∧
    (∀ v, s.host = .writeRetries v :: rest →
      step s = .next { s with host := rest, regs := { s.regs with retries := v } }) ∧
    (∀ v, s.host = .writeClear v :: rest →
      step s = .next { s with host := rest, regs := { s.regs with clearBits := v } }) ∧
    (∀ v, s.host = .writeSet v :: rest →
      step s = .next { s with host := rest, regs := { s.regs with setBits := v } }) ∧
    (∀ (i : Fin 32) v, s.host = .writeVal i v :: rest →
      step s = .next { s with host := rest, regs := { s.regs with val := s.regs.val.set i.val v i.isLt } })

/-! ### Encoding -/

/-- R81, R79, R71 to R73: words written out bit by bit decode to the instructions they stand for. -/
def Obligations.WrittenWordsDecode : Prop :=
  decode .command 0b00000001#8 = .ok (.pktDefault .tx) ∧
  decode .command 0b10000010#8 = .ok (.pktClear .rx) ∧
  decode .command 0b10000111#8 = .ok (.pktCode .rx) ∧
  decode .command 0b00010010#8 = .ok .xcvrExchange ∧
  decode .command 0b00100101#8 = .ok .regModify ∧
  decode .request 0b01000001#8 = .ok (.wireWriteReq 1#6) ∧
  decode .response 0b10000000#8 = .ok (.wireRespError 0#6) ∧
  decode .response 0b11111111#8 = .ok (.wireRespReserved 63#6)

/-- Decoding the word of a well-formed instruction, at the port it is read at, gives the instruction. -/
def Obligations.DecodeOfEncode : Prop :=
  ∀ i : Instr, WellFormed i = true → decode i.port (encode i) = .ok i

/-- A word that decodes is the word of the instruction it decodes to; no word of a port has a second meaning and
no bit of it is dropped. -/
def Obligations.EncodeOfDecode : Prop :=
  ∀ (p : Port) (w : Byte) (i : Instr), decode p w = .ok i →
    encode i = w ∧ i.port = p ∧ WellFormed i = true

/-- R82: a byte that is no command of the code map, or has BUF = 1 on a command that is no PKT command, faults
ILLEGAL_CMD when it is written to CMD; while a command runs it faults BUSY_OVERLAP, which comes first (R237(a),
R263). Nothing else changes. That CMD then holds the byte is deduced (log 14), and that BUSY is then 0 (log 12). -/
def Obligations.IllegalWordsFault : Prop :=
  ∀ (s : State) (w : Byte) (rest : List HostAction),
    s.fault = none → s.host = .writeCmd w :: rest → w ∉ commandWords →
    (s.busy = false →
      step s = .next { s with host := rest, regs := { s.regs with cmd := w }, fault := some .illegalCmd }) ∧
    (s.busy = true →
      step s =
        .next
          { s with
            host := rest, regs := { s.regs with cmd := w }, fault := some .busyOverlap, busy := false })

/-- R77: a request whose code is WRITE has 4 + 2*count live bytes; a request with any other code has 4. -/
def Obligations.LiveBytesOfARequest : Prop :=
  ∀ w : Byte,
    (w &&& 0xC0#8 = 0x40#8 → w &&& 0x3F#8 ≤ 32#8 → (liveLength w).toNat = 4 + 2 * (w &&& 0x3F#8).toNat) ∧
    (w &&& 0xC0#8 ≠ 0x40#8 → (liveLength w).toNat = 4)

/-! ### Packet memory and CRC -/

/-- R52: a write of one byte changes that byte, a 16-bit write the two bytes at its address in the block's byte
order, and no other byte; what was written is read back (R51). -/
def Obligations.RegisterWriteChangesTwoBytes : Prop :=
  (∀ (img : Image) (a : Nat) (v : Byte), a + 1 ≤ 68 → ∃ new,
    Image.write8 img a v = some new ∧ Image.read8 new a = some v ∧
    ∀ x, x ≠ a → Image.get new x = Image.get img x) ∧
  ∀ (img : Image) (a : Nat) (v : RegValue), a + 2 ≤ 68 →
    (∀ x, x ≠ a → x ≠ a + 1 →
      Image.get (Image.write16 .le img a v) x = Image.get img x ∧
      Image.get (Image.write16 .be img a v) x = Image.get img x) ∧
    Image.get (Image.write16 .le img a v) a = v.extractLsb' 0 8 ∧
    Image.get (Image.write16 .le img a v) (a + 1) = v.extractLsb' 8 8 ∧
    Image.get (Image.write16 .be img a v) a = v.extractLsb' 8 8 ∧
    Image.get (Image.write16 .be img a v) (a + 1) = v.extractLsb' 0 8 ∧
    ∀ order, Image.read16 order (Image.write16 order img a v) a = v

/-- R100, in the form R102 that the spec derives from it: CRC8 is the byte-serial table CRC with initial value 0
over the 4 + 2n first bytes, the CRC slot read as zero, for every table. -/
def Obligations.CrcIsTheSerialCrcWithAZeroSlot : Prop :=
  ∀ (t : CrcTable) (img : Image) (n : Nat), n ≤ 32 →
    crc8 t img n =
      (List.range (4 + 2 * n)).foldl
        (fun c i => CrcTable.entry t (c ^^^ (if i = 1 then 0#8 else Image.get img i))) 0#8

/-- R100: the value stored in the CRC slot does not affect CRC8, nor does any byte from 4 + 2n on. -/
def Obligations.CrcReadsOnlyTheWalkedBytes : Prop :=
  ∀ (t : CrcTable) (x y : Image) (n : Nat), n ≤ 32 →
    (∀ a, a < 4 + 2 * n → a ≠ 1 → Image.get x a = Image.get y a) → crc8 t x n = crc8 t y n

/-- R104: T07, which the spec gives from general knowledge (log 2), is the table that eight shift-and-reduce
steps by 0x07 compute; its entry of 0 is 0 and it is linear, which the spec derives from that construction. -/
def Obligations.DefaultTableIsLinear : Prop :=
  (∀ i : Byte, CrcTable.entry t07 i = t07Entry i) ∧
  CrcTable.entry t07 0#8 = 0#8 ∧
  ∀ a b : Byte, CrcTable.entry t07 (a ^^^ b) = CrcTable.entry t07 a ^^^ CrcTable.entry t07 b

/-- The spec derives from T07's linearity that a flipped bit is detected (R113); this says more, over R100, R104
and R109: under T07 (log 2), take a packet that PKT.CHECK finds valid and change one of the bytes it covers, its
CRC slot among them, in any bits but the count; then PKT.CHECK finds it invalid. -/
def Obligations.OneChangedByteIsDetected : Prop :=
  ∀ (img : Image) (a : Nat) (v : Byte),
    crcValid t07 img = true → a < 4 + 2 * Image.count img → v ≠ Image.get img a →
    (a = 0 → countOf v = countOf (Image.get img 0)) →
    crcValid t07 (Image.set img a v) = false

/-! ### PKT commands -/

/-- R106: PKT.DEFAULT zeroes the buffer and changes nothing else; that it leaves STATUS as it was is deduced
(log 21). The buffer then passes PKT.CHECK exactly when the table applied four times to 0 gives 0, as under T07
(R104; log 2) it does (the spec derives this last part from R100). -/
def Obligations.DefaultZeroesTheBuffer : Prop :=
  (encode (.pktDefault .tx) = 0x01#8 ∧ encode (.pktDefault .rx) = 0x81#8) ∧
  ∀ (b : Buf) (s : State), s.Free → ∃ m : Memory,
    exec (.pktDefault b) s = .next { s.withCmd (.pktDefault b) with mem := m } ∧
    (∀ a, a < 68 → m.byte b a = 0#8) ∧
    (∀ c a, c ≠ b ∨ 68 ≤ a → m.byte c a = s.mem.byte c a) ∧
    (let T := CrcTable.entry s.params.crcTable
     crcValid s.params.crcTable (m.image b) = decide (T (T (T (T 0#8))) = 0#8)) ∧
    (s.params.crcTable = t07 → crcValid s.params.crcTable (m.image b) = true)

/-- R107: PKT.CLEAR zeroes the header and puts SENTINEL in every slot, in the block's byte order, and changes
nothing else; that it leaves STATUS as it was is deduced (log 21). Under T07 (R104; log 2) the buffer then
passes PKT.CHECK. -/
def Obligations.ClearFillsTheBuffer : Prop :=
  (encode (.pktClear .tx) = 0x02#8 ∧ encode (.pktClear .rx) = 0x82#8) ∧
  ∀ (b : Buf) (s : State), s.Free → ∃ m : Memory,
    exec (.pktClear b) s = .next { s.withCmd (.pktClear b) with mem := m } ∧
    Cleared s.params (s.mem.image b) (m.image b) ∧
    (∀ k, k < 32 → s.params.regByteOrder = .le →
      m.byte b (4 + 2 * k) = 0xAA#8 ∧ m.byte b (5 + 2 * k) = 0x55#8) ∧
    (∀ k, k < 32 → s.params.regByteOrder = .be →
      m.byte b (4 + 2 * k) = 0x55#8 ∧ m.byte b (5 + 2 * k) = 0xAA#8) ∧
    (∀ c a, c ≠ b → m.byte c a = s.mem.byte c a) ∧
    (s.params.crcTable = t07 → crcValid s.params.crcTable (m.image b) = true)

/-- R108: PKT.BUILD with legal operands writes the header, the n values and the CRC, and changes nothing else;
with n over 32 it faults BAD_COUNT, and otherwise with a mode that has count bits it faults BAD_MODE. That CMD
holds the byte of the refused command is deduced (log 14), and so is that no STATUS is written (log 21). -/
def Obligations.BuildEncodesThePacket : Prop :=
  (encode (.pktBuild .tx) = 0x03#8 ∧ encode (.pktBuild .rx) = 0x83#8) ∧
  ∀ (b : Buf) (s : State), s.Free →
    (s.regs.n.toNat ≤ 32 → s.regs.mode &&& 0x3F#8 = 0#8 → ∃ m : Memory,
      exec (.pktBuild b) s = .next { s.withCmd (.pktBuild b) with mem := m } ∧
      Packet s.params (s.mem.image b) (m.image b) (s.regs.n ||| s.regs.mode) s.regs.page s.regs.offset
        s.regs.n.toNat s.regs.n.toNat (fun k => s.regs.val[k]!) ∧
      (∀ c a, c ≠ b → m.byte c a = s.mem.byte c a)) ∧
    (32 < s.regs.n.toNat →
      exec (.pktBuild b) s = .next { s.withCmd (.pktBuild b) with fault := some .badCount }) ∧
    (s.regs.n.toNat ≤ 32 → s.regs.mode &&& 0x3F#8 ≠ 0#8 →
      exec (.pktBuild b) s = .next { s.withCmd (.pktBuild b) with fault := some .badMode })

/-- R105: PKT.CRC8 puts the CRC of the buffer over n values into RESULT and changes nothing else; with n over 32
it faults BAD_COUNT. That CMD holds the byte of the refused command is deduced (log 14), and so is that no
STATUS is written (log 21). -/
def Obligations.CrcCommandWritesResult : Prop :=
  (encode (.pktCrc8 .tx) = 0x04#8 ∧ encode (.pktCrc8 .rx) = 0x84#8) ∧
  ∀ (b : Buf) (s : State), s.Free →
    (s.regs.n.toNat ≤ 32 →
      exec (.pktCrc8 b) s =
        .next
          { s.withCmd (.pktCrc8 b) with
            res :=
              { s.res with
                result :=
                  (List.range' 2 (2 + 2 * s.regs.n.toNat)).foldl
                    (fun c i => CrcTable.entry s.params.crcTable (c ^^^ s.mem.byte b i))
                    (CrcTable.entry s.params.crcTable
                      (CrcTable.entry s.params.crcTable (s.mem.byte b 0))) } }) ∧
    (32 < s.regs.n.toNat →
      exec (.pktCrc8 b) s = .next { s.withCmd (.pktCrc8 b) with fault := some .badCount })

/-- R109: PKT.CHECK sets FLAG exactly when the count stored in byte 0 is at most 32 and the CRC over that count
is byte 1, and changes nothing else; that it leaves STATUS as it was is deduced (log 21). -/
def Obligations.CheckWritesTheVerdict : Prop :=
  (encode (.pktCheck .tx) = 0x05#8 ∧ encode (.pktCheck .rx) = 0x85#8) ∧
  ∀ (b : Buf) (s : State), s.Free → ∃ v : Bool,
    exec (.pktCheck b) s = .next { s.withCmd (.pktCheck b) with res := { s.res with flag := v } } ∧
    (v = true ↔
      (s.mem.byte b 0 &&& 0x3F#8).toNat ≤ 32 ∧
      crc8 s.params.crcTable (s.mem.image b) (s.mem.byte b 0 &&& 0x3F#8).toNat = s.mem.byte b 1)

/-- R110, R111: PKT.COUNT and PKT.CODE put the count bits and the opcode bits of byte 0 into RESULT and change
nothing else; that they leave STATUS as it was is deduced (log 21). -/
def Obligations.CountAndCodeReadByteZero : Prop :=
  (encode (.pktCount .tx) = 0x06#8 ∧ encode (.pktCount .rx) = 0x86#8 ∧
    encode (.pktCode .tx) = 0x07#8 ∧ encode (.pktCode .rx) = 0x87#8) ∧
  ∀ (b : Buf) (s : State), s.Free →
    exec (.pktCount b) s =
      .next
        { s.withCmd (.pktCount b) with res := { s.res with result := s.mem.byte b 0 &&& 0x3F#8 } } ∧
    exec (.pktCode b) s =
      .next { s.withCmd (.pktCode b) with res := { s.res with result := s.mem.byte b 0 &&& 0xC0#8 } }

/-- R112, which the spec derives from R108 and R109: after PKT.BUILD with any legal operands, PKT.CHECK gives
FLAG = 1, for every table. -/
def Obligations.BuildThenCheckPasses : Prop :=
  ∀ (b : Buf) (s : State), s.Free → s.regs.n.toNat ≤ 32 → s.regs.mode &&& 0x3F#8 = 0#8 →
    ∃ t u, exec (.pktBuild b) s = .next t ∧ exec (.pktCheck b) t = .next u ∧ u.res.flag = true

/-! ### Issue -/

/-- R237(a), R262, R263: the checks at the issue of a command, in their order (ILLEGAL_CMD, which no command
has, is in IllegalWordsFault); each fault sets FAULT and makes no link call. That BUSY is 0 afterwards is
deduced (log 12). That CMD holds the byte of a refused command is deduced (log 14). -/
def Obligations.IssueChecksInOrder : Prop :=
  ∀ (i : Instr) (s : State), i.port = .command → s.fault = none →
    (s.busy = true →
      exec i s = .next { s.withCmd i with fault := some .busyOverlap, busy := false }) ∧
    (s.busy = false → i ∈ linkCommands → s.ready = false →
      exec i s = .next { s.withCmd i with fault := some .notReady }) ∧
    (s.busy = false → (i ∈ linkCommands → s.ready = true) → i ∈ countedCommands → 32 < s.regs.n.toNat →
      exec i s = .next { s.withCmd i with fault := some .badCount }) ∧
    (s.busy = false → (∃ b, i = .pktBuild b) → s.regs.n.toNat ≤ 32 → s.regs.mode &&& 0x3F#8 ≠ 0#8 →
      exec i s = .next { s.withCmd i with fault := some .badMode })

/-! ### Link setup and drain -/

/-- R141: XCVR.SETUP makes one LinkSetup call; Ok sets READY, an error is recorded and leaves READY as it was. -/
def Obligations.SetupAsksTheLink : Prop :=
  encode .xcvrSetup = 0x10#8 ∧
  ∀ s : State, s.Free →
    (s.link.setupAnswer = .ok →
      exec .xcvrSetup s =
        .next
          { s.withCmd .xcvrSetup with
            link := s.link.afterSetup, ready := true, res := { s.res with status := 0#8 } }) ∧
    (∀ e, s.link.setupAnswer = .err e →
      exec .xcvrSetup s =
        .next
          { s.withCmd .xcvrSetup with
            link := s.link.afterSetup, res := { s.res with status := 1#8, errinfo := some e } })

/-- R190: DRV.NEW zeroes both buffers and makes one LinkSetup call; Ok sets READY, an error clears it and is
recorded. -/
def Obligations.NewZeroesAndSetsUp : Prop :=
  encode .drvNew = 0x20#8 ∧
  ∀ s : State, s.Free → ∃ m : Memory,
    (∀ b a, a < 68 → m.byte b a = 0#8) ∧
    (∀ b a, 68 ≤ a → m.byte b a = s.mem.byte b a) ∧
    (s.link.setupAnswer = .ok →
      exec .drvNew s =
        .next
          { s.withCmd .drvNew with
            link := s.link.afterSetup, mem := m, ready := true, res := { s.res with status := 0#8 } }) ∧
    (∀ e, s.link.setupAnswer = .err e →
      exec .drvNew s =
        .next
          { s.withCmd .drvNew with
            link := s.link.afterSetup, mem := m, ready := false,
            res := { s.res with status := 1#8, errinfo := some e } })

/-- R142: XCVR.DISCARD drops one byte a step until the link answers NoData or an error, then ends with OK; an
error is ignored. That it runs with XST = IDLE is deduced (log 10), and so is that its issue and first link call
are one step (log 9). The link's answers are a list and the host waits by the model's choice (logs 5, 7); what
the host reads meanwhile is kept (log 24). -/
def Obligations.DiscardDrainsTheLink : Prop :=
  ∀ (s : State) (bytes : List Byte) (a : PollAnswer) (rest : List PollAnswer),
    s.Able → s.Waits → s.xc.xst = .idle → s.link.poll = bytes.map .data ++ a :: rest →
    givesByte a = false →
    ∃ t, exec .xcvrDiscard s = .next t ∧
      t.after bytes.length =
        some
          { s.withCmd .xcvrDiscard with
            shown := { res := s.res, cnt := s.cnt },
            link :=
              { s.link with
                poll := rest, calls := List.replicate (bytes.length + 1) .poll ++ s.link.calls },
            res := { s.res with status := 0#8 } }

/-! ### The transceiver -/

/-- R143, R144, R145: XCVR.EXCHANGE with no retries ends at once with UNRESPONSIVE and makes no link call. With
retries it latches RETR and TXLEN, begins attempt 1 and makes its first drain poll; it changes nothing else,
neither buffer among it. That issue and first link call are one step is deduced (log 9), and so is that the host
goes on reading what stood before (log 24). -/
def Obligations.ExchangeBeginsItsFirstAttempt : Prop :=
  ∀ s : State, s.Able →
    (s.regs.retries = 0#8 →
      exec .xcvrExchange s =
        .next
          { s.withCmd .xcvrExchange with
            shown := { res := s.res, cnt := s.cnt },
            xc := { s.xc with retr := 0#8, att := 0#8, txlen := liveLength (Image.get s.mem.tx 0) },
            res := { s.res with status := 4#8 } }) ∧
    (s.regs.retries ≠ 0#8 →
      exec .xcvrExchange s =
        .next
          { (s.issued .xcvrExchange).afterPoll with
            xc :=
              s.xc.firstAttempt s.regs.retries (liveLength (Image.get s.mem.tx 0))
                (!givesByte s.link.pollAnswer) })

/-- R145: a step in DISCARD drops a byte and stays, or goes on to WRITE on any other answer. The block has its
turn while the host does nothing, waits or lets it run (the model's turns, log 7). -/
def Obligations.DiscardStateDrains : Prop :=
  ∀ s : State, s.Runs → s.xc.xst = .discard →
    (∀ b, s.link.pollAnswer = .data b → step s = .next s.turned.afterPoll) ∧
    (givesByte s.link.pollAnswer = false →
      step s = .next { s.turned.afterPoll with xc := { s.xc with xst := .write, idx := 0#8 } })

/-- R146, R147, R148: a step in WRITE hands TX[IDX] to the link; Ok moves on, after the last live byte to FLUSH
or RD_HDR; a step in FLUSH goes on to RD_HDR on Ok; Busy holds and changes nothing but the link. The block has
its turn while the host does nothing, waits or lets it run (the model's turns, log 7). -/
def Obligations.SendingHandsTheBytesToTheLink : Prop :=
  ∀ s : State, s.Runs →
    (s.xc.xst = .write → s.xc.idx.toNat < 68 → s.link.writeAnswer = .ok → s.xc.idx + 1#8 ≠ s.xc.txlen →
      step s =
        .next
          { s.turned.afterWrite (s.mem.byte .tx s.xc.idx.toNat) with
            xc := { s.xc with idx := s.xc.idx + 1#8 } }) ∧
    (s.xc.xst = .write → s.xc.idx.toNat < 68 → s.link.writeAnswer = .ok → s.xc.idx + 1#8 = s.xc.txlen →
      step s =
        .next
          { s.turned.afterWrite (s.mem.byte .tx s.xc.idx.toNat) with
            xc :=
              { s.xc with
                idx := 0#8, xst := if s.params.flushAfterWrite then .flush else .rdHdr } }) ∧
    (s.xc.xst = .write → s.xc.idx.toNat < 68 → s.link.writeAnswer = .busy →
      step s = .next (s.turned.afterWrite (s.mem.byte .tx s.xc.idx.toNat))) ∧
    (s.xc.xst = .flush → s.link.flushAnswer = .ok →
      step s = .next { s.turned.afterFlush with xc := { s.xc with xst := .rdHdr, idx := 0#8 } }) ∧
    (s.xc.xst = .flush → s.link.flushAnswer = .busy → step s = .next s.turned.afterFlush)

/-- R149, R151, R155: while reading, a byte that is not the last of its phase is stored, moves IDX on and resets
WB; a NoData within the tolerance counts in WB and changes nothing else but the link. The block has its turn
while the host does nothing, waits or lets it run (the model's turns, log 7). -/
def Obligations.ReadingStoresBytesAndCountsGaps : Prop :=
  ∀ s : State, s.Runs →
    (∀ b (h : s.xc.idx.toNat < 3), s.xc.xst = .rdHdr → s.link.pollAnswer = .data b →
      step s =
        .next
          { s.turned.afterPoll with
            xc :=
              { s.xc with
                hdr := s.xc.hdr.set s.xc.idx.toNat b (by omega), idx := s.xc.idx + 1#8, wb := 0#8 } }) ∧
    (∀ b, s.xc.xst = .rdBody → s.link.pollAnswer = .data b → s.xc.idx.toNat + 1 < s.xc.nbody.toNat →
      s.xc.nbody.toNat ≤ 64 → ∃ rx,
        step s =
          .next
            { s.turned.afterPoll with
              mem := { s.mem with rx := rx }, xc := { s.xc with idx := s.xc.idx + 1#8, wb := 0#8 } } ∧
        Image.get rx (4 + s.xc.idx.toNat) = b ∧
        ∀ a, a ≠ 4 + s.xc.idx.toNat → Image.get rx a = Image.get s.mem.rx a) ∧
    (s.xc.xst = .rdHdr ∨ s.xc.xst = .rdBody → s.link.pollAnswer = .noData → s.xc.wb.toNat < 255 →
      s.xc.wb.toNat < s.params.stallTolerance →
      step s = .next { s.turned.afterPoll with xc := { s.xc with wb := s.xc.wb + 1#8 } })

/-- R153, R155: the NoData that exceeds the tolerance ends the attempt: STALL_CNT counts it, and the next
attempt begins (RETRY_CNT counts it), or after the last one the command ends with UNRESPONSIVE. The block has
its turn while the host does nothing, waits or lets it run (the model's turns, log 7). -/
def Obligations.StallEndsTheAttempt : Prop :=
  ∀ s : State, s.Runs → s.xc.xst = .rdHdr ∨ s.xc.xst = .rdBody → s.link.pollAnswer = .noData →
    s.xc.wb.toNat < 255 → s.xc.wb.toNat = s.params.stallTolerance →
    (1 ≤ s.xc.att.toNat → s.xc.att.toNat < s.xc.retr.toNat →
      step s =
        .next
          { s.turned.afterPoll with
            xc := { s.xc.nextAttempt with wb := 0#8 },
            cnt := { s.cnt with stall := s.cnt.stall + 1, retry := s.cnt.retry + 1 } }) ∧
    (s.xc.att = s.xc.retr →
      step s =
        .next
          (State.endedWith
            { s.turned.afterPoll with
              xc := { s.xc with wb := s.xc.wb + 1#8 }, cnt := { s.cnt with stall := s.cnt.stall + 1 } }
            4#8))

/-- R154, R231, R237(b): an error answer while writing, flushing or reading ends the command with COMM and the
error value in ERRINFO, whatever attempts remain. The block has its turn while the host does nothing, waits or
lets it run (the model's turns, log 7). -/
def Obligations.LinkErrorEndsTheCommand : Prop :=
  ∀ (s : State) (e : LinkErr), s.Runs → s.xc.idx.toNat < 68 →
    (s.xc.xst = .write → s.link.writeAnswer = .err e →
      step s =
        .next
          (State.endedWith
            (setErrinfo e (s.turned.afterWrite (s.mem.byte .tx s.xc.idx.toNat))) 1#8)) ∧
    (s.xc.xst = .flush → s.link.flushAnswer = .err e →
      step s = .next (State.endedWith (setErrinfo e s.turned.afterFlush) 1#8)) ∧
    (s.xc.xst = .rdHdr ∨ s.xc.xst = .rdBody → s.link.pollAnswer = .err e →
      step s = .next (State.endedWith (setErrinfo e s.turned.afterPoll) 1#8))

/-- R149 to R152: the last byte of the reply completes a raw exchange, the last body byte or, for an accepted
header with count 0, the fourth header byte: the byte is stored, the header is copied to RX, RESULT is the
number of bytes received, and the command ends with OK. The block has its turn while the host does nothing,
waits or lets it run (the model's turns, log 7). -/
def Obligations.LastByteCompletesTheExchange : Prop :=
  ∀ (s : State) (b : Byte) (m : Nat),
    s.Runs → s.fe.state = .idle → s.link.pollAnswer = .data b → s.LastByteNext m → ∃ rx,
      step s =
        .next
          { s.turned.afterPoll with
            mem := { s.mem with rx := rx },
            xc := { s.xc.withLastByte b with xst := .idle },
            res := { s.res with status := 0#8, result := BitVec.ofNat 8 (4 + 2 * m) },
            busy := false } ∧
      (∀ a (h : a < 4), Image.get rx a = (s.xc.withLastByte b).hdr[a]) ∧
      (1 ≤ m → Image.get rx (3 + 2 * m) = b) ∧
      (∀ a, 4 ≤ a → (1 ≤ m → a ≠ 3 + 2 * m) → Image.get rx a = Image.get s.mem.rx a)

/-- R151, R152, R191, R192, R193, R196, R198: within a REG command, at any attempt and any classification
attempt, a reply received to its last byte whose count and CRC are right and whose opcode is accepted ends the
packet exchange. REG.GET ends with OK and its n first OUT values are the slots of RX; REG.SET and the write of
REG.MODIFY end with OK; the read of REG.MODIFY puts the value in OUT[0] and begins the write of the modified
value. That BUSY stays 1 between those two exchanges is deduced (log 17), and where the operands stand (log 11).
The block has its turn while the host does nothing, waits or lets it run (the model's turns, log 7). -/
def Obligations.AcceptedReplyAnswersTheRegCommand : Prop :=
  ∀ (s : State) (b : Byte) (m : Nat),
    s.Runs → s.link.pollAnswer = .data b → s.LastByteNext m →
    countBits s.xc.hdr[0] = BitVec.ofNat 8 m → rejected s.params (codeBits s.xc.hdr[0]) = false →
    crc8 s.params.crcTable (s.receivedWith b) m = s.xc.hdr[1] →
    (s.fe.state = .get → s.fe.n.toNat ≤ 32 → ∃ out : Vector RegValue 32,
      step s =
        .next
          (State.endedWith
            { s.turned.afterPoll with
              mem := { s.mem with rx := s.receivedWith b },
              xc := s.xc.withLastByte b,
              res := { s.res with out := out, result := BitVec.ofNat 8 (4 + 2 * m) } }
            0#8) ∧
      ∀ k (h : k < 32),
        out[k] =
          if k < s.fe.n.toNat then Image.reg s.params.regByteOrder (s.receivedWith b) k else s.res.out[k]) ∧
    (s.fe.state = .set ∨ s.fe.state = .modWrite →
      step s =
        .next
          (State.endedWith
            { s.turned.afterPoll with
              mem := { s.mem with rx := s.receivedWith b },
              xc := s.xc.withLastByte b,
              res := { s.res with result := BitVec.ofNat 8 (4 + 2 * m) } }
            0#8)) ∧
    (s.fe.state = .modRead → ∃ (out : Vector RegValue 32) (mem : Memory) (v : RegValue),
      step s =
        .next
          { s.turned.afterPoll with
            mem := mem,
            xc := (s.xc.withLastByte b).firstAttempt 10#8 6#8 false,
            fe := { s.fe with state := .modWrite, catt := 1#8 },
            res := { s.res with out := out, status := 0#8, result := BitVec.ofNat 8 (4 + 2 * m) } } ∧
      v = Image.reg s.params.regByteOrder (s.receivedWith b) 0 ∧
      (∀ k (h : k < 32), out[k] = if k = 0 then v else s.res.out[k]) ∧
      Cleared s.params (s.receivedWith b) mem.rx ∧
      Packet s.params s.mem.tx mem.tx 0x41#8 s.fe.page s.fe.offset 1 1
        (fun _ => (v &&& ~~~s.fe.clearBits) ||| s.fe.setBits))

/-! ### The wire's opcodes -/

/-- R72, R77, R143, R144: a READ request sends its 4 header bytes whatever its count, a WRITE request its header
and values: TXLEN is latched and the first attempt begins, or with RETR = 0 the exchange ends UNRESPONSIVE. That
a request is an instruction of its own is the model's choice (log 15). -/
def Obligations.RequestOpcodesFixTheLiveLength : Prop :=
  ∀ (c : BitVec 6) (s : State), s.fault = none → s.xc.att = 0#8 →
    (s.xc.retr ≠ 0#8 →
      exec (.wireReadReq c) s =
        .next
          { s with
            xc := { s.xc with txlen := 4#8, xst := .discard, idx := 0#8, wb := 0#8, att := 1#8 } } ∧
      (c.toNat ≤ 32 →
        exec (.wireWriteReq c) s =
          .next
            { s with
              xc :=
                { s.xc with
                  txlen := BitVec.ofNat 8 (4 + 2 * c.toNat), xst := .discard, idx := 0#8, wb := 0#8,
                  att := 1#8 } })) ∧
    (s.xc.retr = 0#8 →
      exec (.wireReadReq c) s =
        .next
          { s with
            xc := { s.xc with txlen := 4#8 }, res := { s.res with status := 4#8 }, busy := false } ∧
      (c.toNat ≤ 32 →
        exec (.wireWriteReq c) s =
          .next
            { s with
              xc := { s.xc with txlen := BitVec.ofNat 8 (4 + 2 * c.toNat) },
              res := { s.res with status := 4#8 }, busy := false }))

/-- R73, R150, R152: a success header. Count 0 completes a raw exchange with just the header; counts 1 to 32 go
on to read 2*count body bytes; a count over 32 under OVERCOUNT_POLICY = FAULT faults OVERCOUNT, and under RETRY
fails the attempt as a rejected opcode does. That a header is an instruction of its own is the model's choice
(log 15), that BUSY is 0 after the fault is deduced (log 12). -/
def Obligations.SuccessHeaderIsAccepted : Prop :=
  ∀ (c : BitVec 6) (s : State), s.fault = none →
    (c = 0#6 → s.fe.state = .idle → ∃ rx,
      exec (.wireRespOk c) s =
        .next
          { s with
            mem := { s.mem with rx := rx }, xc := { s.xc with xst := .idle },
            res := { s.res with status := 0#8, result := 4#8 }, busy := false } ∧
      (∀ a (h : a < 4), Image.get rx a = s.xc.hdr[a]) ∧
      (∀ a, 4 ≤ a → Image.get rx a = Image.get s.mem.rx a)) ∧
    (1 ≤ c.toNat → c.toNat ≤ 32 →
      exec (.wireRespOk c) s =
        .next
          { s with
            xc := { s.xc with nbody := BitVec.ofNat 8 (2 * c.toNat), idx := 0#8, xst := .rdBody } }) ∧
    (32 < c.toNat → s.params.overcountPolicy = .fault →
      exec (.wireRespOk c) s = .next { s with fault := some .overcount, busy := false }) ∧
    (32 < c.toNat → s.params.overcountPolicy = .retry →
      exec (.wireRespOk c) s = exec (.wireRespError c) s)

/-- R73, R150, R153: a CORRUPT or ERROR header, and 0b11 with REJECT_CODE_3, fails the attempt whatever its
count: the next attempt begins and RETRY_CNT counts it, or after the last one the command ends with
UNRESPONSIVE. With REJECT_CODE_3 = false the opcode 0b11 is treated as success. That a header is an instruction
of its own is the model's choice (log 15). -/
def Obligations.RejectedHeaderFailsTheAttempt : Prop :=
  (∀ (c : BitVec 6) (s : State) (i : Instr), s.fault = none →
    (i = .wireRespCorrupt c ∨ i = .wireRespError c ∨
      (i = .wireRespReserved c ∧ s.params.rejectCode3 = true)) →
    (1 ≤ s.xc.att.toNat → s.xc.att.toNat < s.xc.retr.toNat →
      exec i s =
        .next
          { s with
            xc := { s.xc.nextAttempt with wb := 0#8 }, cnt := { s.cnt with retry := s.cnt.retry + 1 } }) ∧
    (s.xc.att = s.xc.retr → exec i s = .next (s.endedWith 4#8))) ∧
  ∀ (c : BitVec 6) (s : State), s.fault = none → s.params.rejectCode3 = false →
    ∃ t, exec (.wireRespReserved c) s = .next t ∧ exec (.wireRespOk c) s = .next t

/-- R191, R192, R232: within a REG command, a reply received to its last byte whose CRC is wrong, with or
without a body and with any opcode that the transceiver let through, is counted by CRCFAIL_CNT. Before the tenth
classification attempt RX is cleared and the next one begins with a new exchange; after the tenth the command
ends with ERROR_RESPONSE. That BUSY stays 1 between two exchanges is deduced (log 17). The block has its turn
while the host does nothing, waits or lets it run (the model's turns, log 7). -/
def Obligations.CorruptReplyIsTriedAgainThenGivenUp : Prop :=
  ∀ (s : State) (b : Byte) (m : Nat),
    s.Runs → s.fe.state ≠ .idle → s.link.pollAnswer = .data b → s.LastByteNext m →
    countBits s.xc.hdr[0] = BitVec.ofNat 8 m →
    crc8 s.params.crcTable (s.receivedWith b) m ≠ s.xc.hdr[1] →
    (s.fe.catt.toNat < 10 → ∃ rx,
      step s =
        .next
          { s.turned.afterPoll with
            mem := { s.mem with rx := rx },
            xc := (s.xc.withLastByte b).firstAttempt 10#8 (liveLength (s.mem.byte .tx 0)) false,
            fe := { s.fe with catt := s.fe.catt + 1#8 },
            res := { s.res with status := 0#8, result := BitVec.ofNat 8 (4 + 2 * m) },
            cnt := { s.cnt with crcFail := s.cnt.crcFail + 1 } } ∧
      Cleared s.params (s.receivedWith b) rx) ∧
    (s.fe.catt = 10#8 →
      step s =
        .next
          (State.endedWith
            { s.turned.afterPoll with
              mem := { s.mem with rx := s.receivedWith b },
              xc := s.xc.withLastByte b,
              res := { s.res with result := BitVec.ofNat 8 (4 + 2 * m) },
              cnt := { s.cnt with crcFail := s.cnt.crcFail + 1 } }
            2#8))

/-! ### Register access: the request -/

/-- R193, R195, R191: REG.GET and REG.GET1 put a READ request into TX, clear RX and begin the first attempt;
they change nothing else. Under ZERO_PAYLOAD the n slots of TX are 0 and the CRC covers them; under HEADER_ONLY
the CRC covers bytes 0, 2 and 3, and that no slot changes is deduced (log 27). That issue and first link call
are one step, where the operands are latched, and that the host goes on reading what stood before, is deduced
(logs 9, 11, 24). -/
def Obligations.GetSendsAReadRequest : Prop :=
  ∀ (s : State) (i : Instr) (n : Byte), s.Able →
    (i = .regGet ∧ n = s.regs.n ∧ s.regs.n.toNat ≤ 32) ∨ (i = .regGet1 ∧ n = 1#8) → ∃ m : Memory,
      exec i s = .next (s.regIssued i .get n 4#8 m) ∧
      Cleared s.params s.mem.rx m.rx ∧
      (s.params.readCrcMode = .zeroPayload →
        Packet s.params s.mem.tx m.tx n s.regs.page s.regs.offset n.toNat n.toNat (fun _ => 0#16)) ∧
      (s.params.readCrcMode = .headerOnly →
        Packet s.params s.mem.tx m.tx n s.regs.page s.regs.offset 0 0 (fun _ => 0#16))

/-- R196, R197, R191: REG.SET and REG.SET1 put a WRITE request with the values into TX, clear RX and begin the
first attempt; they change nothing else. That issue and first link call are one step, where the operands are
latched, and that the host goes on reading what stood before, is deduced (logs 9, 11, 24). -/
def Obligations.SetSendsAWriteRequest : Prop :=
  ∀ (s : State) (i : Instr) (n : Byte), s.Able →
    (i = .regSet ∧ n = s.regs.n ∧ s.regs.n.toNat ≤ 32) ∨ (i = .regSet1 ∧ n = 1#8) → ∃ m : Memory,
      exec i s = .next (s.regIssued i .set n (4#8 + 2#8 * n) m) ∧
      Cleared s.params s.mem.rx m.rx ∧
      Packet s.params s.mem.tx m.tx (n ||| 0x40#8) s.regs.page s.regs.offset n.toNat n.toNat
        (fun k => s.regs.val[k]!)

/-- R198, R195: REG.MODIFY starts with the READ request of REG.GET1, its operands clear_bits and set_bits taken.
Under HEADER_ONLY that no slot of TX changes is deduced (log 27). That issue and first link call are one step,
where the operands are latched, and that the host goes on reading what stood before, is deduced (logs 9, 11,
24). -/
def Obligations.ModifyStartsWithARead : Prop :=
  ∀ s : State, s.Able → ∃ m : Memory,
    exec .regModify s = .next (s.regIssued .regModify .modRead 1#8 4#8 m) ∧
    Cleared s.params s.mem.rx m.rx ∧
    (s.params.readCrcMode = .zeroPayload →
      Packet s.params s.mem.tx m.tx 1#8 s.regs.page s.regs.offset 1 1 (fun _ => 0#16)) ∧
    (s.params.readCrcMode = .headerOnly →
      Packet s.params s.mem.tx m.tx 1#8 s.regs.page s.regs.offset 0 0 (fun _ => 0#16))

/-- R193 and R108, as R194 derives from them: under ZERO_PAYLOAD the READ request of REG.GET is exactly the
packet that PKT.BUILD makes in TX from mode READ and n zero values. -/
def Obligations.ReadRequestIsABuiltPacket : Prop :=
  ∀ s : State, s.Able → s.regs.n.toNat ≤ 32 → s.params.readCrcMode = .zeroPayload →
    s.regs.mode = 0x00#8 → (∀ k (h : k < 32), k < s.regs.n.toNat → s.regs.val[k] = 0#16) →
    ∃ t u, exec .regGet s = .next t ∧ exec (.pktBuild .tx) s = .next u ∧ t.mem.tx = u.mem.tx

/-! ### Whole commands -/

/-- R143 to R152, R58: a raw exchange over a link that takes every byte and delivers an accepted reply without a
gap sends the live bytes of TX in address order, receives the reply into RX, and ends with OK and the number of
bytes received. The link's answers are lists in State and the host waits by the model's choice (logs 5, 7); that
issue and first link call are one step is deduced (log 9). -/
def Obligations.ExchangeDeliversTheReply : Prop :=
  ∀ (s : State) (reply : List Byte) (m : Nat) (rp : List PollAnswer) (rw rf : List SendAnswer),
    s.Able → s.Waits → s.regs.retries ≠ 0#8 → s.fe.state = .idle → Image.count s.mem.tx ≤ 32 →
    Reply reply m → s.link.Delivers reply rp →
    s.link.Accepts s.params (liveLength (s.mem.byte .tx 0)).toNat rw rf →
    ∃ t u, exec .xcvrExchange s = .next t ∧
      t.after (exchangeSteps s.params (liveLength (s.mem.byte .tx 0)).toNat m) = some u ∧
      u.busy = false ∧ u.fault = none ∧ u.res.status = 0#8 ∧ u.res.result = BitVec.ofNat 8 (4 + 2 * m) ∧
      u.res.out = s.res.out ∧ u.res.flag = s.res.flag ∧ u.res.errinfo = s.res.errinfo ∧ u.cnt = s.cnt ∧
      u.xc.xst = .idle ∧ u.fe = s.fe ∧ u.regs = (s.withCmd .xcvrExchange).regs ∧ u.ready = true ∧
      u.mem.tx = s.mem.tx ∧ (∀ a, Image.get u.mem.rx a = afterReply reply s.mem.rx a) ∧
      u.link.poll = rp ∧ u.link.write = rw ∧ u.link.flush = rf ∧
      u.link.sent =
        s.link.sent ++
          (List.range (liveLength (s.mem.byte .tx 0)).toNat).map (fun a => s.mem.byte .tx a)

/-- R193, R195, R191, R192: REG.GET and REG.GET1 over such a link and a reply that the classification layer
accepts send the READ request and end with OK and the number of bytes received; OUT holds the reply's values and
is unchanged from n on. For the slots past the reply's count it holds SENTINEL, which the spec derives (R200;
log 26). Under HEADER_ONLY that no slot of TX changes is deduced (log 27). The link's answers are lists in State
and the host waits by the model's choice (logs 5, 7); that issue and first link call are one step is deduced
(log 9), and so is where the operands are latched (log 11). -/
def Obligations.GetDeliversTheValues : Prop :=
  ∀ (s : State) (i : Instr) (n : Byte) (reply : List Byte) (m : Nat) (rp : List PollAnswer)
    (rw rf : List SendAnswer),
    s.Able → s.Waits →
    (i = .regGet ∧ n = s.regs.n ∧ s.regs.n.toNat ≤ 32) ∨ (i = .regGet1 ∧ n = 1#8) →
    GoodReply s.params reply m → s.link.Delivers reply rp → s.link.Accepts s.params 4 rw rf →
    ∃ t u, exec i s = .next t ∧ t.after (exchangeSteps s.params 4 m) = some u ∧
      u.busy = false ∧ u.fault = none ∧ u.res.status = 0#8 ∧ u.fe.state = .idle ∧ u.fe.catt = 0#8 ∧
      u.res.result = BitVec.ofNat 8 (4 + 2 * m) ∧ u.xc.xst = .idle ∧ u.cnt = s.cnt ∧
      u.res.flag = s.res.flag ∧ u.res.errinfo = s.res.errinfo ∧
      (∀ k (h : k < 32),
        u.res.out[k] =
          if k < n.toNat then (if k < m then replySlot s.params reply k else 0x55AA#16)
          else s.res.out[k]) ∧
      ReadPacket s.params s.mem.tx u.mem.tx n s.regs.page s.regs.offset ∧
      u.link.sent = s.link.sent ++ (List.range 4).map (fun a => u.mem.byte .tx a)

/-- R196, R197, R191, R192: REG.SET and REG.SET1 over such a link and an acknowledgement that the classification
layer accepts, with or without a body, end with OK and the number of bytes received; the whole WRITE request has
been sent once and OUT is unchanged. The link's answers are lists in State and the host waits by the model's
choice (logs 5, 7); that issue and first link call are one step is deduced (log 9), and so is where the operands
are latched (log 11). -/
def Obligations.SetIsAcknowledged : Prop :=
  ∀ (s : State) (i : Instr) (n : Byte) (reply : List Byte) (m : Nat) (rp : List PollAnswer)
    (rw rf : List SendAnswer),
    s.Able → s.Waits →
    (i = .regSet ∧ n = s.regs.n ∧ s.regs.n.toNat ≤ 32) ∨ (i = .regSet1 ∧ n = 1#8) →
    GoodReply s.params reply m → s.link.Delivers reply rp →
    s.link.Accepts s.params (4 + 2 * n.toNat) rw rf →
    ∃ t u, exec i s = .next t ∧ t.after (exchangeSteps s.params (4 + 2 * n.toNat) m) = some u ∧
      u.busy = false ∧ u.fault = none ∧ u.res.status = 0#8 ∧ u.fe.state = .idle ∧ u.fe.catt = 0#8 ∧
      u.res.result = BitVec.ofNat 8 (4 + 2 * m) ∧ u.xc.xst = .idle ∧ u.cnt = s.cnt ∧
      u.res.out = s.res.out ∧ u.res.flag = s.res.flag ∧ u.res.errinfo = s.res.errinfo ∧
      Packet s.params s.mem.tx u.mem.tx (n ||| 0x40#8) s.regs.page s.regs.offset n.toNat n.toNat
        (fun k => s.regs.val[k]!) ∧
      u.link.sent = s.link.sent ++ (List.range (4 + 2 * n.toNat)).map (fun a => u.mem.byte .tx a)

/-- R198: REG.MODIFY over a link that delivers an accepted reply to the read and then an accepted
acknowledgement to the write sends both requests and ends with OK and the number of bytes of the
acknowledgement. The value read is in OUT[0], and is SENTINEL for a reply with no value, which the spec derives
(R200; log 26); the value written is that one with clear_bits cleared and then set_bits set, to the same page
and offset. Under HEADER_ONLY that the read changes no slot of TX is deduced (log 27). The link's answers are
lists in State and the host waits by the model's choice (logs 5, 7); that issue and first link call are one step
is deduced (log 9), and so is where the operands are latched (log 11). -/
def Obligations.ModifyWritesBackTheModifiedValue : Prop :=
  ∀ (s : State) (reply ack : List Byte) (m m' : Nat) (rp : List PollAnswer) (rw rf : List SendAnswer),
    s.Able → s.Waits → GoodReply s.params reply m → GoodReply s.params ack m' →
    s.link.poll = .noData :: (reply.map .data ++ (.noData :: (ack.map .data ++ rp))) →
    s.link.write = List.replicate 10 .ok ++ rw →
    s.link.flush = (if s.params.flushAfterWrite then [.ok, .ok] else []) ++ rf →
    ∃ t u v request, exec .regModify s = .next t ∧
      t.after (exchangeSteps s.params 4 m + 1 + exchangeSteps s.params 6 m') = some u ∧
      v = (if 0 < m then replySlot s.params reply 0 else 0x55AA#16) ∧
      u.busy = false ∧ u.fault = none ∧ u.res.status = 0#8 ∧ u.fe.state = .idle ∧ u.fe.catt = 0#8 ∧
      u.res.result = BitVec.ofNat 8 (4 + 2 * m') ∧ u.xc.xst = .idle ∧ u.cnt = s.cnt ∧
      u.res.flag = s.res.flag ∧ u.res.errinfo = s.res.errinfo ∧
      ReadPacket s.params s.mem.tx request 1#8 s.regs.page s.regs.offset ∧
      (∀ k (h : k < 32), u.res.out[k] = if k = 0 then v else s.res.out[k]) ∧
      Image.get u.mem.tx 0 = 0x41#8 ∧ Image.get u.mem.tx 2 = s.regs.page ∧
      Image.get u.mem.tx 3 = s.regs.offset ∧
      Image.reg s.params.regByteOrder u.mem.tx 0 = (v &&& ~~~s.regs.clearBits) ||| s.regs.setBits ∧
      Image.get u.mem.tx 1 = crc8 s.params.crcTable u.mem.tx 1 ∧
      u.link.sent =
        s.link.sent ++ (List.range 4).map (fun a => Image.get request a) ++
          (List.range 6).map (fun a => u.mem.byte .tx a)

/-- R153, R155 and R191, in the count R270 derives from them: with the link taking every byte and answering
NoData to every poll, REG.GET makes exactly DRIVER_RETRIES = 10 attempts, each of 1 + 4 + 1 + (T + 1) link calls
(one fewer without a flush), the first of them in the step of its issue (log 9), and ends UNRESPONSIVE; OUT is
unchanged. The link's answers are lists in State and the host waits by the model's choice (logs 5, 7). -/
def Obligations.SilentLinkEndsGetUnresponsive : Prop :=
  ∀ (s : State) (rp : List PollAnswer) (rw rf : List SendAnswer),
    s.Able → s.Waits → s.regs.n.toNat ≤ 32 → s.params.stallTolerance ≤ 254 →
    s.link.poll = List.replicate (10 * (s.params.stallTolerance + 2)) .noData ++ rp →
    s.link.write = List.replicate 40 .ok ++ rw →
    s.link.flush = List.replicate (if s.params.flushAfterWrite then 10 else 0) .ok ++ rf →
    ∃ t u, exec .regGet s = .next t ∧
      t.after
          (10 * (1 + 4 + (if s.params.flushAfterWrite then 1 else 0) + (s.params.stallTolerance + 1)) - 1) =
        some u ∧
      u.busy = false ∧ u.fault = none ∧ u.res.status = 4#8 ∧ u.res.out = s.res.out ∧
      u.res.result = s.res.result ∧ u.fe.state = .idle ∧ u.xc.xst = .idle ∧
      u.cnt.stall = s.cnt.stall + 10 ∧ u.cnt.retry = s.cnt.retry + 9 ∧ u.cnt.crcFail = s.cnt.crcFail ∧
      u.link.poll = rp ∧ u.link.write = rw ∧ u.link.flush = rf

/-! ### Invariants over every step -/

/-- The state after reset meets the invariant. -/
def Obligations.ResetMeetsTheInvariant : Prop := State.reset.Inv

/-- Every step keeps the invariant: packet memory stays canonical, TX never holds an illegal count (R74), STATUS
only holds codes that some rule writes (R230, R233, R235), the transceiver's registers stay in their ranges (R24
to R29), and between commands XST, FE and CATT are at rest (R30, R238). -/
def Obligations.EveryStepKeepsTheInvariant : Prop :=
  ∀ s t : State, s.Inv → step s = .next t → t.Inv

/-- From a state that meets the invariant a sound block always moves: the model's own stop, an access outside a
packet image (log 19), is not reached. -/
def Obligations.SoundBlockAlwaysMoves : Prop :=
  ∀ s : State, s.Inv → s.fault = none → ∃ t, step s = .next t

/-- Packet memory keeps its canonical form at every step, whatever the rest of the state holds. The form
(addresses rising and below 68, no 0 listed) is the model's own representation of the buffers (log 18); that no
byte past the 68th comes to exist is R50 and R57. -/
def Obligations.EveryStepKeepsMemoryCanonical : Prop :=
  ∀ s t : State, s.mem.wf = true → step s = .next t → t.mem.wf = true

/-- R41: no step changes the parameters. That they stand in State is the model's choice (log 1). -/
def Obligations.NoStepChangesTheParameters : Prop :=
  ∀ s t : State, step s = .next t → t.params = s.params

/-- R140, R269: a step of a running command, its issue and first link call taken as one (log 9), makes exactly
one link call, and no turn makes more than one. -/
def Obligations.AStepMakesOneLinkCall : Prop :=
  ∀ s t : State, step s = .next t →
    (s.Runs → ∃ c, t.link.calls = c :: s.link.calls) ∧
    (t.link.calls = s.link.calls ∨ ∃ c, t.link.calls = c :: s.link.calls)

/-- R31, R263: what stands in the host's registers, CMD, ARG and VAL, has no effect on a running command, and a
step of one writes none of them. That the operands taken at issue have fields of their own is deduced (log 11). -/
def Obligations.OperandRegistersDoNotReachARunningCommand : Prop :=
  ∀ (s : State) (g : HostRegs),
    linkStep { s with regs := g } = mapNext (fun t => { t with regs := g }) (linkStep s) ∧
    ∀ t, linkStep s = .next t → t.regs = s.regs

/-- R37, R60: the host can read at any time, and no effect of a command is visible before BUSY returns to 0: a
step after which a command runs leaves every result and counter reading as it did. With BUSY = 0 the registers
themselves are read. That the reads give the values at issue is deduced (log 24). -/
def Obligations.RunningCommandShowsNoEffect : Prop :=
  (∀ s : State, s.view.busy = s.busy ∧ s.view.ready = s.ready ∧
    (s.busy = false → s.view.results = { res := s.res, cnt := s.cnt })) ∧
  ∀ s t : State, step s = .next t → t.busy = true → t.view.results = s.view.results

/-- R143 to R154, as R156 derives from them: an exchange never writes TX. -/
def Obligations.AnExchangeNeverWritesTx : Prop :=
  ∀ s t : State, s.Runs → s.fe.state = .idle → step s = .next t → t.mem.tx = s.mem.tx

/-- R144 to R155, as R157, R270 and R271 derive from them: a running command that is never held ends while the
host does nothing or waits (log 7): within callsLeft link calls BUSY is 0, for every STALL_TOLERANCE for which
WB cannot wrap (R25). The premise, that no answer met on the way is one of the two unbounded waits, is the
link-progress premise of R271 in its plainest form. -/
def Obligations.UnheldCommandEnds : Prop :=
  ∀ s : State, s.Inv → s.busy = true → s.Waits → s.params.stallTolerance ≤ 254 →
    (∀ k t, s.after k = some t → t.busy = true → ¬ t.Held) →
    ∃ k t, k ≤ s.callsLeft ∧ s.after k = some t ∧ t.busy = false

/-- R144 to R155 and R191, as R270 derives from them: a REG command issued to a block whose host then does
nothing or waits (log 7), and never held after its first link call, has ended after that call (log 9) and at
most 100 attempts for REG.GET, REG.GET1, REG.SET and REG.SET1, or 200 for REG.MODIFY, of at most 1 + 68 + 1 + 68
(T + 1) link calls each; every one of those steps is one link call. -/
def Obligations.CallsOfARegCommandAreBounded : Prop :=
  ∀ (s t : State) (i : Instr), s.Inv → s.Able → s.Waits → s.params.stallTolerance ≤ 254 →
    i ∈ [Instr.regGet, .regGet1, .regSet, .regSet1, .regModify] →
    exec i s = .next t →
    (∀ k u, t.after k = some u → u.busy = true → ¬ u.Held) →
    ∃ k u,
      k ≤ (if i = .regModify then 200 else 100) * (1 + 68 + 1 + 68 * (s.params.stallTolerance + 1)) ∧
      t.after k = some u ∧ u.busy = false ∧ u.link.calls.length = t.link.calls.length + k
end

