-- ==== Sys2Proof/Laws/Memory.lean ====
section
/-! SUPPORT. Packet memory: what each operation makes every byte read, that each keeps the canonical form, and
that two images in canonical form which read alike are equal. -/

namespace Sys2Proof.Machine

/-! ### One byte -/

@[simp] theorem Image.get_nil (a : Nat) : Image.get [] a = 0#8 := rfl

theorem Image.get_cons (k : Nat) (v : Byte) (rest : Image) (a : Nat) :
    Image.get ((k, v) :: rest) a = if a = k then v else Image.get rest a := rfl

theorem Image.get_without (img : Image) (a b : Nat) :
    Image.get (Image.without img a) b = if b = a then 0#8 else Image.get img b := by
  induction img with
  | nil => simp [Image.without]
  | cons c rest ih =>
    obtain ⟨k, v⟩ := c
    by_cases hk : k = a
    · simp only [Image.without, hk, if_true, ih, Image.get_cons]
      by_cases hb : b = a <;> simp [hb]
    · simp only [Image.without, hk, if_false, Image.get_cons, ih]
      by_cases hb : b = k
      · subst hb; simp [hk]
      · simp [hb]

theorem Image.get_insert (img : Image) (a : Nat) (v : Byte) (b : Nat) (h : Image.get img a = 0#8)
    (hk : ∀ c ∈ img, c.1 ≠ a) :
    Image.get (Image.insert img a v) b = if b = a then v else Image.get img b := by
  induction img with
  | nil => simp [Image.insert, Image.get_cons]
  | cons c rest ih =>
    obtain ⟨k, w⟩ := c
    have hka : k ≠ a := hk (k, w) (List.mem_cons_self ..)
    by_cases hlt : a < k
    · simp [Image.insert, hlt, Image.get_cons]
    · have hrest := ih (by simpa [Image.get_cons, Ne.symm hka] using h)
        (fun c hc => hk c (List.mem_cons_of_mem _ hc))
      simp only [Image.insert, hlt, if_false, Image.get_cons, hrest]
      by_cases hb : b = k
      · subst hb; simp [hka]
      · simp [hb]

theorem Image.mem_without {img : Image} {a : Nat} {c : Host.Cell} (h : c ∈ Image.without img a) :
    c.1 ≠ a ∧ c ∈ img := by
  induction img with
  | nil => simp [Image.without] at h
  | cons d rest ih =>
    obtain ⟨k, v⟩ := d
    by_cases hk : k = a
    · simp only [Image.without, hk, if_true] at h
      exact ⟨(ih h).1, List.mem_cons_of_mem _ (ih h).2⟩
    · simp only [Image.without, hk, if_false, List.mem_cons] at h
      rcases h with rfl | h
      · exact ⟨hk, List.mem_cons_self ..⟩
      · exact ⟨(ih h).1, List.mem_cons_of_mem _ (ih h).2⟩

/-- Read after a store: the stored byte at its address, every other byte as before. -/
theorem Image.get_put (img : Image) (a : Nat) (v : Byte) (b : Nat) :
    Image.get (Image.put img a v) b = if b = a then v else Image.get img b := by
  by_cases hv : v = 0#8
  · simp [Image.put, hv, Image.get_without]
  · have hz : Image.get (Image.without img a) a = 0#8 := by simp [Image.get_without]
    simp only [Image.put, hv, if_false,
      Image.get_insert _ a v b hz (fun c hc => (Image.mem_without hc).1), Image.get_without]
    by_cases hb : b = a <;> simp [hb]

/-- Read after a write of one byte (R52). -/
@[simp] theorem Image.get_set (img : Image) (a : Nat) (v : Byte) (b : Nat) :
    Image.get (Image.set img a v) b = if b = a ∧ a < pktLen then v else Image.get img b := by
  by_cases ha : a < pktLen <;> simp [Image.set, ha, Image.get_put]

/-! ### Wider writes and loops -/

theorem Image.get_fill (img : Image) (v : Byte) (n b : Nat) :
    Image.get (Image.fill img v n) b = if b < n ∧ b < pktLen then v else Image.get img b := by
  induction n with
  | zero => simp [Image.fill]
  | succ n ih =>
    simp only [Image.fill, Image.get_set, ih]
    split_ifs <;> first | rfl | omega

theorem Image.get_write16 (order : ByteOrder) (img : Image) (a : Nat) (v : RegValue) (b : Nat)
    (h : a + 2 ≤ pktLen) :
    Image.get (Image.write16 order img a v) b =
      if b = a then firstByte order v
      else if b = a + 1 then secondByte order v
      else Image.get img b := by
  simp only [Image.write16, Image.get_set]
  split_ifs <;> first | rfl | omega

/-- A register value is its high byte beside its low byte. -/
theorem RegValue.halves (v : RegValue) : v.extractLsb' 8 8 ++ v.extractLsb' 0 8 = v := by
  apply BitVec.eq_of_getLsbD_eq
  intro i hi
  simp only [BitVec.getLsbD_append, BitVec.getLsbD_extractLsb']
  split
  · simp_all
  · have h8 : 8 + (i - 8) = i := by omega
    simp [show i - 8 < 8 by omega, h8]

/-- A 16-bit value written is the value read back (R51, R52). -/
@[simp] theorem Image.read16_write16 (order : ByteOrder) (img : Image) (a : Nat) (v : RegValue)
    (h : a + 2 ≤ pktLen) : Image.read16 order (Image.write16 order img a v) a = v := by
  cases order <;>
    simp [Image.read16, Image.get_write16 _ _ _ _ _ h, firstByte, secondByte, RegValue.halves]

theorem Image.get_setRegs (order : ByteOrder) (img : Image) (f : Nat → RegValue) (n b : Nat)
    (hn : n ≤ capacity) :
    Image.get (Image.setRegs order img f n) b =
      if hdrLen ≤ b ∧ b < hdrLen + 2 * n then
        (if b % 2 = 0 then firstByte order (f ((b - hdrLen) / 2))
         else secondByte order (f ((b - hdrLen) / 2)))
      else Image.get img b := by
  induction n with
  | zero =>
    rw [if_neg (by omega)]; rfl
  | succ n ih =>
    have hcap : hdrLen + 2 * n + 2 ≤ pktLen := by simp only [hdrLen, pktLen, capacity] at *; omega
    simp only [Image.setRegs, Image.setReg, Image.get_write16 _ _ _ _ _ hcap, ih (by omega)]
    simp only [hdrLen]
    by_cases h0 : b = 4 + 2 * n
    · subst h0
      rw [if_pos rfl, if_pos (by omega), if_pos (by omega)]
      congr 2; omega
    · rw [if_neg h0]
      by_cases h1 : b = 4 + 2 * n + 1
      · subst h1
        rw [if_pos rfl, if_pos (by omega), if_neg (by omega)]
        congr 2; omega
      · rw [if_neg h1]
        split_ifs <;> first | rfl | omega

/-! ### The canonical form -/

theorem Image.wfFrom_mono {lo lo' : Nat} {img : Image} (h : Image.wfFrom lo img = true) (hl : lo' ≤ lo) :
    Image.wfFrom lo' img = true := by
  cases img with
  | nil => rfl
  | cons c rest =>
    obtain ⟨k, v⟩ := c
    simp only [Image.wfFrom, Bool.and_eq_true, decide_eq_true_eq] at h ⊢
    exact ⟨⟨⟨hl.trans h.1.1.1, h.1.1.2⟩, h.1.2⟩, h.2⟩

theorem Image.wfFrom_without (a : Nat) {lo : Nat} {img : Image} (h : Image.wfFrom lo img = true) :
    Image.wfFrom lo (Image.without img a) = true := by
  induction img generalizing lo with
  | nil => rfl
  | cons c rest ih =>
    obtain ⟨k, v⟩ := c
    simp only [Image.wfFrom, Bool.and_eq_true, decide_eq_true_eq] at h
    by_cases hk : k = a
    · simp only [Image.without, hk, if_true]
      exact ih (Image.wfFrom_mono h.2 (by omega))
    · simp only [Image.without, hk, if_false, Image.wfFrom, Bool.and_eq_true, decide_eq_true_eq]
      exact ⟨h.1, ih h.2⟩

theorem Image.wfFrom_insert {a : Nat} {v : Byte} {lo : Nat} {img : Image} (ha : a < pktLen) (hv : v ≠ 0#8)
    (h : Image.wfFrom lo img = true) (hlo : lo ≤ a) (hk : ∀ c ∈ img, c.1 ≠ a) :
    Image.wfFrom lo (Image.insert img a v) = true := by
  induction img generalizing lo with
  | nil => simp [Image.insert, Image.wfFrom, ha, hv, hlo]
  | cons c rest ih =>
    obtain ⟨k, w⟩ := c
    have hka : k ≠ a := hk (k, w) (List.mem_cons_self ..)
    simp only [Image.wfFrom, Bool.and_eq_true, decide_eq_true_eq] at h
    by_cases hlt : a < k
    · simp only [Image.insert, hlt, if_true, Image.wfFrom, Bool.and_eq_true, decide_eq_true_eq]
      exact ⟨⟨⟨hlo, ha⟩, hv⟩, ⟨⟨hlt, h.1.1.2⟩, h.1.2⟩, h.2⟩
    · simp only [Image.insert, hlt, if_false, Image.wfFrom, Bool.and_eq_true, decide_eq_true_eq]
      exact ⟨h.1, ih h.2 (by omega) (fun c hc => hk c (List.mem_cons_of_mem _ hc))⟩

/-- A store keeps the canonical form. -/
theorem Image.wf_set (a : Nat) (v : Byte) {img : Image} (h : Image.wf img = true) :
    Image.wf (Image.set img a v) = true := by
  by_cases ha : a < pktLen
  · by_cases hv : v = 0#8
    · simp only [Image.set, ha, if_true, Image.put, hv]
      exact Image.wfFrom_without a h
    · simp only [Image.set, ha, if_true, Image.put, hv, if_false]
      exact Image.wfFrom_insert ha hv (Image.wfFrom_without a h) (Nat.zero_le a)
        (fun c hc => (Image.mem_without hc).1)
  · simpa [Image.set, ha] using h

theorem Image.wf_fill (v : Byte) (n : Nat) {img : Image} (h : Image.wf img = true) :
    Image.wf (Image.fill img v n) = true := by
  induction n with
  | zero => exact h
  | succ n ih => exact Image.wf_set n v ih

theorem Image.wf_setRegs (order : ByteOrder) (f : Nat → RegValue) (n : Nat) {img : Image}
    (h : Image.wf img = true) : Image.wf (Image.setRegs order img f n) = true := by
  induction n with
  | zero => exact h
  | succ n ih => exact Image.wf_set _ _ (Image.wf_set _ _ ih)

theorem Image.wf_default {img : Image} (h : Image.wf img = true) : Image.wf (defaultImage img) = true :=
  Image.wf_fill _ _ h

theorem Image.wf_clear (order : ByteOrder) {img : Image} (h : Image.wf img = true) :
    Image.wf (clearImage order img) = true :=
  Image.wf_setRegs _ _ _ (Image.wf_fill _ _ h)

theorem Image.wf_lay (order : ByteOrder) (cc page offset : Byte) (n : Nat) (f : Nat → RegValue)
    {img : Image} (h : Image.wf img = true) : Image.wf (layImage order img cc page offset n f) = true :=
  Image.wf_setRegs _ _ _ (Image.wf_set _ _ (Image.wf_set _ _ (Image.wf_set _ _ h)))

theorem Image.wf_stamp (t : CrcTable) (n : Nat) {img : Image} (h : Image.wf img = true) :
    Image.wf (stampCrc t img n) = true := Image.wf_set _ _ h

theorem Image.wf_build (p : Params) (mode page offset n : Byte) (f : Nat → RegValue) {img : Image}
    (h : Image.wf img = true) : Image.wf (buildImage p img mode page offset n f) = true :=
  Image.wf_stamp _ _ (Image.wf_lay _ _ _ _ _ _ h)

/-- Replacing one buffer by an image in canonical form keeps the memory's canonical form. -/
theorem Memory.wf_setImage {m : Memory} (b : Buf) {img : Image} (h : m.wf = true) (hi : Image.wf img = true) :
    (m.setImage b img).wf = true := by
  simp only [Memory.wf, Bool.and_eq_true] at *
  cases b
  · exact ⟨hi, h.2⟩
  · exact ⟨h.1, hi⟩

theorem Memory.wf_image {m : Memory} (b : Buf) (h : m.wf = true) : Image.wf (m.image b) = true := by
  simp only [Memory.wf, Bool.and_eq_true] at h
  cases b
  · exact h.1
  · exact h.2

/-- The memory after reset has its canonical form. -/
theorem Memory.wf_reset : State.reset.mem.wf = true := rfl

theorem Image.get_eq_zero_of_lt {lo : Nat} {img : Image} (h : Image.wfFrom lo img = true) {a : Nat}
    (ha : a < lo) : Image.get img a = 0#8 := by
  induction img generalizing lo with
  | nil => rfl
  | cons c rest ih =>
    obtain ⟨k, v⟩ := c
    simp only [Image.wfFrom, Bool.and_eq_true, decide_eq_true_eq] at h
    rw [Image.get_cons, if_neg (by omega)]
    exact ih h.2 (by omega)

theorem Image.ext_from {lo : Nat} {x y : Image} (hx : Image.wfFrom lo x = true)
    (hy : Image.wfFrom lo y = true) (h : ∀ a, Image.get x a = Image.get y a) : x = y := by
  induction x generalizing lo y with
  | nil =>
    cases y with
    | nil => rfl
    | cons c rest =>
      obtain ⟨k, v⟩ := c
      simp only [Image.wfFrom, Bool.and_eq_true, decide_eq_true_eq] at hy
      exact absurd (by simpa [Image.get_cons] using (h k).symm) hy.1.2
  | cons c rest ih =>
    obtain ⟨k, v⟩ := c
    simp only [Image.wfFrom, Bool.and_eq_true, decide_eq_true_eq] at hx
    cases y with
    | nil => exact absurd (by simpa [Image.get_cons] using h k) hx.1.2
    | cons c' rest' =>
      obtain ⟨k', v'⟩ := c'
      simp only [Image.wfFrom, Bool.and_eq_true, decide_eq_true_eq] at hy
      have hkk : k = k' := by
        rcases lt_trichotomy k k' with hlt | heq | hgt
        · have := h k
          rw [Image.get_cons, if_pos rfl, Image.get_cons, if_neg (by omega),
            Image.get_eq_zero_of_lt hy.2 (by omega)] at this
          exact absurd this hx.1.2
        · exact heq
        · have := h k'
          rw [Image.get_cons, if_neg (by omega), Image.get_eq_zero_of_lt hx.2 (by omega),
            Image.get_cons, if_pos rfl] at this
          exact absurd this.symm hy.1.2
      subst hkk
      have hv : v = v' := by simpa [Image.get_cons] using h k
      subst hv
      rw [ih hx.2 hy.2]
      intro a
      by_cases ha : a = k
      · subst ha
        rw [Image.get_eq_zero_of_lt hx.2 (by omega), Image.get_eq_zero_of_lt hy.2 (by omega)]
      · simpa [Image.get_cons, ha] using h a

/-- Images in canonical form that read alike are equal. -/
theorem Image.ext_of_wf {x y : Image} (hx : Image.wf x = true) (hy : Image.wf y = true)
    (h : ∀ a, Image.get x a = Image.get y a) : x = y := Image.ext_from hx hy h

end Sys2Proof.Machine
end

