-- ==== Sys2Proof/Laws/State.lean ====
section
/-! SUPPORT. What each named update does to each field of the state: one lemma per field, true by rfl. -/

namespace Sys2Proof.Machine

variable (s : State)

/-! ### State.setImage -/

@[simp] theorem State.setImage_params (b : Buf) (img : Image) : (s.setImage b img).params = s.params := rfl
@[simp] theorem State.setImage_mem (b : Buf) (img : Image) : (s.setImage b img).mem = s.mem.setImage b img := rfl
@[simp] theorem State.setImage_xc (b : Buf) (img : Image) : (s.setImage b img).xc = s.xc := rfl
@[simp] theorem State.setImage_fe (b : Buf) (img : Image) : (s.setImage b img).fe = s.fe := rfl
@[simp] theorem State.setImage_regs (b : Buf) (img : Image) : (s.setImage b img).regs = s.regs := rfl
@[simp] theorem State.setImage_res (b : Buf) (img : Image) : (s.setImage b img).res = s.res := rfl
@[simp] theorem State.setImage_cnt (b : Buf) (img : Image) : (s.setImage b img).cnt = s.cnt := rfl
@[simp] theorem State.setImage_shown (b : Buf) (img : Image) : (s.setImage b img).shown = s.shown := rfl
@[simp] theorem State.setImage_fault (b : Buf) (img : Image) : (s.setImage b img).fault = s.fault := rfl
@[simp] theorem State.setImage_busy (b : Buf) (img : Image) : (s.setImage b img).busy = s.busy := rfl
@[simp] theorem State.setImage_ready (b : Buf) (img : Image) : (s.setImage b img).ready = s.ready := rfl
@[simp] theorem State.setImage_link (b : Buf) (img : Image) : (s.setImage b img).link = s.link := rfl
@[simp] theorem State.setImage_host (b : Buf) (img : Image) : (s.setImage b img).host = s.host := rfl

/-! ### State.afterSetup -/

@[simp] theorem State.afterSetup_params : s.afterSetup.params = s.params := rfl
@[simp] theorem State.afterSetup_mem : s.afterSetup.mem = s.mem := rfl
@[simp] theorem State.afterSetup_xc : s.afterSetup.xc = s.xc := rfl
@[simp] theorem State.afterSetup_fe : s.afterSetup.fe = s.fe := rfl
@[simp] theorem State.afterSetup_regs : s.afterSetup.regs = s.regs := rfl
@[simp] theorem State.afterSetup_res : s.afterSetup.res = s.res := rfl
@[simp] theorem State.afterSetup_cnt : s.afterSetup.cnt = s.cnt := rfl
@[simp] theorem State.afterSetup_shown : s.afterSetup.shown = s.shown := rfl
@[simp] theorem State.afterSetup_fault : s.afterSetup.fault = s.fault := rfl
@[simp] theorem State.afterSetup_busy : s.afterSetup.busy = s.busy := rfl
@[simp] theorem State.afterSetup_ready : s.afterSetup.ready = s.ready := rfl
@[simp] theorem State.afterSetup_link : s.afterSetup.link = s.link.afterSetup := rfl
@[simp] theorem State.afterSetup_host : s.afterSetup.host = s.host := rfl

/-! ### State.afterPoll -/

@[simp] theorem State.afterPoll_params : s.afterPoll.params = s.params := rfl
@[simp] theorem State.afterPoll_mem : s.afterPoll.mem = s.mem := rfl
@[simp] theorem State.afterPoll_xc : s.afterPoll.xc = s.xc := rfl
@[simp] theorem State.afterPoll_fe : s.afterPoll.fe = s.fe := rfl
@[simp] theorem State.afterPoll_regs : s.afterPoll.regs = s.regs := rfl
@[simp] theorem State.afterPoll_res : s.afterPoll.res = s.res := rfl
@[simp] theorem State.afterPoll_cnt : s.afterPoll.cnt = s.cnt := rfl
@[simp] theorem State.afterPoll_shown : s.afterPoll.shown = s.shown := rfl
@[simp] theorem State.afterPoll_fault : s.afterPoll.fault = s.fault := rfl
@[simp] theorem State.afterPoll_busy : s.afterPoll.busy = s.busy := rfl
@[simp] theorem State.afterPoll_ready : s.afterPoll.ready = s.ready := rfl
@[simp] theorem State.afterPoll_link : s.afterPoll.link = s.link.afterPoll := rfl
@[simp] theorem State.afterPoll_host : s.afterPoll.host = s.host := rfl

/-! ### State.afterWrite -/

@[simp] theorem State.afterWrite_params (b : Byte) : (s.afterWrite b).params = s.params := rfl
@[simp] theorem State.afterWrite_mem (b : Byte) : (s.afterWrite b).mem = s.mem := rfl
@[simp] theorem State.afterWrite_xc (b : Byte) : (s.afterWrite b).xc = s.xc := rfl
@[simp] theorem State.afterWrite_fe (b : Byte) : (s.afterWrite b).fe = s.fe := rfl
@[simp] theorem State.afterWrite_regs (b : Byte) : (s.afterWrite b).regs = s.regs := rfl
@[simp] theorem State.afterWrite_res (b : Byte) : (s.afterWrite b).res = s.res := rfl
@[simp] theorem State.afterWrite_cnt (b : Byte) : (s.afterWrite b).cnt = s.cnt := rfl
@[simp] theorem State.afterWrite_shown (b : Byte) : (s.afterWrite b).shown = s.shown := rfl
@[simp] theorem State.afterWrite_fault (b : Byte) : (s.afterWrite b).fault = s.fault := rfl
@[simp] theorem State.afterWrite_busy (b : Byte) : (s.afterWrite b).busy = s.busy := rfl
@[simp] theorem State.afterWrite_ready (b : Byte) : (s.afterWrite b).ready = s.ready := rfl
@[simp] theorem State.afterWrite_link (b : Byte) : (s.afterWrite b).link = s.link.afterWrite b := rfl
@[simp] theorem State.afterWrite_host (b : Byte) : (s.afterWrite b).host = s.host := rfl

/-! ### State.afterFlush -/

@[simp] theorem State.afterFlush_params : s.afterFlush.params = s.params := rfl
@[simp] theorem State.afterFlush_mem : s.afterFlush.mem = s.mem := rfl
@[simp] theorem State.afterFlush_xc : s.afterFlush.xc = s.xc := rfl
@[simp] theorem State.afterFlush_fe : s.afterFlush.fe = s.fe := rfl
@[simp] theorem State.afterFlush_regs : s.afterFlush.regs = s.regs := rfl
@[simp] theorem State.afterFlush_res : s.afterFlush.res = s.res := rfl
@[simp] theorem State.afterFlush_cnt : s.afterFlush.cnt = s.cnt := rfl
@[simp] theorem State.afterFlush_shown : s.afterFlush.shown = s.shown := rfl
@[simp] theorem State.afterFlush_fault : s.afterFlush.fault = s.fault := rfl
@[simp] theorem State.afterFlush_busy : s.afterFlush.busy = s.busy := rfl
@[simp] theorem State.afterFlush_ready : s.afterFlush.ready = s.ready := rfl
@[simp] theorem State.afterFlush_link : s.afterFlush.link = s.link.afterFlush := rfl
@[simp] theorem State.afterFlush_host : s.afterFlush.host = s.host := rfl

/-! ### raise -/

@[simp] theorem raise_params (r : FaultReason) : (raise r s).params = s.params := rfl
@[simp] theorem raise_mem (r : FaultReason) : (raise r s).mem = s.mem := rfl
@[simp] theorem raise_xc (r : FaultReason) : (raise r s).xc = s.xc := rfl
@[simp] theorem raise_fe (r : FaultReason) : (raise r s).fe = s.fe := rfl
@[simp] theorem raise_regs (r : FaultReason) : (raise r s).regs = s.regs := rfl
@[simp] theorem raise_res (r : FaultReason) : (raise r s).res = s.res := rfl
@[simp] theorem raise_cnt (r : FaultReason) : (raise r s).cnt = s.cnt := rfl
@[simp] theorem raise_shown (r : FaultReason) : (raise r s).shown = s.shown := rfl
@[simp] theorem raise_fault (r : FaultReason) : (raise r s).fault = some r := rfl
@[simp] theorem raise_busy (r : FaultReason) : (raise r s).busy = false := rfl
@[simp] theorem raise_ready (r : FaultReason) : (raise r s).ready = s.ready := rfl
@[simp] theorem raise_link (r : FaultReason) : (raise r s).link = s.link := rfl
@[simp] theorem raise_host (r : FaultReason) : (raise r s).host = s.host := rfl

/-! ### finish -/

@[simp] theorem finish_params (st : Byte) : (finish st s).params = s.params := rfl
@[simp] theorem finish_mem (st : Byte) : (finish st s).mem = s.mem := rfl
@[simp] theorem finish_xc (st : Byte) : (finish st s).xc = s.xc := rfl
@[simp] theorem finish_fe (st : Byte) : (finish st s).fe = s.fe := rfl
@[simp] theorem finish_regs (st : Byte) : (finish st s).regs = s.regs := rfl
@[simp] theorem finish_res_out (st : Byte) : (finish st s).res.out = s.res.out := rfl
@[simp] theorem finish_res_status (st : Byte) : (finish st s).res.status = st := rfl
@[simp] theorem finish_res_errinfo (st : Byte) : (finish st s).res.errinfo = s.res.errinfo := rfl
@[simp] theorem finish_res_result (st : Byte) : (finish st s).res.result = s.res.result := rfl
@[simp] theorem finish_res_flag (st : Byte) : (finish st s).res.flag = s.res.flag := rfl
@[simp] theorem finish_cnt (st : Byte) : (finish st s).cnt = s.cnt := rfl
@[simp] theorem finish_shown (st : Byte) : (finish st s).shown = s.shown := rfl
@[simp] theorem finish_fault (st : Byte) : (finish st s).fault = s.fault := rfl
@[simp] theorem finish_busy (st : Byte) : (finish st s).busy = false := rfl
@[simp] theorem finish_ready (st : Byte) : (finish st s).ready = s.ready := rfl
@[simp] theorem finish_link (st : Byte) : (finish st s).link = s.link := rfl
@[simp] theorem finish_host (st : Byte) : (finish st s).host = s.host := rfl

/-! ### setErrinfo -/

@[simp] theorem setErrinfo_params (e : LinkErr) : (setErrinfo e s).params = s.params := rfl
@[simp] theorem setErrinfo_mem (e : LinkErr) : (setErrinfo e s).mem = s.mem := rfl
@[simp] theorem setErrinfo_xc (e : LinkErr) : (setErrinfo e s).xc = s.xc := rfl
@[simp] theorem setErrinfo_fe (e : LinkErr) : (setErrinfo e s).fe = s.fe := rfl
@[simp] theorem setErrinfo_regs (e : LinkErr) : (setErrinfo e s).regs = s.regs := rfl
@[simp] theorem setErrinfo_res_out (e : LinkErr) : (setErrinfo e s).res.out = s.res.out := rfl
@[simp] theorem setErrinfo_res_status (e : LinkErr) : (setErrinfo e s).res.status = s.res.status := rfl
@[simp] theorem setErrinfo_res_errinfo (e : LinkErr) : (setErrinfo e s).res.errinfo = some e := rfl
@[simp] theorem setErrinfo_res_result (e : LinkErr) : (setErrinfo e s).res.result = s.res.result := rfl
@[simp] theorem setErrinfo_res_flag (e : LinkErr) : (setErrinfo e s).res.flag = s.res.flag := rfl
@[simp] theorem setErrinfo_cnt (e : LinkErr) : (setErrinfo e s).cnt = s.cnt := rfl
@[simp] theorem setErrinfo_shown (e : LinkErr) : (setErrinfo e s).shown = s.shown := rfl
@[simp] theorem setErrinfo_fault (e : LinkErr) : (setErrinfo e s).fault = s.fault := rfl
@[simp] theorem setErrinfo_busy (e : LinkErr) : (setErrinfo e s).busy = s.busy := rfl
@[simp] theorem setErrinfo_ready (e : LinkErr) : (setErrinfo e s).ready = s.ready := rfl
@[simp] theorem setErrinfo_link (e : LinkErr) : (setErrinfo e s).link = s.link := rfl
@[simp] theorem setErrinfo_host (e : LinkErr) : (setErrinfo e s).host = s.host := rfl

/-! ### setFlag -/

@[simp] theorem setFlag_params (v : Bool) : (setFlag v s).params = s.params := rfl
@[simp] theorem setFlag_mem (v : Bool) : (setFlag v s).mem = s.mem := rfl
@[simp] theorem setFlag_xc (v : Bool) : (setFlag v s).xc = s.xc := rfl
@[simp] theorem setFlag_fe (v : Bool) : (setFlag v s).fe = s.fe := rfl
@[simp] theorem setFlag_regs (v : Bool) : (setFlag v s).regs = s.regs := rfl
@[simp] theorem setFlag_res_out (v : Bool) : (setFlag v s).res.out = s.res.out := rfl
@[simp] theorem setFlag_res_status (v : Bool) : (setFlag v s).res.status = s.res.status := rfl
@[simp] theorem setFlag_res_errinfo (v : Bool) : (setFlag v s).res.errinfo = s.res.errinfo := rfl
@[simp] theorem setFlag_res_result (v : Bool) : (setFlag v s).res.result = s.res.result := rfl
@[simp] theorem setFlag_res_flag (v : Bool) : (setFlag v s).res.flag = v := rfl
@[simp] theorem setFlag_cnt (v : Bool) : (setFlag v s).cnt = s.cnt := rfl
@[simp] theorem setFlag_shown (v : Bool) : (setFlag v s).shown = s.shown := rfl
@[simp] theorem setFlag_fault (v : Bool) : (setFlag v s).fault = s.fault := rfl
@[simp] theorem setFlag_busy (v : Bool) : (setFlag v s).busy = s.busy := rfl
@[simp] theorem setFlag_ready (v : Bool) : (setFlag v s).ready = s.ready := rfl
@[simp] theorem setFlag_link (v : Bool) : (setFlag v s).link = s.link := rfl
@[simp] theorem setFlag_host (v : Bool) : (setFlag v s).host = s.host := rfl

/-! ### setResult -/

@[simp] theorem setResult_params (v : Byte) : (setResult v s).params = s.params := rfl
@[simp] theorem setResult_mem (v : Byte) : (setResult v s).mem = s.mem := rfl
@[simp] theorem setResult_xc (v : Byte) : (setResult v s).xc = s.xc := rfl
@[simp] theorem setResult_fe (v : Byte) : (setResult v s).fe = s.fe := rfl
@[simp] theorem setResult_regs (v : Byte) : (setResult v s).regs = s.regs := rfl
@[simp] theorem setResult_res_out (v : Byte) : (setResult v s).res.out = s.res.out := rfl
@[simp] theorem setResult_res_status (v : Byte) : (setResult v s).res.status = s.res.status := rfl
@[simp] theorem setResult_res_errinfo (v : Byte) : (setResult v s).res.errinfo = s.res.errinfo := rfl
@[simp] theorem setResult_res_result (v : Byte) : (setResult v s).res.result = v := rfl
@[simp] theorem setResult_res_flag (v : Byte) : (setResult v s).res.flag = s.res.flag := rfl
@[simp] theorem setResult_cnt (v : Byte) : (setResult v s).cnt = s.cnt := rfl
@[simp] theorem setResult_shown (v : Byte) : (setResult v s).shown = s.shown := rfl
@[simp] theorem setResult_fault (v : Byte) : (setResult v s).fault = s.fault := rfl
@[simp] theorem setResult_busy (v : Byte) : (setResult v s).busy = s.busy := rfl
@[simp] theorem setResult_ready (v : Byte) : (setResult v s).ready = s.ready := rfl
@[simp] theorem setResult_link (v : Byte) : (setResult v s).link = s.link := rfl
@[simp] theorem setResult_host (v : Byte) : (setResult v s).host = s.host := rfl

/-! ### setFe -/

@[simp] theorem setFe_params (f : FState) : (setFe f s).params = s.params := rfl
@[simp] theorem setFe_mem (f : FState) : (setFe f s).mem = s.mem := rfl
@[simp] theorem setFe_xc (f : FState) : (setFe f s).xc = s.xc := rfl
@[simp] theorem setFe_fe_state (f : FState) : (setFe f s).fe.state = f := rfl
@[simp] theorem setFe_fe_catt (f : FState) : (setFe f s).fe.catt = s.fe.catt := rfl
@[simp] theorem setFe_fe_page (f : FState) : (setFe f s).fe.page = s.fe.page := rfl
@[simp] theorem setFe_fe_offset (f : FState) : (setFe f s).fe.offset = s.fe.offset := rfl
@[simp] theorem setFe_fe_n (f : FState) : (setFe f s).fe.n = s.fe.n := rfl
@[simp] theorem setFe_fe_clearBits (f : FState) : (setFe f s).fe.clearBits = s.fe.clearBits := rfl
@[simp] theorem setFe_fe_setBits (f : FState) : (setFe f s).fe.setBits = s.fe.setBits := rfl
@[simp] theorem setFe_regs (f : FState) : (setFe f s).regs = s.regs := rfl
@[simp] theorem setFe_res (f : FState) : (setFe f s).res = s.res := rfl
@[simp] theorem setFe_cnt (f : FState) : (setFe f s).cnt = s.cnt := rfl
@[simp] theorem setFe_shown (f : FState) : (setFe f s).shown = s.shown := rfl
@[simp] theorem setFe_fault (f : FState) : (setFe f s).fault = s.fault := rfl
@[simp] theorem setFe_busy (f : FState) : (setFe f s).busy = s.busy := rfl
@[simp] theorem setFe_ready (f : FState) : (setFe f s).ready = s.ready := rfl
@[simp] theorem setFe_link (f : FState) : (setFe f s).link = s.link := rfl
@[simp] theorem setFe_host (f : FState) : (setFe f s).host = s.host := rfl

/-! ### setCatt -/

@[simp] theorem setCatt_params (c : Byte) : (setCatt c s).params = s.params := rfl
@[simp] theorem setCatt_mem (c : Byte) : (setCatt c s).mem = s.mem := rfl
@[simp] theorem setCatt_xc (c : Byte) : (setCatt c s).xc = s.xc := rfl
@[simp] theorem setCatt_fe_state (c : Byte) : (setCatt c s).fe.state = s.fe.state := rfl
@[simp] theorem setCatt_fe_catt (c : Byte) : (setCatt c s).fe.catt = c := rfl
@[simp] theorem setCatt_fe_page (c : Byte) : (setCatt c s).fe.page = s.fe.page := rfl
@[simp] theorem setCatt_fe_offset (c : Byte) : (setCatt c s).fe.offset = s.fe.offset := rfl
@[simp] theorem setCatt_fe_n (c : Byte) : (setCatt c s).fe.n = s.fe.n := rfl
@[simp] theorem setCatt_fe_clearBits (c : Byte) : (setCatt c s).fe.clearBits = s.fe.clearBits := rfl
@[simp] theorem setCatt_fe_setBits (c : Byte) : (setCatt c s).fe.setBits = s.fe.setBits := rfl
@[simp] theorem setCatt_regs (c : Byte) : (setCatt c s).regs = s.regs := rfl
@[simp] theorem setCatt_res (c : Byte) : (setCatt c s).res = s.res := rfl
@[simp] theorem setCatt_cnt (c : Byte) : (setCatt c s).cnt = s.cnt := rfl
@[simp] theorem setCatt_shown (c : Byte) : (setCatt c s).shown = s.shown := rfl
@[simp] theorem setCatt_fault (c : Byte) : (setCatt c s).fault = s.fault := rfl
@[simp] theorem setCatt_busy (c : Byte) : (setCatt c s).busy = s.busy := rfl
@[simp] theorem setCatt_ready (c : Byte) : (setCatt c s).ready = s.ready := rfl
@[simp] theorem setCatt_link (c : Byte) : (setCatt c s).link = s.link := rfl
@[simp] theorem setCatt_host (c : Byte) : (setCatt c s).host = s.host := rfl

/-! ### latchOperands -/

@[simp] theorem latchOperands_params (n : Byte) : (latchOperands n s).params = s.params := rfl
@[simp] theorem latchOperands_mem (n : Byte) : (latchOperands n s).mem = s.mem := rfl
@[simp] theorem latchOperands_xc (n : Byte) : (latchOperands n s).xc = s.xc := rfl
@[simp] theorem latchOperands_fe_state (n : Byte) : (latchOperands n s).fe.state = s.fe.state := rfl
@[simp] theorem latchOperands_fe_catt (n : Byte) : (latchOperands n s).fe.catt = s.fe.catt := rfl
@[simp] theorem latchOperands_fe_page (n : Byte) : (latchOperands n s).fe.page = s.regs.page := rfl
@[simp] theorem latchOperands_fe_offset (n : Byte) : (latchOperands n s).fe.offset = s.regs.offset := rfl
@[simp] theorem latchOperands_fe_n (n : Byte) : (latchOperands n s).fe.n = n := rfl
@[simp] theorem latchOperands_fe_clearBits (n : Byte) : (latchOperands n s).fe.clearBits = s.regs.clearBits := rfl
@[simp] theorem latchOperands_fe_setBits (n : Byte) : (latchOperands n s).fe.setBits = s.regs.setBits := rfl
@[simp] theorem latchOperands_regs (n : Byte) : (latchOperands n s).regs = s.regs := rfl
@[simp] theorem latchOperands_res (n : Byte) : (latchOperands n s).res = s.res := rfl
@[simp] theorem latchOperands_cnt (n : Byte) : (latchOperands n s).cnt = s.cnt := rfl
@[simp] theorem latchOperands_shown (n : Byte) : (latchOperands n s).shown = s.shown := rfl
@[simp] theorem latchOperands_fault (n : Byte) : (latchOperands n s).fault = s.fault := rfl
@[simp] theorem latchOperands_busy (n : Byte) : (latchOperands n s).busy = s.busy := rfl
@[simp] theorem latchOperands_ready (n : Byte) : (latchOperands n s).ready = s.ready := rfl
@[simp] theorem latchOperands_link (n : Byte) : (latchOperands n s).link = s.link := rfl
@[simp] theorem latchOperands_host (n : Byte) : (latchOperands n s).host = s.host := rfl

/-! ### copyOut -/

@[simp] theorem copyOut_params (n : Byte) : (copyOut n s).params = s.params := rfl
@[simp] theorem copyOut_mem (n : Byte) : (copyOut n s).mem = s.mem := rfl
@[simp] theorem copyOut_xc (n : Byte) : (copyOut n s).xc = s.xc := rfl
@[simp] theorem copyOut_fe (n : Byte) : (copyOut n s).fe = s.fe := rfl
@[simp] theorem copyOut_regs (n : Byte) : (copyOut n s).regs = s.regs := rfl
@[simp] theorem copyOut_res_status (n : Byte) : (copyOut n s).res.status = s.res.status := rfl
@[simp] theorem copyOut_res_errinfo (n : Byte) : (copyOut n s).res.errinfo = s.res.errinfo := rfl
@[simp] theorem copyOut_res_result (n : Byte) : (copyOut n s).res.result = s.res.result := rfl
@[simp] theorem copyOut_res_flag (n : Byte) : (copyOut n s).res.flag = s.res.flag := rfl
@[simp] theorem copyOut_cnt (n : Byte) : (copyOut n s).cnt = s.cnt := rfl
@[simp] theorem copyOut_shown (n : Byte) : (copyOut n s).shown = s.shown := rfl
@[simp] theorem copyOut_fault (n : Byte) : (copyOut n s).fault = s.fault := rfl
@[simp] theorem copyOut_busy (n : Byte) : (copyOut n s).busy = s.busy := rfl
@[simp] theorem copyOut_ready (n : Byte) : (copyOut n s).ready = s.ready := rfl
@[simp] theorem copyOut_link (n : Byte) : (copyOut n s).link = s.link := rfl
@[simp] theorem copyOut_host (n : Byte) : (copyOut n s).host = s.host := rfl

/-! ### setCmd -/

@[simp] theorem setCmd_params (w : Byte) : (setCmd w s).params = s.params := rfl
@[simp] theorem setCmd_mem (w : Byte) : (setCmd w s).mem = s.mem := rfl
@[simp] theorem setCmd_xc (w : Byte) : (setCmd w s).xc = s.xc := rfl
@[simp] theorem setCmd_fe (w : Byte) : (setCmd w s).fe = s.fe := rfl
@[simp] theorem setCmd_regs_cmd (w : Byte) : (setCmd w s).regs.cmd = w := rfl
@[simp] theorem setCmd_regs_mode (w : Byte) : (setCmd w s).regs.mode = s.regs.mode := rfl
@[simp] theorem setCmd_regs_page (w : Byte) : (setCmd w s).regs.page = s.regs.page := rfl
@[simp] theorem setCmd_regs_offset (w : Byte) : (setCmd w s).regs.offset = s.regs.offset := rfl
@[simp] theorem setCmd_regs_n (w : Byte) : (setCmd w s).regs.n = s.regs.n := rfl
@[simp] theorem setCmd_regs_retries (w : Byte) : (setCmd w s).regs.retries = s.regs.retries := rfl
@[simp] theorem setCmd_regs_clearBits (w : Byte) : (setCmd w s).regs.clearBits = s.regs.clearBits := rfl
@[simp] theorem setCmd_regs_setBits (w : Byte) : (setCmd w s).regs.setBits = s.regs.setBits := rfl
@[simp] theorem setCmd_regs_val (w : Byte) : (setCmd w s).regs.val = s.regs.val := rfl
@[simp] theorem setCmd_res (w : Byte) : (setCmd w s).res = s.res := rfl
@[simp] theorem setCmd_cnt (w : Byte) : (setCmd w s).cnt = s.cnt := rfl
@[simp] theorem setCmd_shown (w : Byte) : (setCmd w s).shown = s.shown := rfl
@[simp] theorem setCmd_fault (w : Byte) : (setCmd w s).fault = s.fault := rfl
@[simp] theorem setCmd_busy (w : Byte) : (setCmd w s).busy = s.busy := rfl
@[simp] theorem setCmd_ready (w : Byte) : (setCmd w s).ready = s.ready := rfl
@[simp] theorem setCmd_link (w : Byte) : (setCmd w s).link = s.link := rfl
@[simp] theorem setCmd_host (w : Byte) : (setCmd w s).host = s.host := rfl

/-! ### closeExchange -/

@[simp] theorem closeExchange_params (st : Byte) : (closeExchange st s).params = s.params := rfl
@[simp] theorem closeExchange_mem (st : Byte) : (closeExchange st s).mem = s.mem := rfl
@[simp] theorem closeExchange_xc_xst (st : Byte) : (closeExchange st s).xc.xst = .idle := rfl
@[simp] theorem closeExchange_xc_idx (st : Byte) : (closeExchange st s).xc.idx = s.xc.idx := rfl
@[simp] theorem closeExchange_xc_wb (st : Byte) : (closeExchange st s).xc.wb = s.xc.wb := rfl
@[simp] theorem closeExchange_xc_att (st : Byte) : (closeExchange st s).xc.att = s.xc.att := rfl
@[simp] theorem closeExchange_xc_retr (st : Byte) : (closeExchange st s).xc.retr = s.xc.retr := rfl
@[simp] theorem closeExchange_xc_txlen (st : Byte) : (closeExchange st s).xc.txlen = s.xc.txlen := rfl
@[simp] theorem closeExchange_xc_nbody (st : Byte) : (closeExchange st s).xc.nbody = s.xc.nbody := rfl
@[simp] theorem closeExchange_xc_hdr (st : Byte) : (closeExchange st s).xc.hdr = s.xc.hdr := rfl
@[simp] theorem closeExchange_fe (st : Byte) : (closeExchange st s).fe = s.fe := rfl
@[simp] theorem closeExchange_regs (st : Byte) : (closeExchange st s).regs = s.regs := rfl
@[simp] theorem closeExchange_res_out (st : Byte) : (closeExchange st s).res.out = s.res.out := rfl
@[simp] theorem closeExchange_res_status (st : Byte) : (closeExchange st s).res.status = st := rfl
@[simp] theorem closeExchange_res_errinfo (st : Byte) : (closeExchange st s).res.errinfo = s.res.errinfo := rfl
@[simp] theorem closeExchange_res_result (st : Byte) : (closeExchange st s).res.result = s.res.result := rfl
@[simp] theorem closeExchange_res_flag (st : Byte) : (closeExchange st s).res.flag = s.res.flag := rfl
@[simp] theorem closeExchange_cnt (st : Byte) : (closeExchange st s).cnt = s.cnt := rfl
@[simp] theorem closeExchange_shown (st : Byte) : (closeExchange st s).shown = s.shown := rfl
@[simp] theorem closeExchange_fault (st : Byte) : (closeExchange st s).fault = s.fault := rfl
@[simp] theorem closeExchange_busy (st : Byte) : (closeExchange st s).busy = s.busy := rfl
@[simp] theorem closeExchange_ready (st : Byte) : (closeExchange st s).ready = s.ready := rfl
@[simp] theorem closeExchange_link (st : Byte) : (closeExchange st s).link = s.link := rfl
@[simp] theorem closeExchange_host (st : Byte) : (closeExchange st s).host = s.host := rfl

/-! ### storeHdr -/

@[simp] theorem storeHdr_params (i : Nat) (b : Byte) : (storeHdr i b s).params = s.params := rfl
@[simp] theorem storeHdr_mem (i : Nat) (b : Byte) : (storeHdr i b s).mem = s.mem := rfl
@[simp] theorem storeHdr_xc_xst (i : Nat) (b : Byte) : (storeHdr i b s).xc.xst = s.xc.xst := rfl
@[simp] theorem storeHdr_xc_idx (i : Nat) (b : Byte) : (storeHdr i b s).xc.idx = s.xc.idx := rfl
@[simp] theorem storeHdr_xc_wb (i : Nat) (b : Byte) : (storeHdr i b s).xc.wb = s.xc.wb := rfl
@[simp] theorem storeHdr_xc_att (i : Nat) (b : Byte) : (storeHdr i b s).xc.att = s.xc.att := rfl
@[simp] theorem storeHdr_xc_retr (i : Nat) (b : Byte) : (storeHdr i b s).xc.retr = s.xc.retr := rfl
@[simp] theorem storeHdr_xc_txlen (i : Nat) (b : Byte) : (storeHdr i b s).xc.txlen = s.xc.txlen := rfl
@[simp] theorem storeHdr_xc_nbody (i : Nat) (b : Byte) : (storeHdr i b s).xc.nbody = s.xc.nbody := rfl
@[simp] theorem storeHdr_xc_hdr (i : Nat) (b : Byte) : (storeHdr i b s).xc.hdr = s.xc.hdr.setIfInBounds i b := rfl
@[simp] theorem storeHdr_fe (i : Nat) (b : Byte) : (storeHdr i b s).fe = s.fe := rfl
@[simp] theorem storeHdr_regs (i : Nat) (b : Byte) : (storeHdr i b s).regs = s.regs := rfl
@[simp] theorem storeHdr_res (i : Nat) (b : Byte) : (storeHdr i b s).res = s.res := rfl
@[simp] theorem storeHdr_cnt (i : Nat) (b : Byte) : (storeHdr i b s).cnt = s.cnt := rfl
@[simp] theorem storeHdr_shown (i : Nat) (b : Byte) : (storeHdr i b s).shown = s.shown := rfl
@[simp] theorem storeHdr_fault (i : Nat) (b : Byte) : (storeHdr i b s).fault = s.fault := rfl
@[simp] theorem storeHdr_busy (i : Nat) (b : Byte) : (storeHdr i b s).busy = s.busy := rfl
@[simp] theorem storeHdr_ready (i : Nat) (b : Byte) : (storeHdr i b s).ready = s.ready := rfl
@[simp] theorem storeHdr_link (i : Nat) (b : Byte) : (storeHdr i b s).link = s.link := rfl
@[simp] theorem storeHdr_host (i : Nat) (b : Byte) : (storeHdr i b s).host = s.host := rfl

/-! ### countWouldBlock -/

@[simp] theorem countWouldBlock_params : (countWouldBlock s).params = s.params := rfl
@[simp] theorem countWouldBlock_mem : (countWouldBlock s).mem = s.mem := rfl
@[simp] theorem countWouldBlock_xc_xst : (countWouldBlock s).xc.xst = s.xc.xst := rfl
@[simp] theorem countWouldBlock_xc_idx : (countWouldBlock s).xc.idx = s.xc.idx := rfl
@[simp] theorem countWouldBlock_xc_wb : (countWouldBlock s).xc.wb = s.xc.wb + 1#8 := rfl
@[simp] theorem countWouldBlock_xc_att : (countWouldBlock s).xc.att = s.xc.att := rfl
@[simp] theorem countWouldBlock_xc_retr : (countWouldBlock s).xc.retr = s.xc.retr := rfl
@[simp] theorem countWouldBlock_xc_txlen : (countWouldBlock s).xc.txlen = s.xc.txlen := rfl
@[simp] theorem countWouldBlock_xc_nbody : (countWouldBlock s).xc.nbody = s.xc.nbody := rfl
@[simp] theorem countWouldBlock_xc_hdr : (countWouldBlock s).xc.hdr = s.xc.hdr := rfl
@[simp] theorem countWouldBlock_fe : (countWouldBlock s).fe = s.fe := rfl
@[simp] theorem countWouldBlock_regs : (countWouldBlock s).regs = s.regs := rfl
@[simp] theorem countWouldBlock_res : (countWouldBlock s).res = s.res := rfl
@[simp] theorem countWouldBlock_cnt : (countWouldBlock s).cnt = s.cnt := rfl
@[simp] theorem countWouldBlock_shown : (countWouldBlock s).shown = s.shown := rfl
@[simp] theorem countWouldBlock_fault : (countWouldBlock s).fault = s.fault := rfl
@[simp] theorem countWouldBlock_busy : (countWouldBlock s).busy = s.busy := rfl
@[simp] theorem countWouldBlock_ready : (countWouldBlock s).ready = s.ready := rfl
@[simp] theorem countWouldBlock_link : (countWouldBlock s).link = s.link := rfl
@[simp] theorem countWouldBlock_host : (countWouldBlock s).host = s.host := rfl

/-! ### setBusy -/

@[simp] theorem setBusy_params : (setBusy s).params = s.params := rfl
@[simp] theorem setBusy_mem : (setBusy s).mem = s.mem := rfl
@[simp] theorem setBusy_xc : (setBusy s).xc = s.xc := rfl
@[simp] theorem setBusy_fe : (setBusy s).fe = s.fe := rfl
@[simp] theorem setBusy_regs : (setBusy s).regs = s.regs := rfl
@[simp] theorem setBusy_res : (setBusy s).res = s.res := rfl
@[simp] theorem setBusy_cnt : (setBusy s).cnt = s.cnt := rfl
@[simp] theorem setBusy_shown : (setBusy s).shown = { res := s.res, cnt := s.cnt } := rfl
@[simp] theorem setBusy_fault : (setBusy s).fault = s.fault := rfl
@[simp] theorem setBusy_busy : (setBusy s).busy = true := rfl
@[simp] theorem setBusy_ready : (setBusy s).ready = s.ready := rfl
@[simp] theorem setBusy_link : (setBusy s).link = s.link := rfl
@[simp] theorem setBusy_host : (setBusy s).host = s.host := rfl

/-! ### enter -/

@[simp] theorem enter_params (x : XState) : (enter x s).params = s.params := rfl
@[simp] theorem enter_mem (x : XState) : (enter x s).mem = s.mem := rfl
@[simp] theorem enter_xc_xst (x : XState) : (enter x s).xc.xst = x := rfl
@[simp] theorem enter_xc_idx (x : XState) : (enter x s).xc.idx = 0#8 := rfl
@[simp] theorem enter_xc_wb (x : XState) : (enter x s).xc.wb = s.xc.wb := rfl
@[simp] theorem enter_xc_att (x : XState) : (enter x s).xc.att = s.xc.att := rfl
@[simp] theorem enter_xc_retr (x : XState) : (enter x s).xc.retr = s.xc.retr := rfl
@[simp] theorem enter_xc_txlen (x : XState) : (enter x s).xc.txlen = s.xc.txlen := rfl
@[simp] theorem enter_xc_nbody (x : XState) : (enter x s).xc.nbody = s.xc.nbody := rfl
@[simp] theorem enter_xc_hdr (x : XState) : (enter x s).xc.hdr = s.xc.hdr := rfl
@[simp] theorem enter_fe (x : XState) : (enter x s).fe = s.fe := rfl
@[simp] theorem enter_regs (x : XState) : (enter x s).regs = s.regs := rfl
@[simp] theorem enter_res (x : XState) : (enter x s).res = s.res := rfl
@[simp] theorem enter_cnt (x : XState) : (enter x s).cnt = s.cnt := rfl
@[simp] theorem enter_shown (x : XState) : (enter x s).shown = s.shown := rfl
@[simp] theorem enter_fault (x : XState) : (enter x s).fault = s.fault := rfl
@[simp] theorem enter_busy (x : XState) : (enter x s).busy = s.busy := rfl
@[simp] theorem enter_ready (x : XState) : (enter x s).ready = s.ready := rfl
@[simp] theorem enter_link (x : XState) : (enter x s).link = s.link := rfl
@[simp] theorem enter_host (x : XState) : (enter x s).host = s.host := rfl

/-! ### byteRead -/

@[simp] theorem byteRead_params : (byteRead s).params = s.params := rfl
@[simp] theorem byteRead_mem : (byteRead s).mem = s.mem := rfl
@[simp] theorem byteRead_xc_xst : (byteRead s).xc.xst = s.xc.xst := rfl
@[simp] theorem byteRead_xc_idx : (byteRead s).xc.idx = s.xc.idx + 1#8 := rfl
@[simp] theorem byteRead_xc_wb : (byteRead s).xc.wb = 0#8 := rfl
@[simp] theorem byteRead_xc_att : (byteRead s).xc.att = s.xc.att := rfl
@[simp] theorem byteRead_xc_retr : (byteRead s).xc.retr = s.xc.retr := rfl
@[simp] theorem byteRead_xc_txlen : (byteRead s).xc.txlen = s.xc.txlen := rfl
@[simp] theorem byteRead_xc_nbody : (byteRead s).xc.nbody = s.xc.nbody := rfl
@[simp] theorem byteRead_xc_hdr : (byteRead s).xc.hdr = s.xc.hdr := rfl
@[simp] theorem byteRead_fe : (byteRead s).fe = s.fe := rfl
@[simp] theorem byteRead_regs : (byteRead s).regs = s.regs := rfl
@[simp] theorem byteRead_res : (byteRead s).res = s.res := rfl
@[simp] theorem byteRead_cnt : (byteRead s).cnt = s.cnt := rfl
@[simp] theorem byteRead_shown : (byteRead s).shown = s.shown := rfl
@[simp] theorem byteRead_fault : (byteRead s).fault = s.fault := rfl
@[simp] theorem byteRead_busy : (byteRead s).busy = s.busy := rfl
@[simp] theorem byteRead_ready : (byteRead s).ready = s.ready := rfl
@[simp] theorem byteRead_link : (byteRead s).link = s.link := rfl
@[simp] theorem byteRead_host : (byteRead s).host = s.host := rfl

/-! ### Buffers -/

@[simp] theorem Memory.image_tx (m : Memory) : m.image .tx = m.tx := rfl
@[simp] theorem Memory.image_rx (m : Memory) : m.image .rx = m.rx := rfl
@[simp] theorem Memory.setImage_tx_tx (m : Memory) (x : Image) : (m.setImage .tx x).tx = x := rfl
@[simp] theorem Memory.setImage_tx_rx (m : Memory) (x : Image) : (m.setImage .tx x).rx = m.rx := rfl
@[simp] theorem Memory.setImage_rx_rx (m : Memory) (x : Image) : (m.setImage .rx x).rx = x := rfl
@[simp] theorem Memory.setImage_rx_tx (m : Memory) (x : Image) : (m.setImage .rx x).tx = m.tx := rfl

@[simp] theorem Memory.image_setImage_same (m : Memory) (b : Buf) (x : Image) :
    (m.setImage b x).image b = x := by cases b <;> rfl

theorem Memory.image_setImage_other (m : Memory) (b c : Buf) (x : Image) (h : c ≠ b) :
    (m.setImage b x).image c = m.image c := by cases b <;> cases c <;> first | rfl | exact absurd rfl h

theorem copyRegs_get (order : ByteOrder) (rx : Image) (out : Vector RegValue 32) (n k : Nat) (hk : k < 32) :
    (copyRegs order rx out n)[k] = if k < n then Image.reg order rx k else out[k] := by
  induction n with
  | zero => rfl
  | succ n ih =>
    rw [copyRegs, Vector.getElem_setIfInBounds, ih]
    by_cases h : n = k
    · subst h; simp
    · have : k < n + 1 ↔ k < n := by omega
      simp [h, this]

/-- OUT after a copy (R193): the first n entries come from RX, the others stay. -/
@[simp] theorem copyOut_out (n : Byte) (k : Nat) (hk : k < 32) :
    (copyOut n s).res.out[k] = if k < n.toNat then Image.reg s.order s.mem.rx k else s.res.out[k] := by
  simp only [copyOut, copyRegs_get]

/-! ### The link -/

@[simp] theorem Link.afterSetup_calls (l : Link) : l.afterSetup.calls = .setup :: l.calls := rfl
@[simp] theorem Link.afterPoll_calls (l : Link) : l.afterPoll.calls = .poll :: l.calls := rfl
@[simp] theorem Link.afterWrite_calls (l : Link) (b : Byte) :
    (l.afterWrite b).calls = .write b l.writeAnswer :: l.calls := rfl
@[simp] theorem Link.afterFlush_calls (l : Link) : l.afterFlush.calls = .flush :: l.calls := rfl

/-! ### Headers -/

@[simp] theorem order_eq : s.order = s.params.regByteOrder := rfl

/-- The stored byte of HDR is the one read back (R149). -/
theorem Xcvr.hdrByte_eq (x : Xcvr) (i : Nat) (h : i < 4) : x.hdrByte i = x.hdr[i] := dif_pos h

end Sys2Proof.Machine
end

