-- ==== Sys2Proof/Laws/Ops.lean ====
section
/-! SUPPORT. What each shared operation can do, said once: a claim about an instruction cites these instead of
unfolding the operation. -/

namespace Sys2Proof.Machine

/-! ### The checks at issue -/

theorem whileSound_none {s : State} {k : State → Outcome} (h : s.fault = none) : whileSound s k = k s := by
  simp [whileSound, h]

theorem whileSound_some {s : State} {k : State → Outcome} {r : FaultReason} (h : s.fault = some r) :
    whileSound s k = .fault (.halted r) := by simp [whileSound, h]

/-- A block that is guarded by FAULT goes on only if FAULT is empty, and then as the rest says. -/
theorem whileSound_next {s t : State} {k : State → Outcome} (h : whileSound s k = .next t) :
    s.fault = none ∧ k s = .next t := by
  unfold whileSound at h
  split at h
  · cases h
  · exact ⟨‹_›, h⟩

/-- A free block issues a command that needs no READY, or needs it and has it. -/
theorem issue_free {w : Byte} {r : Readiness} {s : State} {body : State → State} (h : s.Free)
    (hr : r = .needsReady → s.ready = true) :
    issue w r s body = .next (body (setCmd w s)) := by
  obtain ⟨hf, hb⟩ := h
  cases r
  · simp [issue, whileSound_none hf, hb, hr rfl]
  · simp [issue, whileSound_none hf, hb]

/-- Everything the issue of a command can do: it overlaps, it is not ready, or the command's own part runs. -/
theorem issue_next {w : Byte} {r : Readiness} {s t : State} {body : State → State}
    (h : issue w r s body = .next t) :
    s.fault = none ∧
      ((s.busy = true ∧ t = raise .busyOverlap (setCmd w s)) ∨
        (s.busy = false ∧ r = .needsReady ∧ s.ready = false ∧
          t = raise .notReady (setCmd w s)) ∨
        (s.busy = false ∧ (r = .needsReady → s.ready = true) ∧
          t = body (setCmd w s))) := by
  obtain ⟨hf, h⟩ := whileSound_next h
  refine ⟨hf, ?_⟩
  simp only [Host.Outcome.next.injEq] at h
  split at h
  · exact .inl ⟨‹_›, h.symm⟩
  · split at h
    · next hb hr => exact .inr (.inl ⟨by simpa using hb, hr.1, hr.2, h.symm⟩)
    · next hb hr =>
      refine .inr (.inr ⟨by simpa using hb, fun hn => ?_, h.symm⟩)
      by_contra hc
      exact hr ⟨hn, by simpa using hc⟩

/-! ### Attempts and exchanges -/

@[simp] theorem beginAttempt_params (s : State) : (beginAttempt s).params = s.params := rfl
@[simp] theorem beginAttempt_mem (s : State) : (beginAttempt s).mem = s.mem := rfl
@[simp] theorem beginAttempt_fe (s : State) : (beginAttempt s).fe = s.fe := rfl
@[simp] theorem beginAttempt_regs (s : State) : (beginAttempt s).regs = s.regs := rfl
@[simp] theorem beginAttempt_res (s : State) : (beginAttempt s).res = s.res := rfl
@[simp] theorem beginAttempt_shown (s : State) : (beginAttempt s).shown = s.shown := rfl
@[simp] theorem beginAttempt_fault (s : State) : (beginAttempt s).fault = s.fault := rfl
@[simp] theorem beginAttempt_busy (s : State) : (beginAttempt s).busy = s.busy := rfl
@[simp] theorem beginAttempt_ready (s : State) : (beginAttempt s).ready = s.ready := rfl
@[simp] theorem beginAttempt_link (s : State) : (beginAttempt s).link = s.link := rfl
@[simp] theorem beginAttempt_host (s : State) : (beginAttempt s).host = s.host := rfl
@[simp] theorem beginAttempt_xst (s : State) : (beginAttempt s).xc.xst = .discard := rfl
@[simp] theorem beginAttempt_idx (s : State) : (beginAttempt s).xc.idx = 0#8 := rfl
@[simp] theorem beginAttempt_wb (s : State) : (beginAttempt s).xc.wb = 0#8 := rfl
@[simp] theorem beginAttempt_att (s : State) : (beginAttempt s).xc.att = s.xc.att + 1#8 := rfl
@[simp] theorem beginAttempt_retr (s : State) : (beginAttempt s).xc.retr = s.xc.retr := rfl
@[simp] theorem beginAttempt_txlen (s : State) : (beginAttempt s).xc.txlen = s.xc.txlen := rfl
@[simp] theorem beginAttempt_nbody (s : State) : (beginAttempt s).xc.nbody = s.xc.nbody := rfl
@[simp] theorem beginAttempt_hdr (s : State) : (beginAttempt s).xc.hdr = s.xc.hdr := rfl

/-- An exchange with no attempt allowed ends at once; any other begins its first attempt. -/
theorem sendRequest_eq (len : Byte) (s : State) :
    sendRequest len s =
      if s.xc.retr = 0#8 then finish statusUnresponsive { s with xc := { s.xc with txlen := len } }
      else beginAttempt { s with xc := { s.xc with txlen := len } } := rfl

/-- The state in which the first attempt of an exchange with r > 0 retries starts (R143, R144). -/
theorem startExchange_pos {r : Byte} (s : State) (hr : r ≠ 0#8) :
    startExchange r s =
      { s with
        xc :=
          { s.xc with
            xst := .discard, idx := 0#8, wb := 0#8, att := 1#8, retr := r,
            txlen := liveLength (Image.get s.mem.tx 0) } } := by
  simp [startExchange, sendRequest, beginAttempt, hr]

/-- An exchange with no retries makes no attempt (R143). -/
theorem startExchange_zero (s : State) :
    startExchange 0#8 s =
      finish statusUnresponsive
        { s with
          xc := { s.xc with retr := 0#8, att := 0#8, txlen := liveLength (Image.get s.mem.tx 0) } } := rfl

/-- A packet exchange of the front end always awaits the link, since DRIVER_RETRIES is not 0. -/
theorem packetExchange_driver (s : State) :
    packetExchange driverRetries s = (none, classifyAttempt driverRetries (setCatt 0#8 s)) := rfl

/-- A classification attempt (R191): RX cleared, CATT counted, an exchange begun. -/
theorem classifyAttempt_driver (s : State) :
    classifyAttempt driverRetries s =
      { s with
        mem := s.mem.setImage .rx (clearImage s.params.regByteOrder s.mem.rx),
        fe := { s.fe with catt := s.fe.catt + 1#8 },
        xc :=
          { s.xc with
            xst := .discard, idx := 0#8, wb := 0#8, att := 1#8, retr := driverRetries,
            txlen := liveLength (Image.get s.mem.tx 0) } } := by
  rw [classifyAttempt, startExchange_pos _ (by decide)]
  rfl

/-- A raw exchange that ends is the end of its command (R152 to R154). -/
theorem endExchange_raw {s : State} (st : Byte) (h : s.fe.state = .idle) :
    endExchange st s =
      { closeExchange st s with busy := false } := by
  simp [endExchange, h]

/-- Within a REG command the packet exchange goes on. -/
theorem endExchange_reg {s : State} (st : Byte) (h : s.fe.state ≠ .idle) :
    endExchange st s = exchangeReturned (closeExchange st s) := by simp [endExchange, h]

/-- The last allowed attempt that fails ends the exchange (R153). -/
theorem attemptFailed_last {kind : AttemptFailure} {s : State} (h : s.xc.att = s.xc.retr) :
    attemptFailed kind s = endExchange statusUnresponsive (countStall kind s) := by simp [attemptFailed, h]

/-- Any other failed attempt is followed by the next one (R153). -/
theorem attemptFailed_more {kind : AttemptFailure} {s : State} (h : s.xc.att ≠ s.xc.retr) :
    attemptFailed kind s = beginAttempt (countStall kind s) := by simp [attemptFailed, h]

/-- A transport error passes through the classification layer (R191; C2). -/
theorem exchangeReturned_error {s : State} (h : s.res.status ≠ statusOk) :
    exchangeReturned s = feReturn s.res.status s := by simp [exchangeReturned, h]

/-- An accepted reply ends the packet exchange with OK (R191, R192). -/
theorem exchangeReturned_accept {s : State} (h : s.res.status = statusOk)
    (ha : accept s.params s.mem.rx = true) : exchangeReturned s = feReturn statusOk s := by
  have hc : crcValid s.params.crcTable s.mem.rx = true := by
    simp only [accept, Bool.and_eq_true] at ha; exact ha.1
  simp [exchangeReturned, h, ha, hc, countCrcFail]

/-! ### The block's step -/

theorem linkStep_discard {s : State} (h : s.xc.xst = .discard) : linkStep s = .next (discardStep s) := by
  simp [linkStep, h]

theorem linkStep_write {s : State} (h : s.xc.xst = .write) : linkStep s = writeStep s := by
  simp [linkStep, h]

theorem linkStep_flush {s : State} (h : s.xc.xst = .flush) : linkStep s = .next (flushStep s) := by
  simp [linkStep, h]

theorem linkStep_rdHdr {s : State} (h : s.xc.xst = .rdHdr) : linkStep s = rdHdrStep s := by
  simp [linkStep, h]

theorem linkStep_rdBody {s : State} (h : s.xc.xst = .rdBody) : linkStep s = rdBodyStep s := by
  simp [linkStep, h]

theorem linkStep_drain {s : State} (h : s.xc.xst = .idle) : linkStep s = .next (drainStep s) := by
  simp [linkStep, h]

/-- Everything a drain step of an attempt can do (R145). -/
theorem discardStep_cases (s : State) :
    (∃ b, s.link.pollAnswer = .data b ∧ discardStep s = s.afterPoll) ∨
      ((s.link.pollAnswer = .noData ∨ ∃ e, s.link.pollAnswer = .err e) ∧
        discardStep s = enter .write s.afterPoll) := by
  unfold discardStep
  cases h : s.link.pollAnswer with
  | data b => exact .inl ⟨b, rfl, rfl⟩
  | noData => exact .inr ⟨.inl rfl, rfl⟩
  | err e => exact .inr ⟨.inr ⟨e, rfl⟩, rfl⟩

/-- Everything a step of XCVR.DISCARD can do (R142). -/
theorem drainStep_cases (s : State) :
    (∃ b, s.link.pollAnswer = .data b ∧ drainStep s = s.afterPoll) ∨
      ((s.link.pollAnswer = .noData ∨ ∃ e, s.link.pollAnswer = .err e) ∧
        drainStep s = finish statusOk s.afterPoll) := by
  unfold drainStep
  cases h : s.link.pollAnswer with
  | data b => exact .inl ⟨b, rfl, rfl⟩
  | noData => exact .inr ⟨.inl rfl, rfl⟩
  | err e => exact .inr ⟨.inr ⟨e, rfl⟩, rfl⟩

/-- Everything a write step can do inside the packet image (R146, R147). -/
theorem writeStep_cases {s : State} (h : s.xc.idx.toNat < pktLen) :
    (s.link.writeAnswer = .ok ∧
        writeStep s = .next (byteWritten (s.afterWrite (Image.get s.mem.tx s.xc.idx.toNat)))) ∨
      (s.link.writeAnswer = .busy ∧
        writeStep s = .next (s.afterWrite (Image.get s.mem.tx s.xc.idx.toNat))) ∨
      (∃ e, s.link.writeAnswer = .err e ∧
        writeStep s = .next (commAbort e (s.afterWrite (Image.get s.mem.tx s.xc.idx.toNat)))) := by
  unfold writeStep
  simp only [Image.read8, h, if_true]
  cases ha : s.link.writeAnswer with
  | ok => exact .inl ⟨rfl, rfl⟩
  | busy => exact .inr (.inl ⟨rfl, rfl⟩)
  | err e => exact .inr (.inr ⟨e, rfl, rfl⟩)

/-! ### Turns -/

/-! ### State.turned: only the host's list changes -/

@[simp] theorem State.turned_params (s : State) : s.turned.params = s.params := rfl
@[simp] theorem State.turned_mem (s : State) : s.turned.mem = s.mem := rfl
@[simp] theorem State.turned_xc (s : State) : s.turned.xc = s.xc := rfl
@[simp] theorem State.turned_fe (s : State) : s.turned.fe = s.fe := rfl
@[simp] theorem State.turned_regs (s : State) : s.turned.regs = s.regs := rfl
@[simp] theorem State.turned_res (s : State) : s.turned.res = s.res := rfl
@[simp] theorem State.turned_cnt (s : State) : s.turned.cnt = s.cnt := rfl
@[simp] theorem State.turned_shown (s : State) : s.turned.shown = s.shown := rfl
@[simp] theorem State.turned_fault (s : State) : s.turned.fault = s.fault := rfl
@[simp] theorem State.turned_busy (s : State) : s.turned.busy = s.busy := rfl
@[simp] theorem State.turned_ready (s : State) : s.turned.ready = s.ready := rfl
@[simp] theorem State.turned_link (s : State) : s.turned.link = s.link := rfl

/-- A wait goes on while the block takes its turn. -/
theorem State.turned_waits {s : State} (h : s.Waits) : s.turned = s := by
  obtain hh | ⟨rest, hh⟩ := h <;>
    (unfold State.turned hostAfterTurn; rw [hh]; simp only []; rw [← hh])

/-- The block's turn: one step of the running command. -/
theorem step_runs {s : State} (h : s.Runs) : step s = linkStep s.turned := by
  obtain ⟨hf, hb, hh⟩ := h
  obtain (hh | ⟨rest, hh⟩) | ⟨rest, hh⟩ := hh
  · rw [State.turned_waits (.inl hh)]; simp [step, turn, whileSound_none hf, hh, blockTurn, hb]
  · rw [State.turned_waits (.inr ⟨rest, hh⟩)]; simp [step, turn, whileSound_none hf, hh, hb]
  · simp [step, turn, whileSound_none hf, hh, blockTurn, hb, State.turned, hostAfterTurn]

/-- The block's turn while the host does nothing or waits. -/
theorem step_waits {s : State} (hf : s.fault = none) (hb : s.busy = true) (h : s.Waits) :
    step s = linkStep s := by rw [step_runs ⟨hf, hb, .inl h⟩, State.turned_waits h]

/-- The host writes CMD: the command is issued, or the write faults. -/
theorem step_writeCmd {s : State} {w : Byte} {rest : List HostAction} (hf : s.fault = none)
    (hh : s.host = .writeCmd w :: rest) : step s = issueWord w { s with host := rest } := by
  simp [step, turn, whileSound_none hf, hh]

/-- An idle block with no host action stays as it is. -/
theorem step_idle {s : State} (hf : s.fault = none) (hb : s.busy = false) (hh : s.host = []) :
    step s = .next s := by
  simp [step, turn, whileSound_none hf, hh, blockTurn, hb]

/-- A faulted block takes no step (R36). -/
theorem step_halted {s : State} {r : FaultReason} (h : s.fault = some r) :
    step s = .fault (.halted r) := by simp [step, turn, whileSound_some h]

end Sys2Proof.Machine
end

