-- ==== Sys2Proof/Laws/Packet.lean ====
section
/-! SUPPORT. What every byte of a default, a cleared and a built packet reads, what CRC8 depends on, and what the
header's count and live length are. -/

namespace Sys2Proof.Machine

/-! ### The two buffers -/

@[simp] theorem Memory.image_setImage (m : Memory) (b : Buf) (img : Image) : (m.setImage b img).image b = img := by
  cases b <;> rfl

theorem Memory.image_setImage_ne (m : Memory) {b c : Buf} (img : Image) (h : c ≠ b) :
    (m.setImage b img).image c = m.image c := by
  cases b <;> cases c <;> first | rfl | exact absurd rfl h

/-! ### Default and cleared packets (R106, R107) -/

theorem get_defaultImage (img : Image) (a : Nat) :
    Image.get (defaultImage img) a = if a < 68 then 0#8 else Image.get img a := by
  simp [defaultImage, Image.get_fill]

theorem get_clearImage (order : ByteOrder) (img : Image) (a : Nat) :
    Image.get (clearImage order img) a =
      if a < 4 then 0#8
      else if a < 68 then (if a % 2 = 0 then firstByte order sentinel else secondByte order sentinel)
      else Image.get img a := by
  simp only [clearImage, Image.get_setRegs _ _ _ _ _ (Nat.le_refl _), Image.get_fill, hdrLen, capacity, pktLen]
  split_ifs <;> first | rfl | omega

/-- A slot whose two bytes are those of v reads v. -/
theorem Image.reg_of_bytes {order : ByteOrder} {img : Image} {k : Nat} {v : RegValue}
    (h1 : Image.get img (4 + 2 * k) = firstByte order v)
    (h2 : Image.get img (4 + 2 * k + 1) = secondByte order v) : Image.reg order img k = v := by
  cases order <;> simp [Image.reg, Image.read16, h1, h2, hdrLen, firstByte, secondByte, RegValue.halves]

theorem cleared_clearImage (p : Params) (img : Image) : Cleared p img (clearImage p.regByteOrder img) where
  header a h := by simp [get_clearImage, h]
  slots k hk := by
    apply Image.reg_of_bytes
    · rw [get_clearImage, if_neg (by omega), if_pos (by omega), if_pos (by omega)]; rfl
    · rw [get_clearImage, if_neg (by omega), if_pos (by omega), if_neg (by omega)]; rfl
  rest a h := by rw [get_clearImage, if_neg (by omega), if_neg (by omega)]

/-! ### CRC8 -/

/-- The table walk as a fold over the addresses. -/
theorem crcWalk_foldl (t : CrcTable) (img : Image) (len i : Nat) (c : Byte) :
    crcWalk t img i len c =
      (List.range' i len).foldl (fun c i => CrcTable.entry t (c ^^^ Image.get img i)) c := by
  induction len generalizing i c with
  | zero => rfl
  | succ n ih => simp [crcWalk, ih, List.range'_succ]

/-- The walk reads only the bytes it walks over. -/
theorem crcWalk_congr (t : CrcTable) {x y : Image} (len i : Nat) (c : Byte)
    (h : ∀ a, i ≤ a → a < i + len → Image.get x a = Image.get y a) :
    crcWalk t x i len c = crcWalk t y i len c := by
  induction len generalizing i c with
  | zero => rfl
  | succ n ih =>
    rw [crcWalk, crcWalk, h i (by omega) (by omega)]
    exact ih _ _ (fun a h1 h2 => h a (by omega) (by omega))

/-- A stamped packet reads as before everywhere but in the CRC slot. -/
theorem get_stampCrc (t : CrcTable) (img : Image) (n a : Nat) :
    Image.get (stampCrc t img n) a = if a = 1 then crc8 t img n else Image.get img a := by
  simp [stampCrc]

/-! ### Built packets (R108, R193, R196) -/

theorem get_layImage (order : ByteOrder) (img : Image) (cc page offset : Byte) (n : Nat) (f : Nat → RegValue)
    (a : Nat) (hn : n ≤ 32) :
    Image.get (layImage order img cc page offset n f) a =
      if a = 0 then cc
      else if a = 2 then page
      else if a = 3 then offset
      else if 4 ≤ a ∧ a < 4 + 2 * n then
        (if a % 2 = 0 then firstByte order (f ((a - 4) / 2)) else secondByte order (f ((a - 4) / 2)))
      else Image.get img a := by
  simp only [layImage, Image.get_setRegs _ _ _ _ _ hn, Image.get_set, hdrLen, pktLen]
  split_ifs <;> first | rfl | omega

/-- A packet laid out with n values and stamped with a CRC over m values. -/
theorem packet_stampCrc (p : Params) (old : Image) (cc page offset : Byte) (n m : Nat) (f : Nat → RegValue)
    (hn : n ≤ 32) :
    Packet p old (stampCrc p.crcTable (layImage p.regByteOrder old cc page offset n f) m) cc page offset n m f := by
  have hl := get_layImage p.regByteOrder old cc page offset n f
  refine ⟨by simp [get_stampCrc, hl _ hn], ?_, by simp [get_stampCrc, hl _ hn],
    by simp [get_stampCrc, hl _ hn], fun k hk => ?_, fun a ha => ?_⟩
  · rw [get_stampCrc, if_pos rfl, crc8, crc8, get_stampCrc, if_neg (by omega)]
    exact crcWalk_congr _ _ _ _ (fun a h1 _ => by rw [get_stampCrc, if_neg (by omega)])
  · apply Image.reg_of_bytes <;>
      rw [get_stampCrc, if_neg (by omega), hl _ hn, if_neg (by omega), if_neg (by omega), if_neg (by omega),
        if_pos (by omega)]
    · rw [if_pos (by omega)]; congr 2; omega
    · rw [if_neg (by omega)]; congr 2; omega
  · rw [get_stampCrc, if_neg (by omega), hl _ hn, if_neg (by omega), if_neg (by omega), if_neg (by omega),
      if_neg (by omega)]

/-- What PKT.BUILD leaves in its buffer (R108). -/
theorem packet_buildImage (p : Params) (old : Image) (mode page offset n : Byte) (f : Nat → RegValue)
    (hn : n.toNat ≤ 32) :
    Packet p old (buildImage p old mode page offset n f) (n ||| mode) page offset n.toNat n.toNat f :=
  packet_stampCrc p old _ _ _ _ _ f hn

theorem Packet.congr {p : Params} {old img : Image} {cc page offset : Byte} {n m : Nat} {f g : Nat → RegValue}
    (h : Packet p old img cc page offset n m f) (hfg : ∀ k, k < n → f k = g k) :
    Packet p old img cc page offset n m g :=
  ⟨h.byte0, h.crc, h.byte2, h.byte3, fun k hk => (h.slots k hk).trans (hfg k hk), h.rest⟩

/-- A READ request's byte 0 is its count. -/
theorem byte0_readRequest (p : Params) (tx : Image) (page offset n : Byte) (hn : n.toNat ≤ 32) :
    Image.get (readRequest p tx page offset n) 0 = n := by
  unfold readRequest
  split
  · simpa [modeRead] using (packet_buildImage p tx modeRead page offset n (fun _ => 0#16) hn).byte0
  · simpa [countCode, modeRead] using
      (packet_stampCrc p tx (countCode n modeRead) page offset 0 0 (fun _ => 0#16) (by omega)).byte0

theorem Image.wf_readRequest (p : Params) (page offset n : Byte) {img : Image} (h : Image.wf img = true) :
    Image.wf (readRequest p img page offset n) = true := by
  unfold readRequest
  split
  · exact Image.wf_build _ _ _ _ _ _ h
  · exact Image.wf_stamp _ _ (Image.wf_lay _ _ _ _ _ _ h)

/-! ### Counts, lengths and operands -/

theorem HostRegs.value_eq (g : HostRegs) (k : Nat) : g.value k = g.val[k]! := by
  unfold HostRegs.value
  split
  · simp [*]
  · rename_i h; simp [h]; rfl

theorem legalN_of_le {n : Byte} (h : n.toNat ≤ 32) : legalN n = true := decide_eq_true h

theorem legalN_of_lt {n : Byte} (h : 32 < n.toNat) : legalN n = false :=
  decide_eq_false (by simpa [capacity] using h)

/-- The count bits as a field and as a mask (R71). -/
theorem countOf_toNat (w : Byte) : (countOf w).toNat = (w &&& 0x3F#8).toNat := by revert w; decide +kernel

/-- A legal count and a legal mode do not disturb each other (R108). -/
theorem countOf_or {n m : Byte} (hn : n.toNat ≤ 32) (hm : m &&& 0x3F#8 = 0#8) :
    (countOf (n ||| m)).toNat = n.toNat := by
  have h2 : n &&& 0x3F#8 = n := by revert hn; revert n; decide +kernel
  have h3 : (n ||| m) &&& 0x3F#8 = (n &&& 0x3F#8) ||| (m &&& 0x3F#8) := by
    ext i; simp; cases n[i] <;> cases m[i] <;> simp
  rw [countOf_toNat, h3, h2, hm]; simp

/-- TXLEN is even and 4 to 68 for a legal count (R28). -/
theorem evenIn_liveLength {w : Byte} (h : (countOf w).toNat ≤ 32) : evenIn 4 68 (liveLength w) := by
  unfold evenIn; revert h; revert w; decide +kernel

theorem liveLength_read {n : Byte} (hn : n.toNat ≤ 32) : liveLength n = 4#8 := by
  revert hn; revert n; decide +kernel

theorem liveLength_write {n : Byte} (hn : n.toNat ≤ 32) : liveLength (n ||| 0x40#8) = 4#8 + 2#8 * n := by
  revert hn; revert n; decide +kernel

end Sys2Proof.Machine
end

