-- ==== Sys2Proof/Laws/PerInstr.lean ====
section
/-! SUPPORT. Per-instruction facts: every instruction's word has the fixed bits that its row of
spec/opcode_table.json gives it. -/

namespace Sys2Proof.Laws.TableRow

/-- The row's mask: the bits the table fixes. -/
def mask : Instr → Byte
  | .pktDefault _ => 0x7F#8
  | .pktClear _ => 0x7F#8
  | .pktBuild _ => 0x7F#8
  | .pktCrc8 _ => 0x7F#8
  | .pktCheck _ => 0x7F#8
  | .pktCount _ => 0x7F#8
  | .pktCode _ => 0x7F#8
  | .xcvrSetup => 0xFF#8
  | .xcvrDiscard => 0xFF#8
  | .xcvrExchange => 0xFF#8
  | .drvNew => 0xFF#8
  | .regGet => 0xFF#8
  | .regGet1 => 0xFF#8
  | .regSet => 0xFF#8
  | .regSet1 => 0xFF#8
  | .regModify => 0xFF#8
  | .wireReadReq _ => 0xC0#8
  | .wireWriteReq _ => 0xC0#8
  | .wireRespOk _ => 0xC0#8
  | .wireRespCorrupt _ => 0xC0#8
  | .wireRespError _ => 0xC0#8
  | .wireRespReserved _ => 0xC0#8

/-- The row's match: the value of those bits. -/
def pattern : Instr → Byte
  | .pktDefault _ => 0x01#8
  | .pktClear _ => 0x02#8
  | .pktBuild _ => 0x03#8
  | .pktCrc8 _ => 0x04#8
  | .pktCheck _ => 0x05#8
  | .pktCount _ => 0x06#8
  | .pktCode _ => 0x07#8
  | .xcvrSetup => 0x10#8
  | .xcvrDiscard => 0x11#8
  | .xcvrExchange => 0x12#8
  | .drvNew => 0x20#8
  | .regGet => 0x21#8
  | .regGet1 => 0x22#8
  | .regSet => 0x23#8
  | .regSet1 => 0x24#8
  | .regModify => 0x25#8
  | .wireReadReq _ => 0x00#8
  | .wireWriteReq _ => 0x40#8
  | .wireRespOk _ => 0x00#8
  | .wireRespCorrupt _ => 0x40#8
  | .wireRespError _ => 0x80#8
  | .wireRespReserved _ => 0xC0#8

/-- The word of i has its row's fixed bits. -/
def Statement (i : Instr) : Prop := encode i &&& mask i = pattern i

theorem pktDefault (b : Buf) : Statement (.pktDefault b) := by cases b <;> rfl
theorem pktClear (b : Buf) : Statement (.pktClear b) := by cases b <;> rfl
theorem pktBuild (b : Buf) : Statement (.pktBuild b) := by cases b <;> rfl
theorem pktCrc8 (b : Buf) : Statement (.pktCrc8 b) := by cases b <;> rfl
theorem pktCheck (b : Buf) : Statement (.pktCheck b) := by cases b <;> rfl
theorem pktCount (b : Buf) : Statement (.pktCount b) := by cases b <;> rfl
theorem pktCode (b : Buf) : Statement (.pktCode b) := by cases b <;> rfl
theorem xcvrSetup : Statement .xcvrSetup := rfl
theorem xcvrDiscard : Statement .xcvrDiscard := rfl
theorem xcvrExchange : Statement .xcvrExchange := rfl
theorem drvNew : Statement .drvNew := rfl
theorem regGet : Statement .regGet := rfl
theorem regGet1 : Statement .regGet1 := rfl
theorem regSet : Statement .regSet := rfl
theorem regSet1 : Statement .regSet1 := rfl
theorem regModify : Statement .regModify := rfl

/-- An opcode beside any count has the opcode's bits under the mask 0xC0. -/
theorem opcode_bits : ∀ (o : BitVec 2) (c : BitVec 6), (o ++ c) &&& 0xC0#8 = o ++ 0#6 := by decide

theorem wireReadReq (c : BitVec 6) : Statement (.wireReadReq c) := opcode_bits 0b00#2 c
theorem wireWriteReq (c : BitVec 6) : Statement (.wireWriteReq c) := opcode_bits 0b01#2 c
theorem wireRespOk (c : BitVec 6) : Statement (.wireRespOk c) := opcode_bits 0b00#2 c
theorem wireRespCorrupt (c : BitVec 6) : Statement (.wireRespCorrupt c) := opcode_bits 0b01#2 c
theorem wireRespError (c : BitVec 6) : Statement (.wireRespError c) := opcode_bits 0b10#2 c
theorem wireRespReserved (c : BitVec 6) : Statement (.wireRespReserved c) := opcode_bits 0b11#2 c

end Sys2Proof.Laws.TableRow
end

