-- ==== Sys2Proof/Laws/Runs.lean ====
section
/-! SUPPORT. Runs of several steps; how a wait, an error and a zeroing of both buffers act on the rest of the
state. -/

namespace Sys2Proof.Machine

/-! ### Runs -/

@[simp] theorem State.after_zero (s : State) : s.after 0 = some s := rfl

/-- A run whose first step goes on is that step and the rest of the run. -/
theorem State.after_succ {s t : State} (k : Nat) (h : step s = .next t) : s.after (k + 1) = t.after k := by
  have h' : Sys2Proof.core.step s = .next t := h
  simp only [State.after, Host.Core.run, h']

/-- A run cut in two. -/
theorem State.after_add {s t : State} {j : Nat} (k : Nat) (h : s.after j = some t) :
    s.after (j + k) = t.after k := by
  induction j generalizing s with
  | zero => cases h; rw [Nat.zero_add]
  | succ j ih =>
    cases hs : step s with
    | next u =>
      rw [State.after_succ j hs] at h
      rw [show j + 1 + k = (j + k) + 1 by omega, State.after_succ _ hs, ih h]
    | fault r =>
      have h' : Sys2Proof.core.step s = .fault r := hs
      simp [State.after, Host.Core.run, h'] at h
    | refused r =>
      have h' : Sys2Proof.core.step s = .refused r := hs
      simp [State.after, Host.Core.run, h'] at h

/-- A sound block with no command running and nothing for the host to do stays as it is. -/
theorem State.after_idle {s : State} (hf : s.fault = none) (hb : s.busy = false) (hh : s.host = []) (k : Nat) :
    s.after k = some s := by
  induction k with
  | zero => rfl
  | succ k ih => rw [State.after_succ k (step_idle hf hb hh), ih]

/-! ### Would-blocks, drains, errors -/

/-- A NoData beyond the tolerance ends the attempt (R155). -/
theorem wouldBlock_over {s : State} (h : s.params.stallTolerance < (s.xc.wb + 1#8).toNat) :
    wouldBlock s = attemptFailed .stall (countWouldBlock s) := if_pos h

/-- A NoData within the tolerance only counts (R155). -/
theorem wouldBlock_within {s : State} (h : ¬ s.params.stallTolerance < (s.xc.wb + 1#8).toNat) :
    wouldBlock s = countWouldBlock s := if_neg h

/-- The first drain poll of an attempt (R145). -/
theorem discardStep_first {s : State} (h : s.xc.xst = .discard) (hi : s.xc.idx = 0#8) :
    discardStep s =
      { s.afterPoll with
        xc := { s.xc with xst := if givesByte s.link.pollAnswer then .discard else .write } } := by
  unfold discardStep
  cases hp : s.link.pollAnswer
  · simp [givesByte]; rw [← h]; rfl
  · simp [enter, givesByte, hi]
  · simp [enter, givesByte, hi]

/-- An exchange that ends with an error ends its command, whichever command runs (R153, R154, R191, R238). -/
theorem endExchange_error {st : Byte} (s : State) (h : st ≠ 0#8) : endExchange st s = s.endedWith st := by
  unfold endExchange
  split
  · rename_i h'; simp [closeExchange, State.endedWith, FrontEnd.ended, h']
  · rename_i h'
    rw [exchangeReturned_error (by simpa [closeExchange, statusOk] using h)]
    unfold feReturn
    cases hfe : s.fe.state <;>
      simp_all [closeExchange, State.endedWith, FrontEnd.ended, getReturn, setReturn, modReadReturn, endCommand,
        setFe, finish, setCatt, statusOk]

/-! ### DRV.NEW's zeroing -/

@[simp] theorem zeroBuffers_params (s : State) : (zeroBuffers s).params = s.params := by simp only [zeroBuffers, State.setImage]
@[simp] theorem zeroBuffers_xc (s : State) : (zeroBuffers s).xc = s.xc := by simp only [zeroBuffers, State.setImage]
@[simp] theorem zeroBuffers_fe (s : State) : (zeroBuffers s).fe = s.fe := by simp only [zeroBuffers, State.setImage]
@[simp] theorem zeroBuffers_regs (s : State) : (zeroBuffers s).regs = s.regs := by simp only [zeroBuffers, State.setImage]
@[simp] theorem zeroBuffers_res (s : State) : (zeroBuffers s).res = s.res := by simp only [zeroBuffers, State.setImage]
@[simp] theorem zeroBuffers_cnt (s : State) : (zeroBuffers s).cnt = s.cnt := by simp only [zeroBuffers, State.setImage]
@[simp] theorem zeroBuffers_shown (s : State) : (zeroBuffers s).shown = s.shown := by simp only [zeroBuffers, State.setImage]
@[simp] theorem zeroBuffers_fault (s : State) : (zeroBuffers s).fault = s.fault := by simp only [zeroBuffers, State.setImage]
@[simp] theorem zeroBuffers_busy (s : State) : (zeroBuffers s).busy = s.busy := by simp only [zeroBuffers, State.setImage]
@[simp] theorem zeroBuffers_ready (s : State) : (zeroBuffers s).ready = s.ready := by simp only [zeroBuffers, State.setImage]
@[simp] theorem zeroBuffers_link (s : State) : (zeroBuffers s).link = s.link := by simp only [zeroBuffers, State.setImage]
@[simp] theorem zeroBuffers_host (s : State) : (zeroBuffers s).host = s.host := by simp only [zeroBuffers, State.setImage]
@[simp] theorem zeroBuffers_mem (s : State) :
    (zeroBuffers s).mem = { tx := defaultImage s.mem.tx, rx := defaultImage s.mem.rx } := by
  simp only [zeroBuffers, State.setImage, Memory.setImage]

end Sys2Proof.Machine
end

