-- ==== Sys2Proof/Tests/Slice0.lean ====
section
/-! SUPPORT. Tests: ill-formed terms, words written out from the spec's encodings, steps on small states with the
results of spec/95_test_vectors.md, and for every obligation with hypotheses a state that meets them. -/

namespace Sys2Proof.Tests

set_option Elab.async false

open Sys2Proof.Machine

/-! ### WellFormed (spec/30_encoding.md R74) -/

theorem test_illFormed_readReq : WellFormed (.wireReadReq 33#6) = false := by decide
theorem test_illFormed_writeReq : WellFormed (.wireWriteReq 63#6) = false := by decide
theorem test_wellFormed_fullWriteReq : WellFormed (.wireWriteReq 32#6) = true := by decide
theorem test_wellFormed_overcountReply : WellFormed (.wireRespOk 33#6) = true := by decide

/-! ### Words written out bit by bit: R79, R81 (commands), R72, R73 (headers) -/

theorem test_word_default : decode .command 0b00000001#8 = .ok (.pktDefault .tx) := by decide
theorem test_word_defaultRx : decode .command 0b10000001#8 = .ok (.pktDefault .rx) := by decide
theorem test_word_clear : decode .command 0b10000010#8 = .ok (.pktClear .rx) := by decide
theorem test_word_build : decode .command 0b00000011#8 = .ok (.pktBuild .tx) := by decide
theorem test_word_crc8 : decode .command 0b10000100#8 = .ok (.pktCrc8 .rx) := by decide
theorem test_word_check : decode .command 0b00000101#8 = .ok (.pktCheck .tx) := by decide
theorem test_word_count : decode .command 0b10000110#8 = .ok (.pktCount .rx) := by decide
theorem test_word_code : decode .command 0b00000111#8 = .ok (.pktCode .tx) := by decide
theorem test_word_setup : decode .command 0b00010000#8 = .ok .xcvrSetup := by decide
theorem test_word_discard : decode .command 0b00010001#8 = .ok .xcvrDiscard := by decide
theorem test_word_exchange : decode .command 0b00010010#8 = .ok .xcvrExchange := by decide
theorem test_word_new : decode .command 0b00100000#8 = .ok .drvNew := by decide
theorem test_word_get : decode .command 0b00100001#8 = .ok .regGet := by decide
theorem test_word_get1 : decode .command 0b00100010#8 = .ok .regGet1 := by decide
theorem test_word_set : decode .command 0b00100011#8 = .ok .regSet := by decide
theorem test_word_set1 : decode .command 0b00100100#8 = .ok .regSet1 := by decide
theorem test_word_modify : decode .command 0b00100101#8 = .ok .regModify := by decide
theorem test_word_readReq : decode .request 0b00000101#8 = .ok (.wireReadReq 5#6) := by decide
theorem test_word_writeReq : decode .request 0b01100000#8 = .ok (.wireWriteReq 32#6) := by decide
theorem test_word_respOk : decode .response 0b00000010#8 = .ok (.wireRespOk 2#6) := by decide
theorem test_word_respCorrupt : decode .response 0b01000000#8 = .ok (.wireRespCorrupt 0#6) := by decide
theorem test_word_respError : decode .response 0b10000011#8 = .ok (.wireRespError 3#6) := by decide
theorem test_word_respReserved : decode .response 0b11111111#8 = .ok (.wireRespReserved 63#6) := by decide

/-- V-ENC-1 to V-ENC-4, R72, R74: words that are no instruction, by name. -/
theorem test_word_rejected :
    decode .command 0x00#8 = .error .illegalCode ∧ decode .command 0x08#8 = .error .illegalCode ∧
    decode .command 0x90#8 = .error .bufOnNonPkt ∧ decode .command 0xA1#8 = .error .bufOnNonPkt ∧
    decode .request 0x80#8 = .error .noRequestOpcode ∧ decode .request 0xC0#8 = .error .noRequestOpcode ∧
    decode .request 0x21#8 = .error .illegalCount ∧ decode .request 0x61#8 = .error .illegalCount := by decide

/-- R83: `SET1 0x32, 0x02, 0x0100` assembles to the writes the rule gives. -/
theorem test_assemble_set1 :
    assemble (.set1 0x32#8 0x02#8 0x0100#16) =
      some [.writePage 0x32#8, .writeOffset 0x02#8, .writeVal 0 0x0100#16, .writeCmd 0x24#8, .await] := by decide

/-! ### Small states -/

/-- A block that is ready for commands. -/
def able : State := { State.reset with ready := true }

/-- A block that runs the first of two attempts. -/
def running (x : XState) : State :=
  { able with busy := true, xc := { able.xc with xst := x, att := 1, retr := 2 } }

/-- A machine whose link answers the polls, writes and flushes given. -/
def withLink (s : State) (poll : List PollAnswer) (write flush : List SendAnswer) : State :=
  { s with link := { s.link with poll := poll, write := write, flush := flush } }

/-- An image from its first bytes. -/
def img (bytes : List Byte) : Image := imageFrom 0 bytes

/-- A field of the state an outcome goes on with. -/
def of {α : Type} (f : State → α) : Outcome → Option α
  | .next t => some (f t)
  | .fault _ => none
  | .refused _ => none

/-! ### PKT commands (spec/95_test_vectors.md 2.1, 2.2) -/

theorem test_default_tx :
    of (fun t => (t.mem.tx, t.mem.rx)) (exec (.pktDefault .tx) { able with mem := { tx := img [5, 1], rx := img [9] } }) =
      some ([], img [9]) := by decide +kernel

/-- V-PKT-2: the first slot of a cleared buffer, low byte first under LE. -/
theorem test_clear_rx :
    of (fun t => (List.range 8).map (t.mem.byte .rx)) (exec (.pktClear .rx) able) =
      some [0, 0, 0, 0, 0xAA, 0x55, 0xAA, 0x55] := by decide +kernel

/-- R107: under BE the pair reads 55 AA. -/
theorem test_clear_be :
    of (fun t => (List.range 6).map (t.mem.byte .tx))
        (exec (.pktClear .tx) { able with params := { able.params with regByteOrder := .be } }) =
      some [0, 0, 0, 0, 0x55, 0xAA] := by decide +kernel

/-- The operands of V-PKT-3. -/
def buildOperands : HostRegs :=
  { able.regs with
    mode := 0x40#8, page := 0x32#8, offset := 0x02#8, n := 1#8, val := able.regs.val.set 0 0x0100#16 }

/-- V-PKT-3: `BUILD tx, WRITE, 0x32, 0x02, [0x0100]`. -/
theorem test_build_tx :
    of (fun t => (List.range 7).map (t.mem.byte .tx))
        (exec (.pktBuild .tx) { able with regs := buildOperands, mem := { tx := img [9, 9, 9, 9, 9, 9, 9], rx := [] } }) =
      some [0x41, 0x0B, 0x32, 0x02, 0x00, 0x01, 9] := by decide +kernel

/-- V-PKT-6: n = 33 faults before the mode is looked at. -/
theorem test_build_badCount :
    of (fun t => (t.fault, t.mem.tx))
        (exec (.pktBuild .tx) { able with regs := { buildOperands with n := 33#8, mode := 0x41#8 } }) =
      some (some .badCount, []) := by decide +kernel

/-- V-CRC-9, V-PKT-12: RESULT is 0x9B over one value and 0x8D over none. -/
theorem test_crc8_tx :
    of (fun t => t.res.result)
        (exec (.pktCrc8 .tx)
          { able with regs := buildOperands, mem := { tx := img [0x41, 0x9B, 0, 0, 0xD6, 0], rx := [] } }) =
      some 0x9B#8 := by decide +kernel
theorem test_crc8_zero :
    of (fun t => t.res.result)
        (exec (.pktCrc8 .tx) { able with mem := { tx := img [0x41, 0x9B, 0, 0, 0xD6, 0], rx := [] } }) =
      some 0x8D#8 := by decide +kernel

/-- V-PKT-7, V-PKT-8: a flipped bit and a count of 33 both give FLAG = 0. -/
theorem test_check_tampered :
    of (fun t => t.res.flag)
        (exec (.pktCheck .tx)
          { able with mem := { tx := img [0x41, 0x0B, 0x32, 2, 3, 1], rx := [] }, res := { able.res with flag := true } }) =
      some false := by decide +kernel
theorem test_check_valid :
    of (fun t => t.res.flag)
        (exec (.pktCheck .tx) { able with mem := { tx := img [0x41, 0x0B, 0x32, 2, 0, 1], rx := [] } }) =
      some true := by decide +kernel

/-- V-PKT-9: COUNT and CODE of FF. -/
theorem test_count_rx :
    of (fun t => t.res.result) (exec (.pktCount .rx) { able with mem := { tx := [], rx := img [0xFF] } }) =
      some 0x3F#8 := by decide +kernel
theorem test_code_rx :
    of (fun t => t.res.result) (exec (.pktCode .rx) { able with mem := { tx := [], rx := img [0xFF] } }) =
      some 0xC0#8 := by decide +kernel

/-! ### Link commands (spec/95_test_vectors.md 2.3 to 2.5) -/

/-- V-SET-1: a failed SETUP leaves READY = 1. -/
theorem test_setup_error :
    of (fun t => (t.ready, t.res.status, t.res.errinfo))
        (exec .xcvrSetup { able with link := { able.link with setup := [.err (.code 3)] } }) =
      some (true, 1#8, some (.code 3)) := by decide +kernel

/-- V-NEW-2: a failed NEW leaves READY = 0. -/
theorem test_new_error :
    of (fun t => (t.ready, t.res.status, t.res.errinfo, t.mem.tx))
        (exec .drvNew { able with link := { able.link with setup := [.err (.code 0)] }, mem := { tx := img [1], rx := [] } }) =
      some (false, 1#8, some (.code 0), []) := by decide +kernel

/-- V-DIS-2: an error ends the drain and is ignored. -/
theorem test_discard_error :
    of (fun t => (t.busy, t.res.status, t.res.errinfo)) (exec .xcvrDiscard (withLink able [.err (.code 4)] [] [])) =
      some (false, 0#8, none) := by decide +kernel

/-- V-DIS-1: a byte is dropped and the drain goes on. -/
theorem test_discard_byte :
    of (fun t => (t.busy, t.link.poll)) (exec .xcvrDiscard (withLink able [.data 0x12, .noData] [] [])) =
      some (true, [.noData]) := by decide +kernel

/-- V-XCVR-1: no retries, no link call. -/
theorem test_exchange_zero :
    of (fun t => (t.busy, t.res.status, t.link.calls)) (exec .xcvrExchange able) = some (false, 4#8, []) := by
  decide +kernel

/-- V-ENC-6: EXCHANGE with READY = 0. -/
theorem test_exchange_notReady :
    of (fun t => (t.fault, t.link.calls)) (exec .xcvrExchange State.reset) = some (some .notReady, []) := by
  decide +kernel

/-- V-XCVR-14: an error of the flush ends the exchange though attempts are left. -/
theorem test_flush_error :
    of (fun t => (t.busy, t.res.status, t.res.errinfo)) (step (withLink (running .flush) [] [] [.err (.code 5)])) =
      some (false, 1#8, some (.code 5)) := by decide +kernel

/-- R77 with the TXLEN values of section 2.5. -/
theorem test_txlen :
    [0x60, 0x40, 0x41, 0x05, 0x83, 0xFF].map liveLength = ([68, 4, 6, 4, 4, 4] : List Byte) := by decide

/-! ### REG commands (spec/95_test_vectors.md 2.6) -/

/-- The operands of a register command at page 0x32, offset 2. -/
def regOperands (n : Byte) (v : RegValue) : HostRegs :=
  { able.regs with page := 0x32#8, offset := 0x02#8, n := n, val := able.regs.val.set 0 v }

/-- P1: GET of five registers at page 0, offset 0 builds 05 78 00 00. -/
theorem test_get_request :
    of (fun t => (List.range 4).map (t.mem.byte .tx))
        (exec .regGet { withLink able [.noData] [] [] with regs := { able.regs with n := 5#8 } }) =
      some [5, 0x78, 0, 0] := by decide +kernel

/-- V-REG-6: under HEADER_ONLY it builds 05 4E 00 00. -/
theorem test_get_headerOnly :
    of (fun t => (List.range 4).map (t.mem.byte .tx))
        (exec .regGet
          { withLink able [.noData] [] [] with
            regs := { able.regs with n := 5#8 }, params := { able.params with readCrcMode := .headerOnly } }) =
      some [5, 0x4E, 0, 0] := by decide +kernel

/-- V-REG-2: GET1 sends 01 7A 32 02 and does not read ARG_N. -/
theorem test_get1_request :
    of (fun t => (List.range 4).map (t.mem.byte .tx))
        (exec .regGet1 { withLink able [.noData] [] [] with regs := regOperands 99#8 0#16 }) =
      some [1, 0x7A, 0x32, 2] := by decide +kernel

/-- V-REG-8: SET of no values sends a bare WRITE header. -/
theorem test_set_empty :
    of (fun t => ((List.range 4).map (t.mem.byte .tx), t.xc.txlen))
        (exec .regSet { withLink able [.noData] [] [] with regs := able.regs }) =
      some ([0x40, 0x9B, 0, 0], 4#8) := by decide +kernel

/-- V-REG-10: SET1 of 0x01FF sends 41 DC 32 02 FF 01. -/
theorem test_set1_request :
    of (fun t => ((List.range 6).map (t.mem.byte .tx), t.xc.txlen))
        (exec .regSet1 { withLink able [.noData] [] [] with regs := regOperands 99#8 0x01FF#16 }) =
      some ([0x41, 0xDC, 0x32, 2, 0xFF, 1], 6#8) := by decide +kernel

/-- P2: the read phase of MODIFY sends 01 7A 32 02. -/
theorem test_modify_request :
    of (fun t => ((List.range 4).map (t.mem.byte .tx), t.fe.state))
        (exec .regModify { withLink able [.noData] [] [] with regs := regOperands 99#8 0#16 }) =
      some ([1, 0x7A, 0x32, 2], .modRead) := by decide +kernel

/-- V-REG-12, P2: the value MODIFY writes; a bit both cleared and set ends up set. -/
theorem test_modified :
    modified 0x01FF#16 0x00FF#16 0x0100#16 = 0x0100#16 ∧ modified 0x1200#16 0x00FF#16 0x00FF#16 = 0x12FF#16 := by
  decide

/-! ### Headers (spec/95_test_vectors.md 2.5) -/

theorem test_readReq_txlen :
    of (fun t => (t.xc.txlen, t.xc.xst)) (exec (.wireReadReq 5#6) (running .idle)) = some (4#8, .discard) := by
  decide +kernel
theorem test_writeReq_txlen :
    of (fun t => t.xc.txlen) (exec (.wireWriteReq 32#6) (running .idle)) = some 68#8 := by decide +kernel
theorem test_respOk_body :
    of (fun t => (t.xc.xst, t.xc.nbody)) (exec (.wireRespOk 5#6) (running .rdHdr)) = some (.rdBody, 10#8) := by
  decide +kernel

/-- V-XCVR-11: OVERCOUNT under the policy FAULT. -/
theorem test_respOk_overcount :
    of (fun t => (t.fault, t.busy))
        (exec (.wireRespOk 33#6)
          { running .rdHdr with params := { able.params with overcountPolicy := .fault } }) =
      some (some .overcount, false) := by decide +kernel

/-- V-XCVR-12: a rejected opcode comes before the count, under either policy. -/
theorem test_respCorrupt_overcount :
    of (fun t => (t.fault, t.cnt.retry, t.xc.att))
        (exec (.wireRespCorrupt 33#6)
          { running .rdHdr with params := { able.params with overcountPolicy := .fault } }) =
      some (none, 1#32, 2#8) := by decide +kernel
theorem test_respError_retry :
    of (fun t => (t.xc.xst, t.cnt.retry)) (exec (.wireRespError 0#6) (running .rdHdr)) = some (.discard, 1#32) := by
  decide +kernel

/-- V-XCVR-8: 0b11 is rejected by default. -/
theorem test_respReserved_retry :
    of (fun t => (t.xc.xst, t.cnt.retry)) (exec (.wireRespReserved 0#6) (running .rdHdr)) =
      some (.discard, 1#32) := by decide +kernel
theorem test_respReserved_accepted :
    of (fun t => (t.busy, t.res.status, t.res.result))
        (exec (.wireRespReserved 0#6)
          { running .rdHdr with params := { able.params with rejectCode3 := false } }) =
      some (false, 0#8, 4#8) := by decide +kernel

/-! ### The host's view -/

/-- R37, R60: while a command runs the host reads the results and counters as they stood at its issue. -/
theorem test_view_busy :
    of (fun t => (t.view.busy, t.cnt.retry, t.view.results.cnt.retry, t.view.results.res.status))
        (step (withLink { running .rdHdr with xc := { (running .rdHdr).xc with wb := 1 } } [.noData] [] [])) =
      some (true, 1#32, 0#32, 0#8) := by decide +kernel

/-- R31: a running drain does not read CMD. -/
theorem test_drain_cmd :
    of (fun t => (t.busy, t.regs.cmd)) (step (withLink (running .idle) [.noData] [] [])) = some (false, 0#8) := by
  decide +kernel

/-- Words placed for the next step: a command, and a received header's byte 0. -/
theorem test_placed_command :
    of (fun t => t.res.result) (step ({ able with res := { able.res with result := 7 } }.withFetchWord 8 0x06)) =
      some 0#8 := by decide +kernel
theorem test_placed_header :
    of (fun t => (t.xc.xst, t.xc.nbody)) (step (State.reset.withFetchWord 8 0x09)) = some (.rdBody, 18#8) := by
  decide +kernel

/-! ### For every obligation with hypotheses: a state and operands that meet them, at the ends of their ranges -/

theorem able_able : able.Able := ⟨rfl, rfl, rfl⟩
theorem able_free : able.Free := ⟨rfl, rfl⟩
theorem running_runs (x : XState) : (running x).Runs := ⟨rfl, rfl, .inl (.inl rfl)⟩

/-- A machine with one action for the host. -/
def withHost (a : HostAction) : State := { able with host := [a] }

theorem witness_StepRunsTheCommandWritten :
    (withHost (.writeCmd 0x87#8)).fault = none ∧ (withHost (.writeCmd 0x87#8)).host = .writeCmd 0x87#8 :: [] ∧
    decode .command 0x87#8 = .ok (.pktCode .rx) := by decide

/-- A block that has received three header bytes and gets the fourth. -/
def lastHeaderByte : State :=
  withLink { running .rdHdr with xc := { (running .rdHdr).xc with idx := 3#8 } } [.data 0xFF#8] [] []

theorem witness_StepRunsTheHeaderReceived :
    lastHeaderByte.Runs ∧ lastHeaderByte.xc.xst = .rdHdr ∧ lastHeaderByte.xc.idx = 3#8 ∧
    lastHeaderByte.link.pollAnswer = .data 0xFF#8 := ⟨⟨rfl, rfl, .inl (.inl rfl)⟩, rfl, rfl, rfl⟩

/-- The next turn is the block's too while the host waits or lets it run. -/
theorem witness_Runs_host :
    { lastHeaderByte with host := [.await, .writeCmd 1#8] }.Runs ∧ { lastHeaderByte with host := [.letRun] }.Runs :=
  ⟨⟨rfl, rfl, .inl (.inr ⟨_, rfl⟩)⟩, rfl, rfl, .inr ⟨_, rfl⟩⟩

/-- A block that may make one attempt and holds a full WRITE request. -/
def oneAttempt : State :=
  { able with regs := { able.regs with retries := 1#8 }, mem := { tx := img [0x60], rx := [] } }

theorem witness_ExchangeRunsTheRequestInTx :
    oneAttempt.Able ∧ oneAttempt.regs.retries ≠ 0#8 ∧
    decode .request (Image.get oneAttempt.mem.tx 0) = .ok (.wireWriteReq 32#6) := ⟨able_able, by decide, by decide⟩

theorem witness_FaultedBlockTakesNoStep : (raise .badMode able).fault = some .badMode := rfl

theorem witness_OperandWritesWriteOneRegister :
    able.fault = none ∧ (withHost (.writeMode 1#8)).host = .writeMode 1#8 :: [] ∧
    (withHost (.writePage 1#8)).host = .writePage 1#8 :: [] ∧
    (withHost (.writeOffset 1#8)).host = .writeOffset 1#8 :: [] ∧ (withHost (.writeN 1#8)).host = .writeN 1#8 :: [] ∧
    (withHost (.writeRetries 1#8)).host = .writeRetries 1#8 :: [] ∧
    (withHost (.writeClear 1#16)).host = .writeClear 1#16 :: [] ∧
    (withHost (.writeSet 1#16)).host = .writeSet 1#16 :: [] ∧
    (withHost (.writeVal 31 1#16)).host = .writeVal 31 1#16 :: [] := by decide

theorem witness_DecodeOfEncode : WellFormed (.wireWriteReq 32#6) = true := by decide
theorem witness_EncodeOfDecode : decode .request 0x60#8 = .ok (.wireWriteReq 32#6) := by decide

theorem witness_IllegalWordsFault :
    0x90#8 ∉ commandWords ∧ 0x00#8 ∉ commandWords ∧ 0x26#8 ∉ commandWords ∧
    ((withHost (.writeCmd 0x90#8)).fault = none ∧ (withHost (.writeCmd 0x90#8)).host = .writeCmd 0x90#8 :: [] ∧
      (withHost (.writeCmd 0x90#8)).busy = false) ∧
    ({ running .write with host := [.writeCmd 0x90#8] }.fault = none ∧
      { running .write with host := [.writeCmd 0x90#8] }.busy = true) := by decide

theorem witness_LiveBytesOfARequest :
    (0x60#8 &&& 0xC0#8 = 0x40#8 ∧ 0x60#8 &&& 0x3F#8 ≤ 32#8) ∧ 0x20#8 &&& 0xC0#8 ≠ 0x40#8 ∧
    0xFF#8 &&& 0xC0#8 ≠ 0x40#8 := by decide

theorem witness_RegisterWriteChangesTwoBytes : 67 + 1 ≤ 68 ∧ 66 + 2 ≤ 68 ∧ 0 ≠ 66 ∧ 0 ≠ 66 + 1 := by decide
theorem witness_CrcIsTheSerialCrcWithAZeroSlot : 32 ≤ 32 := by decide

/-- Two images of a full packet that differ in the CRC slot only. -/
theorem witness_CrcReadsOnlyTheWalkedBytes :
    32 ≤ 32 ∧ ∀ a, a < 4 + 2 * 32 → a ≠ 1 → Image.get (img [0x60, 0xFF]) a = Image.get (img [0x60]) a := by
  decide +kernel

/-- An empty packet: its CRC slot, its last byte and its opcode bits changed. -/
theorem witness_OneChangedByteIsDetected :
    crcValid t07 [] = true ∧ (1 < 4 + 2 * Image.count [] ∧ 1#8 ≠ Image.get [] 1) ∧
    (3 < 4 + 2 * Image.count [] ∧ 1#8 ≠ Image.get [] 3) ∧
    (0 < 4 + 2 * Image.count [] ∧ 0x40#8 ≠ Image.get [] 0 ∧ countOf 0x40#8 = countOf (Image.get [] 0)) := by
  decide +kernel

theorem witness_DefaultZeroesTheBuffer : able.Free := able_free

theorem witness_ClearFillsTheBuffer :
    able.Free ∧ 31 < 32 ∧ able.params.regByteOrder = .le ∧ able.params.crcTable = t07 ∧
    ({ able with params := { able.params with regByteOrder := .be } } : State).params.regByteOrder = .be :=
  ⟨able_free, by decide, rfl, rfl, rfl⟩

/-- A block whose operands are mode and n. -/
def withOperands (mode n : Byte) : State := { able with regs := { able.regs with mode := mode, n := n } }

theorem witness_BuildEncodesThePacket :
    ((withOperands 0xC0#8 32#8).Free ∧ (withOperands 0xC0#8 32#8).regs.n.toNat ≤ 32 ∧
      (withOperands 0xC0#8 32#8).regs.mode &&& 0x3F#8 = 0#8) ∧
    ((withOperands 0#8 33#8).Free ∧ 32 < (withOperands 0#8 33#8).regs.n.toNat) ∧
    ((withOperands 0x20#8 32#8).Free ∧ (withOperands 0x20#8 32#8).regs.n.toNat ≤ 32 ∧
      (withOperands 0x20#8 32#8).regs.mode &&& 0x3F#8 ≠ 0#8) :=
  ⟨⟨⟨rfl, rfl⟩, by decide, by decide⟩, ⟨⟨rfl, rfl⟩, by decide⟩, ⟨rfl, rfl⟩, by decide, by decide⟩

theorem witness_CrcCommandWritesResult :
    ((withOperands 0#8 32#8).Free ∧ (withOperands 0#8 32#8).regs.n.toNat ≤ 32) ∧
    ((withOperands 0#8 33#8).Free ∧ 32 < (withOperands 0#8 33#8).regs.n.toNat) :=
  ⟨⟨⟨rfl, rfl⟩, by decide⟩, ⟨rfl, rfl⟩, by decide⟩

theorem witness_CheckWritesTheVerdict : able.Free := able_free
theorem witness_CountAndCodeReadByteZero : able.Free := able_free

theorem witness_BuildThenCheckPasses :
    (withOperands 0xC0#8 32#8).Free ∧ (withOperands 0xC0#8 32#8).regs.n.toNat ≤ 32 ∧
    (withOperands 0xC0#8 32#8).regs.mode &&& 0x3F#8 = 0#8 := ⟨⟨rfl, rfl⟩, by decide, by decide⟩

theorem witness_IssueChecksInOrder :
    (Instr.port .xcvrSetup = .command ∧ (running .write).fault = none ∧ (running .write).busy = true) ∧
    (Instr.port .regGet = .command ∧ State.reset.fault = none ∧ State.reset.busy = false ∧
      Instr.regGet ∈ linkCommands ∧ State.reset.ready = false) ∧
    ((withOperands 0x20#8 33#8).fault = none ∧ (withOperands 0x20#8 33#8).busy = false ∧
      (withOperands 0x20#8 33#8).ready = true ∧ Instr.regSet ∈ countedCommands ∧ Instr.pktBuild .rx ∈ countedCommands ∧
      32 < (withOperands 0x20#8 33#8).regs.n.toNat) ∧
    ((withOperands 0x20#8 32#8).fault = none ∧ (withOperands 0x20#8 32#8).busy = false ∧
      (withOperands 0x20#8 32#8).regs.n.toNat ≤ 32 ∧ (withOperands 0x20#8 32#8).regs.mode &&& 0x3F#8 ≠ 0#8) := by decide

/-- A block whose link answers the setup. -/
def withSetup (a : SetupAnswer) : State := { able with link := { able.link with setup := [a] } }

theorem witness_SetupAsksTheLink :
    ((withSetup .ok).Free ∧ (withSetup .ok).link.setupAnswer = .ok) ∧
    ((withSetup (.err (.code 1))).Free ∧ (withSetup (.err (.code 1))).link.setupAnswer = .err (.code 1)) :=
  ⟨⟨⟨rfl, rfl⟩, rfl⟩, ⟨rfl, rfl⟩, rfl⟩

theorem witness_NewZeroesAndSetsUp :
    ((withSetup .ok).Free ∧ (withSetup .ok).link.setupAnswer = .ok) ∧
    ((withSetup (.err (.code 1))).Free ∧ (withSetup (.err (.code 1))).link.setupAnswer = .err (.code 1)) ∧ 67 < 68 ∧ 68 ≤ 68 :=
  ⟨⟨⟨rfl, rfl⟩, rfl⟩, ⟨⟨rfl, rfl⟩, rfl⟩, by decide, by decide⟩

theorem witness_DiscardDrainsTheLink :
    (withLink able [.data 1#8, .noData] [] []).Able ∧ able.Waits ∧ able.xc.xst = .idle ∧
    (withLink able [.data 1#8, .noData] [] []).link.poll = [1#8].map .data ++ PollAnswer.noData :: [] ∧
    givesByte .noData = false ∧ givesByte (.err (.code 1)) = false := ⟨able_able, .inl rfl, rfl, rfl, rfl, rfl⟩

theorem witness_ExchangeBeginsItsFirstAttempt :
    (able.Able ∧ able.regs.retries = 0#8) ∧ (oneAttempt.Able ∧ oneAttempt.regs.retries ≠ 0#8) :=
  ⟨⟨able_able, rfl⟩, able_able, by decide⟩

theorem witness_DiscardStateDrains :
    ((withLink (running .discard) [.data 1#8] [] []).Runs ∧
      (withLink (running .discard) [.data 1#8] [] []).xc.xst = .discard ∧
      (withLink (running .discard) [.data 1#8] [] []).link.pollAnswer = .data 1#8) ∧
    ((withLink (running .discard) [.err (.code 1)] [] []).Runs ∧
      givesByte (withLink (running .discard) [.err (.code 1)] [] []).link.pollAnswer = false) :=
  ⟨⟨⟨rfl, rfl, .inl (.inl rfl)⟩, rfl, rfl⟩, ⟨rfl, rfl, .inl (.inl rfl)⟩, rfl⟩

/-- A block that writes byte idx of txlen live bytes and gets the answer a. -/
def writing (idx txlen : Byte) (a : SendAnswer) : State :=
  withLink { running .write with xc := { (running .write).xc with idx := idx, txlen := txlen } } [] [a] []

/-- A block that flushes and gets the answer a. -/
def flushing (a : SendAnswer) : State := withLink (running .flush) [] [] [a]

theorem writing_runs (idx txlen : Byte) (a : SendAnswer) : (writing idx txlen a).Runs := ⟨rfl, rfl, .inl (.inl rfl)⟩
theorem flushing_runs (a : SendAnswer) : (flushing a).Runs := ⟨rfl, rfl, .inl (.inl rfl)⟩

theorem witness_SendingHandsTheBytesToTheLink :
    ((writing 66#8 68#8 .ok).Runs ∧ (writing 66#8 68#8 .ok).xc.xst = .write ∧ (writing 66#8 68#8 .ok).xc.idx.toNat < 68 ∧
      (writing 66#8 68#8 .ok).link.writeAnswer = .ok ∧
      (writing 66#8 68#8 .ok).xc.idx + 1#8 ≠ (writing 66#8 68#8 .ok).xc.txlen) ∧
    ((writing 67#8 68#8 .ok).Runs ∧ (writing 67#8 68#8 .ok).xc.idx.toNat < 68 ∧
      (writing 67#8 68#8 .ok).link.writeAnswer = .ok ∧
      (writing 67#8 68#8 .ok).xc.idx + 1#8 = (writing 67#8 68#8 .ok).xc.txlen) ∧
    ((writing 0#8 4#8 .busy).Runs ∧ (writing 0#8 4#8 .busy).link.writeAnswer = .busy) ∧
    ((flushing .ok).Runs ∧ (flushing .ok).xc.xst = .flush ∧ (flushing .ok).link.flushAnswer = .ok) ∧
    ((flushing .busy).Runs ∧ (flushing .busy).xc.xst = .flush ∧ (flushing .busy).link.flushAnswer = .busy) :=
  ⟨⟨writing_runs _ _ _, rfl, by decide, rfl, by decide⟩, ⟨writing_runs _ _ _, by decide, rfl, by decide⟩,
    ⟨writing_runs _ _ _, rfl⟩, ⟨flushing_runs _, rfl, rfl⟩, flushing_runs _, rfl, rfl⟩

/-- A block that reads in state x at index idx of nbody with wb would-blocks counted, and gets the answer a. -/
def reading (x : XState) (idx nbody wb : Byte) (a : PollAnswer) : State :=
  withLink { running x with xc := { (running x).xc with idx := idx, nbody := nbody, wb := wb } } [a] [] []

theorem reading_runs (x : XState) (idx nbody wb : Byte) (a : PollAnswer) : (reading x idx nbody wb a).Runs :=
  ⟨rfl, rfl, .inl (.inl rfl)⟩

theorem witness_ReadingStoresBytesAndCountsGaps :
    ((reading .rdHdr 2#8 0#8 1#8 (.data 7#8)).Runs ∧ (reading .rdHdr 2#8 0#8 1#8 (.data 7#8)).xc.idx.toNat < 3 ∧
      (reading .rdHdr 2#8 0#8 1#8 (.data 7#8)).link.pollAnswer = .data 7#8) ∧
    ((reading .rdBody 62#8 64#8 1#8 (.data 7#8)).Runs ∧
      (reading .rdBody 62#8 64#8 1#8 (.data 7#8)).link.pollAnswer = .data 7#8 ∧
      (reading .rdBody 62#8 64#8 1#8 (.data 7#8)).xc.idx.toNat + 1 <
        (reading .rdBody 62#8 64#8 1#8 (.data 7#8)).xc.nbody.toNat ∧
      (reading .rdBody 62#8 64#8 1#8 (.data 7#8)).xc.nbody.toNat ≤ 64) ∧
    ((reading .rdHdr 0#8 0#8 0#8 .noData).Runs ∧ (reading .rdHdr 0#8 0#8 0#8 .noData).link.pollAnswer = .noData ∧
      (reading .rdHdr 0#8 0#8 0#8 .noData).xc.wb.toNat < 255 ∧
      (reading .rdHdr 0#8 0#8 0#8 .noData).xc.wb.toNat <
        (reading .rdHdr 0#8 0#8 0#8 .noData).params.stallTolerance) :=
  ⟨⟨reading_runs _ _ _ _ _, by decide, rfl⟩, ⟨reading_runs _ _ _ _ _, rfl, by decide, by decide⟩,
    reading_runs _ _ _ _ _, rfl, by decide, by decide⟩

/-- A block that gets the second NoData in a row, in the attempt att of two. -/
def stalling (x : XState) (att : Byte) : State :=
  { reading x 0#8 2#8 1#8 .noData with xc := { (reading x 0#8 2#8 1#8 .noData).xc with att := att } }

theorem witness_StallEndsTheAttempt :
    ((stalling .rdHdr 1#8).Runs ∧ (stalling .rdHdr 1#8).xc.xst = .rdHdr ∧
      (stalling .rdHdr 1#8).link.pollAnswer = .noData ∧ (stalling .rdHdr 1#8).xc.wb.toNat < 255 ∧
      (stalling .rdHdr 1#8).xc.wb.toNat = (stalling .rdHdr 1#8).params.stallTolerance ∧
      1 ≤ (stalling .rdHdr 1#8).xc.att.toNat ∧
      (stalling .rdHdr 1#8).xc.att.toNat < (stalling .rdHdr 1#8).xc.retr.toNat) ∧
    ((stalling .rdBody 2#8).Runs ∧ (stalling .rdBody 2#8).xc.xst = .rdBody ∧
      (stalling .rdBody 2#8).link.pollAnswer = .noData ∧
      (stalling .rdBody 2#8).xc.wb.toNat = (stalling .rdBody 2#8).params.stallTolerance ∧
      (stalling .rdBody 2#8).xc.att = (stalling .rdBody 2#8).xc.retr) :=
  ⟨⟨⟨rfl, rfl, .inl (.inl rfl)⟩, rfl, rfl, by decide, by decide, by decide, by decide⟩, ⟨rfl, rfl, .inl (.inl rfl)⟩, rfl, rfl, by decide, rfl⟩

theorem witness_LinkErrorEndsTheCommand :
    ((writing 67#8 68#8 (.err (.code 1))).Runs ∧ (writing 67#8 68#8 (.err (.code 1))).xc.idx.toNat < 68 ∧
      (writing 67#8 68#8 (.err (.code 1))).link.writeAnswer = .err (.code 1)) ∧
    ((flushing (.err (.code 1))).Runs ∧ (flushing (.err (.code 1))).xc.idx.toNat < 68 ∧
      (flushing (.err (.code 1))).link.flushAnswer = .err (.code 1)) ∧
    ((reading .rdBody 63#8 64#8 0#8 (.err (.code 1))).Runs ∧
      (reading .rdBody 63#8 64#8 0#8 (.err (.code 1))).link.pollAnswer = .err (.code 1)) :=
  ⟨⟨⟨rfl, rfl, .inl (.inl rfl)⟩, by decide, rfl⟩, ⟨⟨rfl, rfl, .inl (.inl rfl)⟩, by decide, rfl⟩, reading_runs _ _ _ _ _, rfl⟩

/-- A block that runs FE state f and gets the last byte of the reply with header h and body byte 4 given. -/
def ending (f : FState) (catt : Byte) (h : Vector Byte 4) (body : List Byte) (x : XState) (idx nbody last : Byte) : State :=
  { reading x idx nbody 0#8 (.data last) with
    fe := { able.fe with state := f, catt := catt, n := 32#8 },
    xc := { (reading x idx nbody 0#8 (.data last)).xc with hdr := h },
    mem := { tx := [], rx := imageFrom 4 body } }

/-- With the last body byte of a reply of one value still to come. -/
def endingBody (f : FState) (catt last : Byte) : State :=
  ending f catt #v[0x01, 0xAA, 0x32, 0x02] [0xFF] .rdBody 1#8 2#8 last

/-- With the last header byte of a bare acknowledgement still to come. -/
def endingHeader (f : FState) (catt last : Byte) : State :=
  ending f catt #v[0x00, 0xDD, 0x32, 0x00] [] .rdHdr 3#8 0#8 last

theorem endingBody_runs (f : FState) (catt last : Byte) :
    (endingBody f catt last).Runs ∧ (endingBody f catt last).link.pollAnswer = .data last ∧
    (endingBody f catt last).LastByteNext 1 :=
  ⟨⟨rfl, rfl, .inl (.inl rfl)⟩, rfl, .inr ⟨by decide, by decide, rfl, rfl, rfl⟩⟩

theorem endingHeader_runs (f : FState) (catt last : Byte) :
    (endingHeader f catt last).Runs ∧ (endingHeader f catt last).link.pollAnswer = .data last ∧
    (endingHeader f catt last).LastByteNext 0 :=
  ⟨⟨rfl, rfl, .inl (.inl rfl)⟩, rfl, .inl ⟨rfl, rfl, rfl, (by decide : countBits 0#8 = 0#8), (by decide : rejected able.params (codeBits 0#8) = false)⟩⟩

theorem witness_LastByteCompletesTheExchange :
    ((reading .rdBody 63#8 64#8 0#8 (.data 7#8)).Runs ∧ (reading .rdBody 63#8 64#8 0#8 (.data 7#8)).fe.state = .idle ∧
      (reading .rdBody 63#8 64#8 0#8 (.data 7#8)).link.pollAnswer = .data 7#8 ∧
      (reading .rdBody 63#8 64#8 0#8 (.data 7#8)).LastByteNext 32) ∧
    ((endingBody .idle 0#8 1#8).fe.state = .idle ∧ (endingBody .idle 0#8 1#8).LastByteNext 1) ∧
    ((endingHeader .idle 0#8 2#8).fe.state = .idle ∧ (endingHeader .idle 0#8 2#8).LastByteNext 0) :=
  ⟨⟨reading_runs _ _ _ _ _, rfl, rfl, .inr ⟨by decide, by decide, rfl, rfl, by decide⟩⟩,
    ⟨rfl, (endingBody_runs _ _ _).2.2⟩, rfl, (endingHeader_runs _ _ _).2.2⟩

/-- The premises of AcceptedReplyAnswersTheRegCommand at a state, the byte to come and the reply's count. -/
abbrev Answered (s : State) (b : Byte) (m : Nat) : Prop :=
  countBits s.xc.hdr[0] = BitVec.ofNat 8 m ∧ rejected s.params (codeBits s.xc.hdr[0]) = false ∧
    crc8 s.params.crcTable (s.receivedWith b) m = s.xc.hdr[1]

/-- With and without a body, in the first and the tenth classification attempt, in each FE state. -/
theorem witness_AcceptedReplyAnswersTheRegCommand :
    ((endingBody .get 1#8 1#8).Runs ∧ (endingBody .get 1#8 1#8).link.pollAnswer = .data 1#8 ∧
      (endingBody .get 1#8 1#8).LastByteNext 1) ∧
    ((endingHeader .get 10#8 2#8).Runs ∧ (endingHeader .get 10#8 2#8).link.pollAnswer = .data 2#8 ∧
      (endingHeader .get 10#8 2#8).LastByteNext 0) ∧
    Answered (endingBody .get 1#8 1#8) 1#8 1 ∧ Answered (endingHeader .get 10#8 2#8) 2#8 0 ∧
    (endingBody .get 1#8 1#8).fe.n.toNat ≤ 32 ∧
    Answered (endingBody .set 10#8 1#8) 1#8 1 ∧ Answered (endingHeader .modWrite 1#8 2#8) 2#8 0 ∧
    Answered (endingBody .modRead 1#8 1#8) 1#8 1 ∧ Answered (endingHeader .modRead 10#8 2#8) 2#8 0 :=
  ⟨endingBody_runs _ _ _, endingHeader_runs _ _ _, by decide +kernel, by decide +kernel, by decide,
    by decide +kernel, by decide +kernel, by decide +kernel, by decide +kernel⟩

/-- The read phase of MODIFY goes on with the write of the modified value: 41 and page, offset, slot 0. -/
theorem test_modRead_accepted :
    of (fun t => (t.fe.state, t.busy, t.res.out[0], (List.range 6).map (t.mem.byte .tx)))
        (step { endingBody .modRead 3#8 1#8 with
          fe := { (endingBody .modRead 3#8 1#8).fe with
            page := 0x32#8, offset := 2#8, clearBits := 0x00FF#16, setBits := 0x0100#16 } }) =
      some (.modWrite, true, 0x01FF#16, [0x41, 0x0B, 0x32, 2, 0x00, 0x01]) := by decide +kernel

/-- A block that has latched the retries r for an exchange. -/
def latched (r : Byte) : State := { able with busy := true, xc := { able.xc with retr := r } }

theorem witness_RequestOpcodesFixTheLiveLength :
    ((latched 1#8).fault = none ∧ (latched 1#8).xc.att = 0#8 ∧ (latched 1#8).xc.retr ≠ 0#8) ∧
    ((latched 0#8).fault = none ∧ (latched 0#8).xc.att = 0#8 ∧ (latched 0#8).xc.retr = 0#8) ∧
    (32#6).toNat ≤ 32 := by decide

/-- A block with the policy p for over-count headers. -/
def withPolicy (p : OvercountPolicy) : State :=
  { running .rdHdr with params := { able.params with overcountPolicy := p } }

theorem witness_SuccessHeaderIsAccepted :
    ((running .rdHdr).fault = none ∧ (running .rdHdr).fe.state = .idle) ∧ (1 ≤ (1#6).toNat ∧ (32#6).toNat ≤ 32) ∧
    (32 < (33#6).toNat ∧ (withPolicy .fault).fault = none ∧ (withPolicy .fault).params.overcountPolicy = .fault) ∧
    (32 < (63#6).toNat ∧ (withPolicy .retry).fault = none ∧ (withPolicy .retry).params.overcountPolicy = .retry) := by
  decide

/-- A block in the attempt att of two whose fault is empty, and which rejects the opcode 0b11 or not. -/
def judging (att : Byte) (reject : Bool) : State :=
  { running .rdHdr with
    xc := { (running .rdHdr).xc with att := att }, params := { able.params with rejectCode3 := reject } }

theorem witness_RejectedHeaderFailsTheAttempt :
    ((judging 1#8 true).fault = none ∧ (judging 1#8 true).params.rejectCode3 = true ∧
      1 ≤ (judging 1#8 true).xc.att.toNat ∧ (judging 1#8 true).xc.att.toNat < (judging 1#8 true).xc.retr.toNat) ∧
    ((judging 2#8 true).fault = none ∧ (judging 2#8 true).xc.att = (judging 2#8 true).xc.retr) ∧
    ((judging 1#8 false).fault = none ∧ (judging 1#8 false).params.rejectCode3 = false) := by decide

/-- A wrong last byte of a reply with a body, and of a bare header. -/
theorem witness_CorruptReplyIsTriedAgainThenGivenUp :
    ((endingBody .get 9#8 0#8).Runs ∧ (endingBody .get 9#8 0#8).link.pollAnswer = .data 0#8 ∧
      (endingBody .get 9#8 0#8).LastByteNext 1) ∧
    ((endingHeader .set 10#8 3#8).Runs ∧ (endingHeader .set 10#8 3#8).link.pollAnswer = .data 3#8 ∧
      (endingHeader .set 10#8 3#8).LastByteNext 0) ∧
    ((endingBody .get 9#8 0#8).fe.state ≠ .idle ∧ countBits (endingBody .get 9#8 0#8).xc.hdr[0] = BitVec.ofNat 8 1 ∧
      crc8 (endingBody .get 9#8 0#8).params.crcTable ((endingBody .get 9#8 0#8).receivedWith 0#8) 1 ≠
        (endingBody .get 9#8 0#8).xc.hdr[1] ∧
      (endingBody .get 9#8 0#8).fe.catt.toNat < 10) ∧
    ((endingHeader .set 10#8 3#8).fe.state ≠ .idle ∧
      countBits (endingHeader .set 10#8 3#8).xc.hdr[0] = BitVec.ofNat 8 0 ∧
      crc8 (endingHeader .set 10#8 3#8).params.crcTable ((endingHeader .set 10#8 3#8).receivedWith 3#8) 0 ≠
        (endingHeader .set 10#8 3#8).xc.hdr[1] ∧
      (endingHeader .set 10#8 3#8).fe.catt = 10#8) :=
  ⟨endingBody_runs _ _ _, endingHeader_runs _ _ _, by decide +kernel, by decide +kernel⟩

theorem witness_GetSendsAReadRequest :
    (withOperands 0#8 32#8).Able ∧ (32#8 = (withOperands 0#8 32#8).regs.n ∧ (withOperands 0#8 32#8).regs.n.toNat ≤ 32) ∧
    able.params.readCrcMode = .zeroPayload ∧
    ({ able with params := { able.params with readCrcMode := .headerOnly } } : State).params.readCrcMode = .headerOnly :=
  ⟨⟨rfl, rfl, rfl⟩, ⟨rfl, by decide⟩, rfl, rfl⟩

theorem witness_SetSendsAWriteRequest :
    (withOperands 0#8 32#8).Able ∧ 32#8 = (withOperands 0#8 32#8).regs.n ∧
    (withOperands 0#8 32#8).regs.n.toNat ≤ 32 := ⟨⟨rfl, rfl, rfl⟩, rfl, by decide⟩

theorem witness_ModifyStartsWithARead : able.Able := able_able

theorem witness_ReadRequestIsABuiltPacket :
    (withOperands 0#8 32#8).Able ∧ (withOperands 0#8 32#8).regs.n.toNat ≤ 32 ∧
    (withOperands 0#8 32#8).params.readCrcMode = .zeroPayload ∧ (withOperands 0#8 32#8).regs.mode = 0x00#8 ∧
    ∀ k (h : k < 32), (withOperands 0#8 32#8).regs.val[k] = 0#16 :=
  ⟨⟨rfl, rfl, rfl⟩, by decide, rfl, rfl, by decide⟩

/-- V-REG-2's reply: success, page 0x32, offset 2, one value 0x01FF. -/
def reply1 : List Byte := [0x01, 0xAA, 0x32, 0x02, 0xFF, 0x01]

/-- The acknowledgement ACK. -/
def ack : List Byte := [0x00, 0xDD, 0x32, 0x02]

theorem goodReply_reply1 : GoodReply able.params reply1 1 :=
  { legal := by decide, length := rfl, byte0 := rfl, crc := by decide +kernel }
theorem goodReply_ack : GoodReply able.params ack 0 :=
  { legal := by decide, length := rfl, byte0 := rfl, crc := by decide +kernel }

/-- A machine whose link takes k bytes and a flush and delivers a reply. -/
def peer (s : State) (k : Nat) (reply : List Byte) : State :=
  withLink s (.noData :: reply.map .data) (List.replicate k .ok) [.ok]

theorem witness_ExchangeDeliversTheReply :
    (peer oneAttempt 68 reply1).Able ∧ oneAttempt.Waits ∧ oneAttempt.regs.retries ≠ 0#8 ∧
    oneAttempt.fe.state = .idle ∧ Image.count oneAttempt.mem.tx ≤ 32 ∧ Reply reply1 1 ∧
    (peer oneAttempt 68 reply1).link.Delivers reply1 [] ∧
    (peer oneAttempt 68 reply1).link.Accepts oneAttempt.params (liveLength (oneAttempt.mem.byte .tx 0)).toNat [] [] :=
  ⟨able_able, .inl rfl, by decide, rfl, by decide, goodReply_reply1.toReply, rfl, rfl, rfl⟩

theorem witness_GetDeliversTheValues :
    (peer (withOperands 0#8 32#8) 4 reply1).Able ∧ (withOperands 0#8 32#8).Waits ∧
    (withOperands 0#8 32#8).regs.n.toNat ≤ 32 ∧ GoodReply able.params reply1 1 ∧
    (peer (withOperands 0#8 32#8) 4 reply1).link.Delivers reply1 [] ∧
    (peer (withOperands 0#8 32#8) 4 reply1).link.Accepts able.params 4 [] [] :=
  ⟨able_able, .inl rfl, by decide, goodReply_reply1, rfl, rfl, rfl⟩

theorem witness_SetIsAcknowledged :
    (peer (withOperands 0#8 32#8) 68 ack).Able ∧ (withOperands 0#8 32#8).Waits ∧
    (withOperands 0#8 32#8).regs.n.toNat ≤ 32 ∧ GoodReply able.params ack 0 ∧
    (peer (withOperands 0#8 32#8) 68 ack).link.Delivers ack [] ∧
    (peer (withOperands 0#8 32#8) 68 ack).link.Accepts able.params (4 + 2 * (32#8).toNat) [] [] :=
  ⟨able_able, .inl rfl, by decide, goodReply_ack, rfl, rfl, rfl⟩

/-- A machine whose link delivers a reply to the read and an acknowledgement to the write of REG.MODIFY. -/
def modifyPeer : State :=
  withLink able (.noData :: (reply1.map .data ++ (.noData :: (ack.map .data ++ [])))) (List.replicate 10 .ok) [.ok, .ok]

theorem witness_ModifyWritesBackTheModifiedValue :
    modifyPeer.Able ∧ modifyPeer.Waits ∧ GoodReply modifyPeer.params reply1 1 ∧ GoodReply modifyPeer.params ack 0 ∧
    modifyPeer.link.poll = .noData :: (reply1.map .data ++ (.noData :: (ack.map .data ++ []))) ∧
    modifyPeer.link.write = List.replicate 10 .ok ++ [] ∧
    modifyPeer.link.flush = (if modifyPeer.params.flushAfterWrite then [.ok, .ok] else []) ++ [] :=
  ⟨able_able, .inl rfl, goodReply_reply1, goodReply_ack, rfl, rfl, rfl⟩

/-- A machine whose link takes everything and never answers. -/
def silentPeer : State :=
  withLink able (List.replicate 30 .noData) (List.replicate 40 .ok) (List.replicate 10 .ok)

theorem witness_SilentLinkEndsGetUnresponsive :
    silentPeer.Able ∧ silentPeer.Waits ∧ silentPeer.regs.n.toNat ≤ 32 ∧ silentPeer.params.stallTolerance ≤ 254 ∧
    silentPeer.link.poll = List.replicate (10 * (silentPeer.params.stallTolerance + 2)) .noData ++ [] ∧
    silentPeer.link.write = List.replicate 40 .ok ++ [] ∧
    silentPeer.link.flush = List.replicate (if silentPeer.params.flushAfterWrite then 10 else 0) .ok ++ [] :=
  ⟨able_able, .inl rfl, by decide, by decide, rfl, rfl, rfl⟩

/-! ### States that meet the invariant -/

theorem able_data : able.DataInv :=
  ⟨rfl, by decide, .inl rfl, by unfold evenIn; decide, by unfold evenIn; decide, by decide, by decide, by decide⟩

/-- A block between commands. -/
theorem able_inv : able.Inv := ⟨able_data, fun h => (by cases h), fun _ _ => ⟨rfl, rfl, rfl⟩⟩

/-- A block that runs XCVR.DISCARD and is about to see the end of the input. -/
def draining : State :=
  withLink { able with busy := true, regs := { able.regs with cmd := 0x11#8 } } [.noData] [] []

theorem draining_runs : draining.Runs := ⟨rfl, rfl, .inl (.inl rfl)⟩

/-- A block that runs a command. -/
theorem draining_inv : draining.Inv :=
  ⟨⟨rfl, by decide, .inl rfl, able_data.txlen, able_data.nbody, by decide, by decide, by decide⟩,
    fun _ => ⟨rfl, rfl, ⟨rfl, rfl⟩, fun h => absurd rfl h, fun h => absurd rfl h, fun h => absurd rfl h, fun _ => rfl⟩,
    fun h => by cases h⟩

/-- The state in which that drain has ended. -/
def drained : State := finish statusOk draining.afterPoll

theorem draining_step : step draining = .next drained := by rw [step_runs draining_runs]; rfl

theorem witness_EveryStepKeepsTheInvariant :
    (able.Inv ∧ step able = .next able) ∧ (draining.Inv ∧ step draining = .next drained) :=
  ⟨⟨able_inv, step_idle rfl rfl rfl⟩, draining_inv, draining_step⟩

theorem witness_SoundBlockAlwaysMoves : draining.Inv ∧ draining.fault = none := ⟨draining_inv, rfl⟩

theorem witness_EveryStepKeepsMemoryCanonical : draining.mem.wf = true ∧ step draining = .next drained :=
  ⟨rfl, draining_step⟩

theorem witness_NoStepChangesTheParameters : step draining = .next drained := draining_step
theorem witness_AStepMakesOneLinkCall : step draining = .next drained ∧ draining.Runs := ⟨draining_step, draining_runs⟩

theorem witness_OperandRegistersDoNotReachARunningCommand :
    draining.regs ≠ able.regs ∧ linkStep draining = .next drained := ⟨by decide, rfl⟩

/-- A step after which the exchange runs on. -/
theorem witness_RunningCommandShowsNoEffect :
    ((running .rdHdr).busy = true ∧ able.busy = false) ∧
    step (withLink (running .discard) [.data 1#8] [] []) = .next (withLink (running .discard) [.data 1#8] [] []).afterPoll ∧
    (withLink (running .discard) [.data 1#8] [] []).afterPoll.busy = true :=
  ⟨by decide, by rw [step_runs ⟨rfl, rfl, .inl (.inl rfl)⟩]; rfl, rfl⟩

theorem witness_AnExchangeNeverWritesTx :
    draining.Runs ∧ draining.fe.state = .idle ∧ step draining = .next drained := ⟨draining_runs, rfl, draining_step⟩

/-- No answer on the way of that drain holds the block. -/
theorem witness_UnheldCommandEnds :
    draining.Inv ∧ draining.busy = true ∧ draining.Waits ∧ draining.params.stallTolerance ≤ 254 ∧
    ∀ k t, draining.after k = some t → t.busy = true → ¬ t.Held := by
  refine ⟨draining_inv, rfl, .inl rfl, by decide, fun k t h hb => ?_⟩
  cases k with
  | zero =>
    cases h
    rintro ⟨b, hb⟩
    cases hb
  | succ k =>
    rw [State.after_succ k draining_step, State.after_idle rfl rfl rfl k] at h
    cases h
    cases hb

/-- A block whose link has nothing to drain and fails the first write. -/
def failing : State := withLink able [.noData] [.err (.code 1)] []

theorem failing_inv : failing.Inv :=
  ⟨⟨rfl, by decide, .inl rfl, able_data.txlen, able_data.nbody, by decide, by decide, by decide⟩,
    fun h => (by cases h), fun _ _ => ⟨rfl, rfl, rfl⟩⟩

/-- The state that an outcome goes on with, or a given one. -/
def goesTo (s : State) : Outcome → State
  | .next t => t
  | .fault _ => s
  | .refused _ => s

/-- REG.MODIFY just issued there: its read is about to be sent. -/
def modifying : State := goesTo able (exec .regModify failing)

/-- The write has failed: the command has ended with COMM. -/
def failed : State := goesTo able (step modifying)

theorem modifying_issued : exec .regModify failing = .next modifying := rfl
theorem modifying_step : step modifying = .next failed := rfl
theorem modifying_write : modifying.xc.xst = .write ∧ modifying.link.writeAnswer ≠ .busy := by decide +kernel
theorem failed_ended : failed.fault = none ∧ failed.busy = false ∧ failed.host = [] := by decide +kernel

/-- REG.MODIFY is issued, and no answer on its way holds the block. -/
theorem witness_CallsOfARegCommandAreBounded :
    failing.Inv ∧ failing.Able ∧ failing.Waits ∧ failing.params.stallTolerance ≤ 254 ∧
    Instr.regModify ∈ [Instr.regGet, .regGet1, .regSet, .regSet1, .regModify] ∧
    exec .regModify failing = .next modifying ∧
    ∀ k u, modifying.after k = some u → u.busy = true → ¬ u.Held := by
  refine ⟨failing_inv, able_able, .inl rfl, by decide, by decide, modifying_issued, fun k u h hb => ?_⟩
  cases k with
  | zero =>
    cases h
    simpa [State.Held, modifying_write.1] using modifying_write.2
  | succ k =>
    rw [State.after_succ k modifying_step,
      State.after_idle failed_ended.1 failed_ended.2.1 failed_ended.2.2 k] at h
    cases h
    rw [failed_ended.2.1] at hb
    cases hb

end Sys2Proof.Tests
end

