-- ==== Sys2Proof/Proofs/Turns.lean ====
section
/-! SUPPORT. What a turn of host and block can do, said once, and the statements about single turns. -/

namespace Sys2Proof.Machine

/-! ### The host's actions -/

/-- The actions that write an operand register (R31): every write but that of CMD. -/
def HostAction.writesOperand : HostAction → Bool
  | .writeMode _ => true
  | .writePage _ => true
  | .writeOffset _ => true
  | .writeN _ => true
  | .writeRetries _ => true
  | .writeClear _ => true
  | .writeSet _ => true
  | .writeVal _ _ => true
  | .writeCmd _ => false
  | .letRun => false
  | .await => false

/-- A turn in which the host writes an operand register is that write, whatever the block does (R263). -/
theorem step_operandWrite {s : State} {a : HostAction} {rest : List HostAction} (hf : s.fault = none)
    (ha : a.writesOperand = true) (hh : s.host = a :: rest) :
    step s = .next { s with regs := writeOperand a s.regs, host := rest } := by
  rw [step, turn, whileSound_none hf, hh]
  cases a with
  | writeCmd w | letRun | await => cases ha
  | _ => rfl

/-- Everything a turn can do: the running command makes a step, an idle block stays as it is, the host issues
a command, or the host writes an operand register. The action taken has left the host's list before. -/
theorem step_next_cases {s t : State} (h : step s = .next t) :
    s.fault = none ∧ ∃ host,
      (s.busy = true ∧ linkStep { s with host := host } = .next t) ∨
      (s.busy = false ∧ t = { s with host := host }) ∨
      (∃ w, issueWord w { s with host := host } = .next t) ∨
      (∃ a, t = { s with regs := writeOperand a s.regs, host := host }) := by
  rw [step, turn] at h
  obtain ⟨hf, h⟩ := whileSound_next h
  have block (host : List HostAction) (hb : blockTurn { s with host := host } = .next t) :
      (s.busy = true ∧ linkStep { s with host := host } = .next t) ∨
        (s.busy = false ∧ t = { s with host := host }) := by
    unfold blockTurn at hb
    split at hb
    · exact .inl ⟨‹_›, hb⟩
    · cases hb
      exact .inr ⟨Bool.eq_false_iff.mpr ‹_›, rfl⟩
  refine ⟨hf, ?_⟩
  split at h
  · next hh =>
    exact ⟨[], (block [] (by rwa [← hh])).imp id .inl⟩
  · next w rest _ => exact ⟨rest, .inr (.inr (.inl ⟨w, h⟩))⟩
  · next rest _ => exact ⟨rest, (block rest h).imp id .inl⟩
  · next rest hh =>
    split at h
    · exact ⟨s.host, .inl ⟨‹_›, h⟩⟩
    · cases h
      exact ⟨rest, .inr (.inl ⟨Bool.eq_false_iff.mpr ‹_›, rfl⟩)⟩
  · next a rest _ _ _ _ =>
    cases h
    exact ⟨rest, .inr (.inr (.inr ⟨a, rfl⟩))⟩

/-- A faulted block issues no command (R36). -/
theorem issue_halted {w : Byte} {ready : Readiness} {s : State} {body : State → State} {r : FaultReason}
    (h : s.fault = some r) : issue w ready s body = .fault (.halted r) := whileSound_some h

/-- A faulted block executes no instruction (R36): a command stops at its issue, a header's opcode as well. -/
theorem exec_halted {s : State} {r : FaultReason} (i : Instr) (h : s.fault = some r) :
    exec i s = .fault (.halted r) := by
  cases i <;> rw [exec]
  case wireReadReq | wireWriteReq | wireRespOk | wireRespCorrupt | wireRespError | wireRespReserved =>
    exact whileSound_some h
  all_goals exact issue_halted h

/-! ### Single turns -/

/-- Settles O1: the reset state is written out field by field, and an image that lists nothing reads 0. -/
theorem resetValues : Obligations.ResetValues :=
  ⟨fun b _ => by cases b <;> rfl, rfl, rfl, rfl, rfl, rfl, rfl, rfl, rfl, rfl⟩

/-- Settles O3: the host's turn hands the byte to the decoder, whose command port is `decodeCommand`. -/
theorem stepRunsTheCommandWritten : Obligations.StepRunsTheCommandWritten := by
  intro s w rest i hf hh hd
  have hd' : decodeCommand w = .ok i := hd
  rw [step_writeCmd hf hh, issueWord, hd']

/-- Settles O6: the turn and every meaning ask for FAULT first. -/
theorem faultedBlockTakesNoStep : Obligations.FaultedBlockTakesNoStep :=
  fun _ _ h => ⟨step_halted h, fun i => exec_halted i h⟩

/-- Settles O7: each clause is the one turn of an operand write. -/
theorem operandWritesWriteOneRegister : Obligations.OperandWritesWriteOneRegister := by
  intro s rest hf
  refine ⟨?mode, ?page, ?offset, ?n, ?retries, ?clear, ?set, ?val⟩
  case val => exact fun i v hh => step_operandWrite hf rfl hh
  all_goals exact fun v hh => step_operandWrite hf rfl hh

/-- Settles O50: nothing runs after reset, so the invariant asks for the data and for the rest state. -/
theorem resetMeetsTheInvariant : Obligations.ResetMeetsTheInvariant where
  data :=
    { memory := Memory.wf_reset
      txCount := by decide
      status := .inl rfl
      txlen := ⟨by decide, by decide, by decide⟩
      nbody := ⟨by decide, by decide, by decide⟩
      idx := by decide
      wb := Nat.zero_le _
      catt := by decide }
  run h := nomatch h
  rest _ _ := ⟨rfl, rfl, rfl⟩

end Sys2Proof.Machine
end

