-- ==== Sys2Proof/Proofs/Surroundings.lean ====
section
/-! SUPPORT. What no update of a running command writes: the parameters, the host's registers and list, READY,
and what the host reads while BUSY = 1. Then what the issue of a command does to these. -/

namespace Sys2Proof.Machine

/-- The part of the state around a running command, which none of its updates writes. -/
structure Surroundings where
  params : Params
  regs : HostRegs
  shown : Readable
  ready : Bool
  host : List HostAction

/-- The surroundings of the running command. -/
def State.surroundings (s : State) : Surroundings where
  params := s.params
  regs := s.regs
  shown := s.shown
  ready := s.ready
  host := s.host

section
variable {s t : State}

theorem params_of_surroundings (h : t.surroundings = s.surroundings) : t.params = s.params :=
  congrArg Surroundings.params h

theorem shown_of_surroundings (h : t.surroundings = s.surroundings) : t.shown = s.shown :=
  congrArg Surroundings.shown h

theorem host_of_surroundings (h : t.surroundings = s.surroundings) : t.host = s.host :=
  congrArg Surroundings.host h

end

/-! ### Single updates -/

section
variable (s : State)

@[simp] theorem setImage_surroundings (b : Buf) (img : Image) :
    (s.setImage b img).surroundings = s.surroundings := rfl
@[simp] theorem afterPoll_surroundings : s.afterPoll.surroundings = s.surroundings := rfl
@[simp] theorem afterWrite_surroundings (b : Byte) : (s.afterWrite b).surroundings = s.surroundings := rfl
@[simp] theorem afterFlush_surroundings : s.afterFlush.surroundings = s.surroundings := rfl
@[simp] theorem raise_surroundings (r : FaultReason) : (raise r s).surroundings = s.surroundings := rfl
@[simp] theorem finish_surroundings (st : Byte) : (finish st s).surroundings = s.surroundings := rfl
@[simp] theorem setErrinfo_surroundings (e : LinkErr) : (setErrinfo e s).surroundings = s.surroundings := rfl
@[simp] theorem setResult_surroundings (v : Byte) : (setResult v s).surroundings = s.surroundings := rfl
@[simp] theorem setFe_surroundings (f : FState) : (setFe f s).surroundings = s.surroundings := rfl
@[simp] theorem setCatt_surroundings (c : Byte) : (setCatt c s).surroundings = s.surroundings := rfl
@[simp] theorem latchOperands_surroundings (n : Byte) :
    (latchOperands n s).surroundings = s.surroundings := rfl
@[simp] theorem copyOut_surroundings (n : Byte) : (copyOut n s).surroundings = s.surroundings := rfl
@[simp] theorem closeExchange_surroundings (st : Byte) :
    (closeExchange st s).surroundings = s.surroundings := rfl
@[simp] theorem beginAttempt_surroundings : (beginAttempt s).surroundings = s.surroundings := rfl
@[simp] theorem enter_surroundings (x : XState) : (enter x s).surroundings = s.surroundings := rfl
@[simp] theorem countWouldBlock_surroundings : (countWouldBlock s).surroundings = s.surroundings := rfl
@[simp] theorem byteRead_surroundings : (byteRead s).surroundings = s.surroundings := rfl
@[simp] theorem storeHdr_surroundings (i : Nat) (b : Byte) :
    (storeHdr i b s).surroundings = s.surroundings := rfl
@[simp] theorem copyHeader_surroundings : (copyHeader s).surroundings = s.surroundings := rfl
@[simp] theorem countStall_surroundings (kind : AttemptFailure) :
    (countStall kind s).surroundings = s.surroundings := by cases kind <;> rfl
@[simp] theorem countCrcFail_surroundings : (countCrcFail s).surroundings = s.surroundings := by
  unfold countCrcFail
  split <;> rfl

/-! ### Packet exchanges and REG commands -/

@[simp] theorem startExchange_surroundings (r : Byte) : (startExchange r s).surroundings = s.surroundings := by
  rw [startExchange, sendRequest_eq]
  split <;> rfl

@[simp] theorem classifyAttempt_surroundings (r : Byte) :
    (classifyAttempt r s).surroundings = s.surroundings := by simp [classifyAttempt]

@[simp] theorem endCommand_surroundings (st : Byte) : (endCommand st s).surroundings = s.surroundings := rfl

@[simp] theorem setBody_surroundings (n : Byte) (values : Nat → RegValue) :
    (setBody n values s).surroundings = s.surroundings := by
  simp [setBody, packetExchange_driver, onReturn]

@[simp] theorem getBody_surroundings (n : Byte) (ret : Byte → State → State) :
    (getBody n ret s).surroundings = s.surroundings := by
  simp [getBody, packetExchange_driver, onReturn]

@[simp] theorem writeBack_surroundings : (writeBack s).surroundings = s.surroundings := by simp [writeBack]

@[simp] theorem getReturn_surroundings (st : Byte) : (getReturn st s).surroundings = s.surroundings := by
  unfold getReturn
  split <;> simp

@[simp] theorem modReadReturn_surroundings (st : Byte) :
    (modReadReturn st s).surroundings = s.surroundings := by
  unfold modReadReturn
  split <;> simp

@[simp] theorem feReturn_surroundings (st : Byte) : (feReturn st s).surroundings = s.surroundings := by
  unfold feReturn
  split <;> simp [setReturn]

@[simp] theorem exchangeReturned_surroundings : (exchangeReturned s).surroundings = s.surroundings := by
  unfold exchangeReturned
  split_ifs <;> simp

/-! ### The ends of an attempt and of an exchange -/

@[simp] theorem endExchange_surroundings (st : Byte) : (endExchange st s).surroundings = s.surroundings := by
  unfold endExchange
  split
  · rfl
  · simp

@[simp] theorem complete_surroundings (m : Byte) : (complete m s).surroundings = s.surroundings := by
  simp [complete]

@[simp] theorem attemptFailed_surroundings (kind : AttemptFailure) :
    (attemptFailed kind s).surroundings = s.surroundings := by
  unfold attemptFailed
  split <;> simp

@[simp] theorem commAbort_surroundings (e : LinkErr) : (commAbort e s).surroundings = s.surroundings := by
  simp [commAbort]

@[simp] theorem acceptHeader_surroundings (m : BitVec 6) :
    (acceptHeader m s).surroundings = s.surroundings := by
  unfold acceptHeader
  split_ifs
  · simp
  · rfl
  · split <;> simp

@[simp] theorem validateHeader_surroundings : (validateHeader s).surroundings = s.surroundings := by
  unfold validateHeader onRespOk onRespCorrupt onRespError onRespReserved
  split_ifs <;> simp

/-! ### The steps of a running command -/

@[simp] theorem drainStep_surroundings : (drainStep s).surroundings = s.surroundings := by
  unfold drainStep
  split <;> rfl

@[simp] theorem discardStep_surroundings : (discardStep s).surroundings = s.surroundings := by
  unfold discardStep
  split <;> rfl

@[simp] theorem firstCall_surroundings : (firstCall s).surroundings = s.surroundings := by
  unfold firstCall
  split <;> simp

@[simp] theorem byteWritten_surroundings : (byteWritten s).surroundings = s.surroundings := by
  unfold byteWritten
  split <;> rfl

@[simp] theorem flushStep_surroundings : (flushStep s).surroundings = s.surroundings := by
  unfold flushStep
  split <;> simp

@[simp] theorem wouldBlock_surroundings : (wouldBlock s).surroundings = s.surroundings := by
  unfold wouldBlock
  split <;> simp

@[simp] theorem headerByte_surroundings (b : Byte) : (headerByte b s).surroundings = s.surroundings := by
  unfold headerByte
  split <;> simp

@[simp] theorem bodyByte_surroundings : (bodyByte s).surroundings = s.surroundings := by
  unfold bodyByte
  split <;> simp

variable {s} {t : State}

theorem writeStep_surroundings (h : writeStep s = .next t) : t.surroundings = s.surroundings := by
  unfold writeStep at h
  split at h
  · cases h
  · split at h <;> cases h <;> simp

theorem rdHdrStep_surroundings (h : rdHdrStep s = .next t) : t.surroundings = s.surroundings := by
  unfold rdHdrStep at h
  split at h
  · split at h <;> cases h
    simp
  all_goals cases h; simp

theorem rdBodyStep_surroundings (h : rdBodyStep s = .next t) : t.surroundings = s.surroundings := by
  unfold rdBodyStep at h
  split at h
  · split at h <;> cases h
    simp
  all_goals cases h; simp

/-- No step of a running command writes its surroundings. -/
theorem linkStep_surroundings (h : linkStep s = .next t) : t.surroundings = s.surroundings := by
  cases hx : s.xc.xst with
  | idle => cases (linkStep_drain hx).symm.trans h; simp
  | discard => cases (linkStep_discard hx).symm.trans h; simp
  | write => exact writeStep_surroundings ((linkStep_write hx).symm.trans h)
  | flush => cases (linkStep_flush hx).symm.trans h; simp
  | rdHdr => exact rdHdrStep_surroundings ((linkStep_rdHdr hx).symm.trans h)
  | rdBody => exact rdBodyStep_surroundings ((linkStep_rdBody hx).symm.trans h)

end

end Sys2Proof.Machine
end

