-- ==== Sys2Proof/Proofs/View.lean ====
section
/-! SUPPORT. What the issue of a command does to the parameters and to what the host reads, and the statements
about every step: the parameters stay, and a running command shows none of its effects. -/

namespace Sys2Proof.Machine

/-- What any issue of a command keeps to: the parameters stay, and a command that runs on was issued to a free
block, whose results and counters the host goes on reading (R60; log 24). -/
structure IssueKeeps (s t : State) : Prop where
  params : t.params = s.params
  shown : t.busy = true → s.busy = false ∧ t.shown = { res := s.res, cnt := s.cnt }

/-- A command that has ended in its own step shows its effects. -/
theorem IssueKeeps.of_ended {s t : State} (hp : t.params = s.params) (hb : t.busy = false) : IssueKeeps s t :=
  ⟨hp, fun h => absurd (hb.symm.trans h) Bool.false_ne_true⟩

/-- A command over the link keeps what stood when BUSY was set. -/
theorem IssueKeeps.of_setBusy {s t : State} (hb : s.busy = false)
    (h : t.surroundings = (setBusy s).surroundings) : IssueKeeps s t :=
  ⟨(params_of_surroundings h).trans rfl, fun _ => ⟨hb, (shown_of_surroundings h).trans rfl⟩⟩

/-- The checks at issue keep to it if the command's own part does. -/
theorem issue_keeps {w : Byte} {r : Readiness} {s t : State} {body : State → State}
    (h : issue w r s body = .next t) (hbody : ∀ u, u.busy = false → IssueKeeps u (body u)) :
    IssueKeeps s t := by
  obtain ⟨-, ⟨-, rfl⟩ | ⟨-, -, -, rfl⟩ | ⟨hb, -, rfl⟩⟩ := issue_next h
  · exact .of_ended rfl rfl
  · exact .of_ended rfl rfl
  · obtain ⟨hp, hs⟩ := hbody (setCmd w s) hb
    exact ⟨hp, hs⟩

theorem issueIllegal_keeps {w : Byte} {s t : State} (h : issueIllegal w s = .next t) : IssueKeeps s t := by
  obtain ⟨-, h⟩ := whileSound_next h
  cases h
  split <;> exact .of_ended rfl rfl

/-! ### The commands' own parts -/

@[simp] theorem setupCall_params (b : Bool) (s : State) : (setupCall b s).params = s.params := by
  unfold setupCall
  split <;> rfl

@[simp] theorem setupCall_busy (b : Bool) (s : State) : (setupCall b s).busy = false := by
  unfold setupCall
  split <;> rfl

theorem runReg_keeps {f : FState} {n : Byte} {body : State → State} {s : State} (hb : s.busy = false)
    (hbody : ∀ u, (body u).surroundings = u.surroundings) : IssueKeeps s (runReg f n body s) :=
  .of_setBusy hb (by simp [runReg, hbody])

/-- A command with a checked operand n faults, or does its part. -/
theorem IssueKeeps.of_counted {s t : State} (h : IssueKeeps s t) :
    IssueKeeps s (if legalN s.regs.n = false then raise .badCount s else t) := by
  split
  · exact .of_ended rfl rfl
  · exact h

/-- Every command that CMD can hold keeps to it. -/
theorem exec_keeps {i : Instr} {s t : State} (hi : i.port = .command) (h : exec i s = .next t) :
    IssueKeeps s t := by
  cases i <;> rw [exec] at h
  case pktDefault | pktClear | pktCheck | pktCount | pktCode =>
    exact issue_keeps h fun u hu => .of_ended rfl hu
  case pktBuild =>
    refine issue_keeps h fun u hu => .of_counted ?_
    split
    · exact .of_ended rfl rfl
    · exact .of_ended rfl hu
  case pktCrc8 => exact issue_keeps h fun u hu => .of_counted (.of_ended rfl hu)
  case xcvrSetup => exact issue_keeps h fun u _ => .of_ended (setupCall_params _ u) (setupCall_busy _ u)
  case drvNew => exact issue_keeps h fun u _ => .of_ended (by simp) (by simp)
  case xcvrDiscard | xcvrExchange => exact issue_keeps h fun u hu => .of_setBusy hu (by simp)
  case regGet =>
    exact issue_keeps h fun u hu => .of_counted (runReg_keeps hu fun v => getBody_surroundings v _ _)
  case regSet =>
    exact issue_keeps h fun u hu => .of_counted (runReg_keeps hu fun v => setBody_surroundings v _ _)
  case regGet1 | regModify => exact issue_keeps h fun u hu => runReg_keeps hu fun v => getBody_surroundings v _ _
  case regSet1 => exact issue_keeps h fun u hu => runReg_keeps hu fun v => setBody_surroundings v _ _
  all_goals cases hi

/-! ### A byte written to CMD -/

theorem pktCommand_port {code : BitVec 7} {b : Buf} {i : Instr} (h : pktCommand code b = some i) :
    i.port = .command := by
  unfold pktCommand at h
  split_ifs at h <;> cases h <;> rfl

theorem plainCommand_port {code : BitVec 7} {i : Instr} (h : plainCommand code = some i) :
    i.port = .command := by
  unfold plainCommand at h
  split_ifs at h <;> cases h <;> rfl

/-- A byte of CMD decodes to an instruction of the command port (R79, R81). -/
theorem decodeCommand_port {w : Byte} {i : Instr} (h : decodeCommand w = .ok i) : i.port = .command := by
  unfold decodeCommand at h
  split at h
  · next hp => cases h; exact pktCommand_port hp
  · split at h
    · cases h
    · next hp =>
      split at h <;> cases h
      exact plainCommand_port hp

theorem issueWord_keeps {w : Byte} {s t : State} (h : issueWord w s = .next t) : IssueKeeps s t := by
  unfold issueWord at h
  split at h
  · next hd => exact exec_keeps (decodeCommand_port hd) h
  · exact issueIllegal_keeps h

/-! ### The statements about every step -/

/-- Settles O54: by the four things a turn can do. -/
theorem noStepChangesTheParameters : Obligations.NoStepChangesTheParameters := by
  intro s t h
  obtain ⟨-, host, ⟨-, h⟩ | ⟨-, rfl⟩ | ⟨w, h⟩ | ⟨a, rfl⟩⟩ := step_next_cases h
  · exact (params_of_surroundings (linkStep_surroundings h)).trans rfl
  · rfl
  · exact (issueWord_keeps h).params
  · rfl

/-- The results and counters that the host reads of a free block are the registers. -/
theorem view_results_free {s : State} (h : s.busy = false) : s.view.results = { res := s.res, cnt := s.cnt } := by
  simp [State.view, h]

/-- While a command runs the host reads what was kept at its issue (log 24). -/
theorem view_results_busy {s : State} (h : s.busy = true) : s.view.results = s.shown := by
  simp [State.view, h]

/-- Settles O57: a running command's step leaves `shown` alone, and a command's issue fills it with what the
host read before. -/
theorem runningCommandShowsNoEffect : Obligations.RunningCommandShowsNoEffect := by
  refine ⟨fun s => ⟨rfl, rfl, view_results_free⟩, fun s t h ht => ?_⟩
  obtain ⟨-, host, ⟨hb, h⟩ | ⟨hb, rfl⟩ | ⟨w, h⟩ | ⟨a, rfl⟩⟩ := step_next_cases h
  · rw [view_results_busy ht, view_results_busy hb, shown_of_surroundings (linkStep_surroundings h)]
  · rfl
  · obtain ⟨hb, hs⟩ := (issueWord_keeps h).shown ht
    have hfree : s.busy = false := hb
    rw [view_results_busy ht, hs, view_results_free hfree]
  · rfl

end Sys2Proof.Machine
end

