-- ==== Sys2Proof/Proofs/RunningCommand.lean ====
section
/-! SUPPORT. What a running command keeps and how many link calls it has left, followed through every update that
the transceiver and the front end chain into a step: one lemma for each update, stating both. -/

namespace Sys2Proof.Machine

/-! ### Bytes that count -/

theorem toNat_add_one {b : Byte} (h : b.toNat < 255) : (b + 1#8).toNat = b.toNat + 1 := by
  rw [BitVec.toNat_add]
  exact Nat.mod_eq_of_lt (Nat.succ_lt_succ h)

theorem toNat_add_one_le (b : Byte) : (b + 1#8).toNat ≤ b.toNat + 1 := by
  rw [BitVec.toNat_add]
  exact Nat.mod_le _ _

theorem toNat_lt_of_le_of_ne {a b : Byte} (h : a.toNat ≤ b.toNat) (hne : a ≠ b) : a.toNat < b.toNat :=
  lt_of_le_of_ne h fun he => hne (BitVec.eq_of_toNat_eq he)

/-! ### The parts of the bound on link calls -/

/-- The calls that the front end can still ask for once the exchange under way has ended: the write phase of
MODIFY and the classification attempts left (R191, R198). -/
def State.frontCalls (s : State) : Nat :=
  (if s.fe.state = .modRead then 100 * attemptCalls s.params.stallTolerance else 0) +
    (if s.fe.state = .idle then 0 else (10 - s.fe.catt.toNat) * (10 * attemptCalls s.params.stallTolerance))

/-- The calls that can still follow once the attempt under way has ended: those of the attempts left of the
exchange, and the front end's. -/
def State.laterCalls (s : State) : Nat :=
  s.frontCalls + (s.xc.retr.toNat - s.xc.att.toNat) * attemptCalls s.params.stallTolerance

theorem State.callsLeft_eq (s : State) : s.callsLeft = s.laterCalls + s.attemptLeft := rfl

/-- The invariant holds, and a command that still runs has at most n link calls left. -/
structure State.Within (n : Nat) (s : State) : Prop where
  inv : s.Inv
  calls : s.busy = true → s.callsLeft ≤ n

theorem State.Within.mono {n m : Nat} {s : State} (h : s.Within n) (hnm : n ≤ m) : s.Within m :=
  ⟨h.inv, fun hb => (h.calls hb).trans hnm⟩

/-- A command that has ended has no calls left. -/
theorem State.Within.of_ended {n : Nat} {s : State} (hd : s.DataInv) (hb : s.busy = false)
    (hr : s.fault = none → s.RestInv) : s.Within n :=
  ⟨⟨hd, fun h => absurd (hb.symm.trans h) Bool.false_ne_true, fun _ => hr⟩,
    fun h => absurd (hb.symm.trans h) Bool.false_ne_true⟩

/-! ### A REG command between two exchanges -/

/-- A REG command between two exchanges: one has ended, and the front end decides how to go on (R191). -/
structure State.Between (s : State) : Prop where
  data : s.DataInv
  busy : s.busy = true
  sound : s.fault = none
  ready : s.ready = true
  closed : s.xc.xst = .idle
  reg : s.fe.state ≠ .idle
  operand : s.fe.n.toNat ≤ capacity

namespace State.Between
variable {s : State}

/-! Updates that the front end makes between two exchanges. -/

theorem setCatt (h : s.Between) : (setCatt 0#8 s).Between :=
  { h with data := { h.data with catt := Nat.zero_le _ } }

theorem copyOut (h : s.Between) (n : Byte) : (copyOut n s).Between := { h with data := { h.data with } }

theorem setFe (h : s.Between) {f : FState} (hf : f ≠ .idle) : (setFe f s).Between :=
  { h with data := { h.data with }, reg := hf }

theorem countCrcFail (h : s.Between) : (countCrcFail s).Between := by
  unfold Machine.countCrcFail
  split
  · exact h
  · exact { h with data := { h.data with } }

theorem setTx (h : s.Between) {img : Image} (hi : Image.wf img = true) (hc : Image.count img ≤ capacity) :
    (s.setImage .tx img).Between :=
  { h with data := { h.data with memory := Memory.wf_setImage .tx h.data.memory hi, txCount := hc } }

/-- The end of a REG command leaves the block at rest. -/
theorem endCommand (h : s.Between) (hc : s.fe.catt = 0#8) {st : Byte} (hst : statusWritten st) (n : Nat) :
    (endCommand st s).Within n :=
  .of_ended { h.data with status := hst } rfl fun _ => ⟨h.closed, rfl, hc⟩

/-- A classification attempt takes one of those left, and no more than its calls (R191). -/
theorem classifyAttempt (h : s.Between) (hc : s.fe.catt.toNat < 10) :
    (classifyAttempt driverRetries s).Within s.frontCalls := by
  have hcatt : (s.fe.catt + 1#8).toNat = s.fe.catt.toNat + 1 := toNat_add_one (by omega)
  rw [classifyAttempt_driver]
  refine
    ⟨⟨?data, fun _ => ?run, fun hb => absurd (h.busy.symm.trans hb) Bool.false_ne_true.symm⟩,
      fun _ => ?calls⟩
  case data =>
    exact
      { h.data with
        memory := Memory.wf_setImage .rx h.data.memory (Image.wf_clear _ (Memory.wf_image .rx h.data.memory))
        txlen := evenIn_liveLength h.data.txCount
        idx := Nat.zero_le _
        wb := Nat.zero_le _
        catt := hcatt.trans_le hc }
  case run =>
    exact
      { sound := h.sound
        ready := h.ready
        xcvr := rfl
        attempts := fun _ => show 1 ≤ (1#8).toNat ∧ (1#8).toNat ≤ driverRetries.toNat by decide
        wb := fun _ => Nat.zero_le _
        front := fun _ => ⟨nofun, rfl, hcatt ▸ Nat.le_add_left _ _, h.operand⟩
        raw := fun hi => absurd hi h.reg }
  case calls =>
    have hleft : 10 - s.fe.catt.toNat = 10 - (s.fe.catt.toNat + 1) + 1 := by omega
    simp only [State.callsLeft, State.attemptLeft, State.frontCalls, if_neg h.reg, hcatt, hleft, Nat.add_one_mul,
      driverRetries, BitVec.toNat_ofNat]
    omega

/-- The WRITE request of a REG command goes out in the first of ten classification attempts (R196). -/
theorem setBody (h : s.Between) {n : Byte} (hn : n.toNat ≤ 32) (values : Nat → RegValue) :
    (setBody n values s).Within (Machine.setCatt 0#8 s).frontCalls := by
  have hcount : Image.count (buildImage s.params s.mem.tx modeWrite s.fe.page s.fe.offset n values) ≤ capacity := by
    rw [Image.count, (packet_buildImage _ _ _ _ _ _ _ hn).byte0, countOf_or hn (by decide)]
    exact hn
  have htx := h.setTx (Image.wf_build _ _ _ _ _ _ (Memory.wf_image .tx h.data.memory)) hcount
  exact htx.setCatt.classifyAttempt (show (0#8).toNat < 10 by decide)

/-- The write phase of MODIFY has the calls that were kept for it (R198). -/
theorem writeBack (h : s.Between) :
    (writeBack s).Within (100 * attemptCalls s.params.stallTolerance) :=
  ((h.setFe (f := .modWrite) nofun).setBody (n := 1#8) (by decide) _).mono
    (by simp [State.frontCalls]; omega)

/-- What a REG command does with the status of its packet exchange keeps to the calls left to the front end. -/
theorem feReturn (h : s.Between) {st : Byte} (hst : statusWritten st) : (feReturn st s).Within s.frontCalls := by
  unfold Machine.feReturn
  split
  case h_1 hi => exact absurd hi h.reg
  case h_2 =>
    unfold getReturn
    split
    · exact (h.setCatt.copyOut _).endCommand rfl hst _
    · exact h.setCatt.endCommand rfl hst _
  case h_4 hm =>
    unfold modReadReturn
    split
    · exact (h.setCatt.copyOut _).writeBack.mono (by simp [State.frontCalls, hm])
    · exact h.setCatt.endCommand rfl hst _
  all_goals exact h.setCatt.endCommand rfl hst _

/-- An exchange inside a packet exchange has returned: the packet exchange returns or makes its next attempt. -/
theorem exchangeReturned (h : s.Between) : (exchangeReturned s).Within s.frontCalls := by
  have hfront : (Machine.countCrcFail s).frontCalls = s.frontCalls := by
    unfold Machine.countCrcFail
    split <;> rfl
  have hcatt : (Machine.countCrcFail s).fe = s.fe := by
    unfold Machine.countCrcFail
    split <;> rfl
  unfold Machine.exchangeReturned
  split
  · rw [← hfront]
    split
    · exact h.countCrcFail.feReturn (.inl rfl)
    · split
      · exact h.countCrcFail.feReturn (.inr (.inr (.inl rfl)))
      · next hlast =>
        exact h.countCrcFail.classifyAttempt (hcatt ▸ toNat_lt_of_le_of_ne h.data.catt hlast)
  · exact h.feReturn h.data.status

end State.Between

/-! ### An exchange under way -/

/-- An exchange under way, whatever the phase of its attempt: what `State.RunInv` says without XST and WB. -/
structure State.UnderWay (s : State) : Prop where
  data : s.DataInv
  busy : s.busy = true
  sound : s.fault = none
  ready : s.ready = true
  attempts : 1 ≤ s.xc.att.toNat ∧ s.xc.att.toNat ≤ s.xc.retr.toNat
  front : s.fe.state ≠ .idle →
    s.xc.retr = driverRetries ∧ 1 ≤ s.fe.catt.toNat ∧ s.fe.n.toNat ≤ capacity
  raw : s.fe.state = .idle → s.fe.catt = 0#8

/-- A running command whose XST is not IDLE has an exchange under way. -/
theorem State.Inv.underWay {s : State} (h : s.Inv) (hb : s.busy = true) (hx : s.xc.xst ≠ .idle) :
    s.UnderWay :=
  have hr := h.run hb
  { data := h.data, busy := hb, sound := hr.sound, ready := hr.ready, attempts := hr.attempts hx,
    front := fun hf => (hr.front hf).2, raw := hr.raw }

namespace State.UnderWay
variable {s : State}

/-- An exchange under way meets the invariant when XST's own part does and WB is within the tolerance. -/
theorem inv (h : s.UnderWay) (hi : s.xc.xst ≠ .idle) (hx : s.XcvrInv)
    (hw : s.xc.wb.toNat ≤ s.params.stallTolerance) : s.Inv where
  data := h.data
  run _ :=
    { sound := h.sound, ready := h.ready, xcvr := hx, attempts := fun _ => h.attempts, wb := fun _ => hw,
      front := fun hf => ⟨hi, h.front hf⟩, raw := h.raw }
  rest hb := absurd (h.busy.symm.trans hb) Bool.false_ne_true.symm

/-! Updates within an exchange, none of which ends it. -/

theorem afterPoll (h : s.UnderWay) : s.afterPoll.UnderWay := { h with data := { h.data with } }

theorem afterWrite (h : s.UnderWay) (b : Byte) : (s.afterWrite b).UnderWay :=
  { h with data := { h.data with } }

theorem afterFlush (h : s.UnderWay) : s.afterFlush.UnderWay := { h with data := { h.data with } }

theorem setErrinfo (h : s.UnderWay) (e : LinkErr) : (setErrinfo e s).UnderWay :=
  { h with data := { h.data with } }

theorem setResult (h : s.UnderWay) (v : Byte) : (setResult v s).UnderWay :=
  { h with data := { h.data with } }

theorem storeHdr (h : s.UnderWay) (i : Nat) (b : Byte) : (storeHdr i b s).UnderWay :=
  { h with data := { h.data with } }

theorem countStall (h : s.UnderWay) (kind : AttemptFailure) : (countStall kind s).UnderWay := by
  cases kind
  case stall => exact { h with data := { h.data with } }
  all_goals exact h

theorem setRx (h : s.UnderWay) {img : Image} (hi : Image.wf img = true) : (s.setImage .rx img).UnderWay :=
  { h with data := { h.data with memory := Memory.wf_setImage .rx h.data.memory hi } }

theorem copyHeader (h : s.UnderWay) : (copyHeader s).UnderWay :=
  h.setRx (Image.wf_set _ _ (Image.wf_set _ _ (Image.wf_set _ _ (Image.wf_set _ _
    (Memory.wf_image .rx h.data.memory)))))

theorem enter (h : s.UnderWay) (x : XState) : (enter x s).UnderWay :=
  { h with data := { h.data with idx := Nat.zero_le _ } }

theorem byteRead (h : s.UnderWay) (hi : s.xc.idx.toNat < 68) : (byteRead s).UnderWay :=
  { h with data := { h.data with idx := (toNat_add_one_le _).trans hi, wb := Nat.zero_le _ } }

theorem countWouldBlock (h : s.UnderWay) (hw : s.xc.wb.toNat ≤ s.params.stallTolerance) :
    (countWouldBlock s).UnderWay :=
  { h with data := { h.data with wb := (toNat_add_one_le _).trans (Nat.add_le_add_right hw 1) } }

/-- The end of an exchange ends the command, or the front end goes on (R152 to R154, R191). -/
theorem endExchange (h : s.UnderWay) {st : Byte} (hst : statusWritten st) :
    (endExchange st s).Within s.frontCalls := by
  by_cases hf : s.fe.state = .idle
  · rw [endExchange_raw st hf]
    exact .of_ended { h.data with status := hst } rfl fun _ => ⟨rfl, hf, h.raw hf⟩
  · rw [endExchange_reg st hf]
    have hb : (closeExchange st s).Between :=
      { data := { h.data with status := hst }, busy := h.busy, sound := h.sound, ready := h.ready, closed := rfl,
        reg := hf, operand := (h.front hf).2.2 }
    exact hb.exchangeReturned

theorem complete (h : s.UnderWay) (m : Byte) : (complete m s).Within s.laterCalls :=
  ((h.copyHeader.setResult _).endExchange (.inl rfl)).mono (Nat.le_add_right _ _)

theorem commAbort (h : s.UnderWay) (e : LinkErr) : (commAbort e s).Within s.laterCalls :=
  ((h.setErrinfo e).endExchange (.inr (.inl rfl))).mono (Nat.le_add_right _ _)

/-- The next attempt of an exchange takes one of those left, and no more than its calls (R144). -/
theorem beginAttempt (h : s.UnderWay) (hlast : s.xc.att ≠ s.xc.retr) :
    (beginAttempt s).Within s.laterCalls := by
  have hlt := toNat_lt_of_le_of_ne h.attempts.2 hlast
  have hatt : (s.xc.att + 1#8).toNat = s.xc.att.toNat + 1 := toNat_add_one (by have := s.xc.retr.isLt; omega)
  have hnext : (Machine.beginAttempt s).UnderWay :=
    { h with
      data := { h.data with idx := Nat.zero_le _, wb := Nat.zero_le _ }
      attempts := by simp only [beginAttempt_att, beginAttempt_retr, hatt]; omega }
  refine ⟨hnext.inv nofun rfl (Nat.zero_le _), fun _ => ?_⟩
  have hleft : s.xc.retr.toNat - s.xc.att.toNat = s.xc.retr.toNat - (s.xc.att.toNat + 1) + 1 := by omega
  simp only [State.callsLeft_eq, State.laterCalls, State.frontCalls, State.attemptLeft, beginAttempt_fe,
    beginAttempt_params, beginAttempt_xst, beginAttempt_att, beginAttempt_retr, hatt, hleft, Nat.add_one_mul]
  omega

/-- A failed attempt ends the exchange or is followed by the next one (R153). -/
theorem attemptFailed (h : s.UnderWay) (kind : AttemptFailure) :
    (attemptFailed kind s).Within s.laterCalls := by
  have hlater : (Machine.countStall kind s).laterCalls = s.laterCalls := by cases kind <;> rfl
  have hxc : (Machine.countStall kind s).xc = s.xc := by cases kind <;> rfl
  rw [← hlater]
  by_cases hlast : s.xc.att = s.xc.retr
  · rw [attemptFailed_last hlast]
    exact ((h.countStall kind).endExchange (.inr (.inr (.inr rfl)))).mono (Nat.le_add_right _ _)
  · rw [attemptFailed_more hlast]
    exact (h.countStall kind).beginAttempt (hxc ▸ hlast)

/-- A header with an accepted opcode: a body of 2m bytes follows, the reply is complete, or its count is too
high (R150). -/
theorem acceptHeader (h : s.UnderWay) (hw : s.xc.wb = 0#8) (m : BitVec 6) :
    (acceptHeader m s).Within (s.laterCalls + 64 * (s.params.stallTolerance + 1)) := by
  unfold Machine.acceptHeader
  split_ifs with hm hz
  · exact (h.complete _).mono (Nat.le_add_right _ _)
  · have hnbody : (2#8 * m.zeroExtend 8).toNat = 2 * m.toNat := by
      simp only [capacity] at hm
      simp only [BitVec.toNat_mul, BitVec.toNat_setWidth, BitVec.toNat_ofNat]
      omega
    have hpos : 0 < m.toNat := Nat.pos_of_ne_zero fun he => hz (BitVec.eq_of_toNat_eq he)
    refine ⟨UnderWay.inv ?_ nofun ?_ ?_, fun _ => ?_⟩
    · exact
        { h with
          data :=
            { h.data with
              idx := Nat.zero_le _
              nbody := by simp only [evenIn, hnbody, capacity] at hm ⊢; omega } }
    · show 0 < (2#8 * m.zeroExtend 8).toNat
      omega
    · exact (congrArg BitVec.toNat hw).trans_le (Nat.zero_le _)
    · exact Nat.add_le_add_left (Nat.sub_le _ _) _
  · split
    · exact (h.attemptFailed _).mono (Nat.le_add_right _ _)
    · exact .of_ended { h.data with } rfl nofun

/-- ValidateHeader (R150), whatever the opcode. -/
theorem validateHeader (h : s.UnderWay) (hw : s.xc.wb = 0#8) :
    (validateHeader s).Within (s.laterCalls + 64 * (s.params.stallTolerance + 1)) := by
  have hreject := (h.attemptFailed .reject).mono (Nat.le_add_right _ (64 * (s.params.stallTolerance + 1)))
  unfold Machine.validateHeader
  split_ifs
  · exact h.acceptHeader hw _
  · exact hreject
  · exact hreject
  · unfold onRespReserved
    split
    · exact hreject
    · exact h.acceptHeader hw _

end State.UnderWay

end Sys2Proof.Machine
end

