-- ==== Sys2Proof/Proofs/Termination.lean ====
section
/-! SUPPORT. Every step of a running command goes on, keeps the invariant and, unless the link holds it, has
fewer link calls left; so a command that is never held ends. -/

namespace Sys2Proof.Machine

section
variable {s t : State}

/-! ### The phases of an attempt -/

theorem xcvrInv_write (hx : s.xc.xst = .write) : s.XcvrInv ↔ s.xc.idx.toNat < s.xc.txlen.toNat := by
  simp [State.XcvrInv, hx]

theorem xcvrInv_rdHdr (hx : s.xc.xst = .rdHdr) : s.XcvrInv ↔ s.xc.idx.toNat < 4 := by
  simp [State.XcvrInv, hx]

theorem xcvrInv_rdBody (hx : s.xc.xst = .rdBody) : s.XcvrInv ↔ s.xc.idx.toNat < s.xc.nbody.toNat := by
  simp [State.XcvrInv, hx]

theorem attemptLeft_discard (hx : s.xc.xst = .discard) :
    s.attemptLeft = attemptCalls s.params.stallTolerance := by simp [State.attemptLeft, hx]

theorem attemptLeft_write (hx : s.xc.xst = .write) :
    s.attemptLeft = (68 - s.xc.idx.toNat) + 1 + 68 * (s.params.stallTolerance + 1) := by
  simp [State.attemptLeft, hx]

theorem attemptLeft_flush (hx : s.xc.xst = .flush) :
    s.attemptLeft = 1 + 68 * (s.params.stallTolerance + 1) := by simp [State.attemptLeft, hx]

theorem attemptLeft_rdHdr (hx : s.xc.xst = .rdHdr) :
    s.attemptLeft = (68 - s.xc.idx.toNat) * (s.params.stallTolerance + 1) - s.xc.wb.toNat := by
  simp [State.attemptLeft, hx]

theorem attemptLeft_rdBody (hx : s.xc.xst = .rdBody) :
    s.attemptLeft = (64 - s.xc.idx.toNat) * (s.params.stallTolerance + 1) - s.xc.wb.toNat := by
  simp [State.attemptLeft, hx]

/-! ### Calls left while bytes are read -/

/-- With a byte still to come, w would-blocks within the tolerance do not use up its calls. -/
theorem readLeft_pos {L i w T : Nat} (hi : i < L) (hw : w ≤ T) : 0 < (L - i) * (T + 1) - w := by
  have hone : 1 * (T + 1) ≤ (L - i) * (T + 1) := Nat.mul_le_mul_right _ (by omega)
  omega

/-- A byte received uses up its calls, those of the would-blocks before it too. -/
theorem readLeft_byte {L i w T : Nat} (hi : i < L) (hw : w ≤ T) :
    (L - (i + 1)) * (T + 1) < (L - i) * (T + 1) - w := by
  have hnext : L - i = L - (i + 1) + 1 := by omega
  rw [hnext, Nat.add_one_mul]
  omega

/-! ### The steps -/

/-- A state that may follow s by a step of the running command: the invariant holds again, and if s was not held
there and the command still runs, it has fewer link calls left. -/
structure State.Follows (s t : State) : Prop where
  inv : t.Inv
  calls : ¬ s.Held → s.params.stallTolerance ≤ 254 → t.busy = true → t.callsLeft < s.callsLeft

/-- A step that the link holds may leave everything as it was. -/
theorem State.Follows.of_held (hi : t.Inv) (hh : s.Held) : s.Follows t := ⟨hi, fun hn => absurd hh hn⟩

/-- A step within the attempt. -/
theorem State.Follows.of_attempt (hi : t.Inv) (hl : t.laterCalls = s.laterCalls)
    (ha : t.attemptLeft < s.attemptLeft) : s.Follows t :=
  ⟨hi, fun _ _ _ => by rw [State.callsLeft_eq, State.callsLeft_eq, hl]; exact Nat.add_lt_add_left ha _⟩

/-- A step that leaves at most n calls of the attempt. -/
theorem State.Follows.of_within {n : Nat} (h : t.Within (s.laterCalls + n)) (hn : n < s.attemptLeft) :
    s.Follows t :=
  ⟨h.inv, fun _ _ hb => (h.calls hb).trans_lt (Nat.add_lt_add_left hn _)⟩

theorem State.Inv.afterPoll (h : s.Inv) : s.afterPoll.Inv :=
  ⟨{ h.data with }, fun hb => { h.run hb with }, fun hb hf => { h.rest hb hf with }⟩

/-- A step of XCVR.DISCARD ends the command unless a byte arrives (R142). -/
theorem drainStep_follows (hI : s.Inv) (hb : s.busy = true) (hx : s.xc.xst = .idle) :
    s.Follows (drainStep s) := by
  obtain ⟨b, hp, he⟩ | ⟨-, he⟩ := drainStep_cases s
  · rw [he]
    exact .of_held hI.afterPoll (by simp [State.Held, hx, hp])
  · have hr := hI.run hb
    have hfe : s.fe.state = .idle := by
      by_contra hf
      exact (hr.front hf).1 hx
    rw [he]
    exact .of_within (n := 0)
      (.of_ended { hI.data with status := .inl rfl } rfl fun _ => ⟨hx, hfe, hr.raw hfe⟩)
      (by simp [State.attemptLeft, hx])

/-- A drain step of an attempt goes on to WRITE unless a byte arrives (R145). -/
theorem discardStep_follows (hI : s.Inv) (hb : s.busy = true) (hx : s.xc.xst = .discard) :
    s.Follows (discardStep s) := by
  have hne : s.xc.xst ≠ .idle := by simp [hx]
  have hu := hI.underWay hb hne
  obtain ⟨b, hp, he⟩ | ⟨-, he⟩ := discardStep_cases s
  · rw [he]
    exact .of_held hI.afterPoll (by simp [State.Held, hx, hp])
  · have htx : 4 ≤ s.xc.txlen.toNat := hu.data.txlen.1
    have hpos : 0 < s.xc.txlen.toNat := by omega
    rw [he]
    refine .of_attempt ((hu.afterPoll.enter .write).inv nofun hpos ((hI.run hb).wb hne)) rfl ?_
    rw [attemptLeft_discard hx, attemptLeft_write rfl]
    simp [attemptCalls]

/-- A written byte moves on within the live bytes, or to the next phase after the last (R146). -/
theorem byteWritten_follows {b : Byte} (hI : s.Inv) (hb : s.busy = true) (hx : s.xc.xst = .write) :
    s.Follows (byteWritten (s.afterWrite b)) := by
  have hne : s.xc.xst ≠ .idle := by simp [hx]
  have hu := (hI.underWay hb hne).afterWrite b
  have hw := (hI.run hb).wb hne
  have hi : s.xc.idx.toNat < s.xc.txlen.toNat := (xcvrInv_write hx).1 (hI.run hb).xcvr
  have htx : s.xc.txlen.toNat ≤ 68 := hI.data.txlen.2.1
  unfold byteWritten
  split
  · unfold afterLastByte
    split
    · refine .of_attempt ((hu.enter .flush).inv nofun rfl hw) rfl ?_
      rw [attemptLeft_write hx, attemptLeft_flush rfl]
      simp only [enter_params, State.afterWrite_params]
      omega
    · refine .of_attempt ((hu.enter .rdHdr).inv nofun (show (0#8).toNat < 4 by decide) hw) rfl ?_
      rw [attemptLeft_write hx, attemptLeft_rdHdr rfl]
      simp only [enter_params, State.afterWrite_params, enter_xc_idx, BitVec.toNat_ofNat, Nat.zero_mod]
      omega
  · next hlast =>
    have hidx : (s.xc.idx + 1#8).toNat = s.xc.idx.toNat + 1 := toNat_add_one (by omega)
    have hnext : (s.xc.idx + 1#8).toNat < s.xc.txlen.toNat :=
      toNat_lt_of_le_of_ne (hidx.trans_le hi) hlast
    refine .of_attempt (State.UnderWay.inv ?_ hne (Iff.mpr (xcvrInv_write hx) hnext) hw) rfl ?_
    · exact { hu with data := { hu.data with idx := (hnext.trans_le htx).le } }
    · rw [attemptLeft_write hx]
      refine lt_of_eq_of_lt (attemptLeft_write hx) ?_
      simp only [State.afterWrite_params, State.afterWrite_xc, hidx]
      omega

/-- A step in WRITE (R146, R147). -/
theorem writeStep_follows (hI : s.Inv) (hb : s.busy = true) (hx : s.xc.xst = .write) :
    ∃ t, writeStep s = .next t ∧ s.Follows t := by
  have hne : s.xc.xst ≠ .idle := by simp [hx]
  have hu := hI.underWay hb hne
  have hi : s.xc.idx.toNat < s.xc.txlen.toNat := (xcvrInv_write hx).1 (hI.run hb).xcvr
  have htx : s.xc.txlen.toNat ≤ 68 := hI.data.txlen.2.1
  obtain ⟨-, he⟩ | ⟨ha, he⟩ | ⟨e, -, he⟩ := writeStep_cases (s := s) (hi.trans_le htx)
  · exact ⟨_, he, byteWritten_follows hI hb hx⟩
  · refine ⟨_, he, .of_held ((hu.afterWrite _).inv hne ?_ ((hI.run hb).wb hne)) ?_⟩
    · exact (xcvrInv_write hx).2 hi
    · simp [State.Held, hx, ha]
  · refine ⟨_, he, .of_within (n := 0) ((hu.afterWrite _).commAbort e) ?_⟩
    rw [attemptLeft_write hx]
    omega

/-- A step in FLUSH (R147, R148). -/
theorem flushStep_follows (hI : s.Inv) (hb : s.busy = true) (hx : s.xc.xst = .flush) :
    s.Follows (flushStep s) := by
  have hne : s.xc.xst ≠ .idle := by simp [hx]
  have hu := (hI.underWay hb hne).afterFlush
  have hw := (hI.run hb).wb hne
  unfold flushStep
  split
  case h_1 =>
    refine .of_attempt ((hu.enter .rdHdr).inv nofun (show (0#8).toNat < 4 by decide) hw) rfl ?_
    rw [attemptLeft_flush hx, attemptLeft_rdHdr rfl]
    simp only [enter_params, State.afterFlush_params, enter_xc_idx, BitVec.toNat_ofNat, Nat.zero_mod]
    omega
  case h_2 ha => exact .of_held (hu.inv hne (hI.run hb).xcvr hw) (by simp [State.Held, hx, ha])
  case h_3 e _ =>
    refine .of_within (n := 0) (hu.commAbort e) ?_
    rw [attemptLeft_flush hx]
    omega

/-- A step that reads never uses up the calls of the attempt before the byte it waits for. -/
theorem attemptLeft_pos_of_reading (hI : s.Inv) (hb : s.busy = true)
    (hx : s.xc.xst = .rdHdr ∨ s.xc.xst = .rdBody) : 0 < s.attemptLeft := by
  have hr := hI.run hb
  obtain hx | hx := hx <;> have hw := hr.wb (by simp [hx])
  · have hi : s.xc.idx.toNat < 4 := (xcvrInv_rdHdr hx).1 hr.xcvr
    exact attemptLeft_rdHdr hx ▸ readLeft_pos (by omega) hw
  · have hi : s.xc.idx.toNat < s.xc.nbody.toNat := (xcvrInv_rdBody hx).1 hr.xcvr
    have hn : s.xc.nbody.toNat ≤ 64 := hI.data.nbody.2.1
    exact attemptLeft_rdBody hx ▸ readLeft_pos (by omega) hw

/-- A would-block that is only counted uses up one call. -/
theorem attemptLeft_countWouldBlock (hx : s.xc.xst = .rdHdr ∨ s.xc.xst = .rdBody)
    (hwb : (s.xc.wb + 1#8).toNat = s.xc.wb.toNat + 1) (hpos : 0 < s.attemptLeft) :
    (countWouldBlock s).attemptLeft < s.attemptLeft := by
  obtain hx | hx := hx
  all_goals
    simp only [State.attemptLeft, countWouldBlock_params, countWouldBlock_xc_xst, countWouldBlock_xc_idx,
      countWouldBlock_xc_wb, hx, hwb] at hpos ⊢
    omega

/-- A would-block is counted within the tolerance, and ends the attempt beyond it (R155). -/
theorem wouldBlock_follows (hI : s.Inv) (hb : s.busy = true) (hx : s.xc.xst = .rdHdr ∨ s.xc.xst = .rdBody) :
    s.Follows (wouldBlock s.afterPoll) := by
  have hne : s.xc.xst ≠ .idle := by obtain hx | hx := hx <;> simp [hx]
  have hr := hI.run hb
  have hw := hr.wb hne
  have hu := (hI.underWay hb hne).afterPoll.countWouldBlock hw
  have hpos := attemptLeft_pos_of_reading hI hb hx
  by_cases hover : s.params.stallTolerance < (s.xc.wb + 1#8).toNat
  · rw [wouldBlock_over (s := s.afterPoll) hover]
    exact .of_within (n := 0) (hu.attemptFailed .stall) hpos
  · rw [wouldBlock_within (s := s.afterPoll) hover]
    refine ⟨hu.inv hne hr.xcvr (Nat.le_of_not_lt hover), fun _ hT _ => ?_⟩
    have hwb : (s.xc.wb + 1#8).toNat = s.xc.wb.toNat + 1 := toNat_add_one (by omega)
    refine Nat.add_lt_add_left ?_ s.laterCalls
    exact attemptLeft_countWouldBlock (s := s.afterPoll) hx hwb hpos

/-- A received header byte is stored, and the fourth is followed by ValidateHeader (R149). -/
theorem headerByte_follows (b : Byte) (hI : s.Inv) (hb : s.busy = true) (hx : s.xc.xst = .rdHdr) :
    s.Follows (headerByte b s.afterPoll) := by
  have hne : s.xc.xst ≠ .idle := by simp [hx]
  have hr := hI.run hb
  have hw := hr.wb hne
  have hi : s.xc.idx.toNat < 4 := (xcvrInv_rdHdr hx).1 hr.xcvr
  have hu := ((hI.underWay hb hne).afterPoll.storeHdr s.xc.idx.toNat b).byteRead (hi.trans (by decide))
  have hbyte := readLeft_byte (L := 68) (show s.xc.idx.toNat < 68 by omega) hw
  have hidx : (s.xc.idx + 1#8).toNat = s.xc.idx.toNat + 1 := toNat_add_one (by omega)
  unfold headerByte
  split
  · refine .of_within (hu.validateHeader rfl) ?_
    have hbody : 64 * (s.params.stallTolerance + 1) ≤ (68 - (s.xc.idx.toNat + 1)) * (s.params.stallTolerance + 1) :=
      Nat.mul_le_mul_right _ (by omega)
    rw [attemptLeft_rdHdr hx]
    exact hbody.trans_lt hbyte
  · next hlast =>
    have hnext : (s.xc.idx + 1#8).toNat < 4 :=
      toNat_lt_of_le_of_ne (b := 4#8) (hidx.trans_le hi) hlast
    refine .of_attempt (hu.inv hne (Iff.mpr (xcvrInv_rdHdr hx) hnext) (Nat.zero_le _)) rfl ?_
    rw [attemptLeft_rdHdr hx]
    refine lt_of_eq_of_lt (attemptLeft_rdHdr hx) ?_
    simp only [byteRead_xc_idx, storeHdr_xc_idx, State.afterPoll_xc, hidx]
    exact (Nat.sub_le _ _).trans_lt hbyte

/-- A received body byte is stored, and the last completes the exchange (R151). -/
theorem bodyByte_follows {img : Image} (himg : Image.wf img = true) (hI : s.Inv) (hb : s.busy = true)
    (hx : s.xc.xst = .rdBody) : s.Follows (bodyByte (s.afterPoll.setImage .rx img)) := by
  have hne : s.xc.xst ≠ .idle := by simp [hx]
  have hr := hI.run hb
  have hi : s.xc.idx.toNat < s.xc.nbody.toNat := (xcvrInv_rdBody hx).1 hr.xcvr
  have hn : s.xc.nbody.toNat ≤ 64 := hI.data.nbody.2.1
  have hu := ((hI.underWay hb hne).afterPoll.setRx himg).byteRead (show s.xc.idx.toNat < 68 by omega)
  have hidx : (s.xc.idx + 1#8).toNat = s.xc.idx.toNat + 1 := toNat_add_one (by omega)
  unfold bodyByte
  split
  · exact .of_within (n := 0) (hu.complete _) (attemptLeft_pos_of_reading hI hb (.inr hx))
  · next hlast =>
    have hnext : (s.xc.idx + 1#8).toNat < s.xc.nbody.toNat :=
      toNat_lt_of_le_of_ne (hidx.trans_le hi) hlast
    refine .of_attempt (hu.inv hne (Iff.mpr (xcvrInv_rdBody hx) hnext) (Nat.zero_le _)) rfl ?_
    rw [attemptLeft_rdBody hx]
    refine lt_of_eq_of_lt (attemptLeft_rdBody hx) ?_
    simp only [byteRead_xc_idx, State.setImage_xc, State.afterPoll_xc, hidx]
    exact (Nat.sub_le _ _).trans_lt (readLeft_byte (by omega) (hr.wb hne))

/-- A step in RD_HDR (R149). -/
theorem rdHdrStep_follows (hI : s.Inv) (hb : s.busy = true) (hx : s.xc.xst = .rdHdr) :
    ∃ t, rdHdrStep s = .next t ∧ s.Follows t := by
  have hi : s.xc.idx.toNat < hdrLen := (xcvrInv_rdHdr hx).1 (hI.run hb).xcvr
  have hu := (hI.underWay hb (by simp [hx])).afterPoll
  unfold rdHdrStep
  split
  case h_1 b _ => exact ⟨_, if_pos hi, headerByte_follows b hI hb hx⟩
  case h_2 => exact ⟨_, rfl, wouldBlock_follows hI hb (.inl hx)⟩
  case h_3 e _ =>
    exact ⟨_, rfl, .of_within (n := 0) (hu.commAbort e) (attemptLeft_pos_of_reading hI hb (.inl hx))⟩

/-- A step in RD_BODY (R151). -/
theorem rdBodyStep_follows (hI : s.Inv) (hb : s.busy = true) (hx : s.xc.xst = .rdBody) :
    ∃ t, rdBodyStep s = .next t ∧ s.Follows t := by
  have hi : s.xc.idx.toNat < s.xc.nbody.toNat := (xcvrInv_rdBody hx).1 (hI.run hb).xcvr
  have hn : s.xc.nbody.toNat ≤ 64 := hI.data.nbody.2.1
  have hin : hdrLen + s.xc.idx.toNat < pktLen := by simp only [hdrLen, pktLen]; omega
  have hu := (hI.underWay hb (by simp [hx])).afterPoll
  unfold rdBodyStep
  split
  case h_1 b _ =>
    rw [Image.write8, if_pos hin]
    exact ⟨_, rfl, bodyByte_follows (Image.wf_set _ _ (Memory.wf_image .rx hI.data.memory)) hI hb hx⟩
  case h_2 => exact ⟨_, rfl, wouldBlock_follows hI hb (.inr hx)⟩
  case h_3 e _ =>
    exact ⟨_, rfl, .of_within (n := 0) (hu.commAbort e) (attemptLeft_pos_of_reading hI hb (.inr hx))⟩

/-- A running command always makes its next step, keeps the invariant, and has fewer calls left unless held. -/
theorem linkStep_follows (hI : s.Inv) (hb : s.busy = true) : ∃ t, linkStep s = .next t ∧ s.Follows t := by
  cases hx : s.xc.xst with
  | idle => exact ⟨_, linkStep_drain hx, drainStep_follows hI hb hx⟩
  | discard => exact ⟨_, linkStep_discard hx, discardStep_follows hI hb hx⟩
  | write => exact linkStep_write hx ▸ writeStep_follows hI hb hx
  | flush => exact ⟨_, linkStep_flush hx, flushStep_follows hI hb hx⟩
  | rdHdr => exact linkStep_rdHdr hx ▸ rdHdrStep_follows hI hb hx
  | rdBody => exact linkStep_rdBody hx ▸ rdBodyStep_follows hI hb hx

/-- A running command has at least its next call left. -/
theorem callsLeft_pos (hI : s.Inv) (hb : s.busy = true) : 0 < s.callsLeft := by
  rw [State.callsLeft_eq]
  refine Nat.add_pos_right _ ?_
  cases hx : s.xc.xst with
  | idle => simp [State.attemptLeft, hx]
  | discard => rw [attemptLeft_discard hx, attemptCalls]; omega
  | write => rw [attemptLeft_write hx]; omega
  | flush => rw [attemptLeft_flush hx]; omega
  | rdHdr => exact attemptLeft_pos_of_reading hI hb (.inl hx)
  | rdBody => exact attemptLeft_pos_of_reading hI hb (.inr hx)

end

/-! ### The run -/

/-- Settles O59, by strong induction on the calls left: each step uses up at least one. -/
theorem unheldCommandEnds : Obligations.UnheldCommandEnds := by
  intro s
  induction hn : s.callsLeft using Nat.strong_induction_on generalizing s with
  | _ n ih =>
    intro hI hb hwait hT hfree
    obtain ⟨t, hlink, hfollows⟩ := linkStep_follows hI hb
    have hstep : step s = .next t := (step_waits (hI.run hb).sound hb hwait).trans hlink
    cases hbt : t.busy with
    | false =>
      exact ⟨1, t, hn ▸ callsLeft_pos hI hb, State.after_succ 0 hstep, hbt⟩
    | true =>
      have hlt : t.callsLeft < n := hn ▸ hfollows.calls (hfree 0 s rfl hb) hT hbt
      have hsame := linkStep_surroundings hlink
      have hwait' : t.Waits := by rwa [State.Waits, host_of_surroundings hsame]
      have hT' : t.params.stallTolerance ≤ 254 := by rwa [params_of_surroundings hsame]
      obtain ⟨k, u, hk, hafter, hend⟩ := ih _ hlt t rfl hfollows.inv hbt hwait' hT' fun k u h =>
        hfree (k + 1) u (State.after_succ k hstep ▸ h)
      exact ⟨k + 1, u, by omega, State.after_succ k hstep ▸ hafter, hend⟩

end Sys2Proof.Machine
end

