-- ==== Sys2Proof/Proofs/MemoryAccess.lean ====
section
/-! SUPPORT. The statement about the memory primitives of spec/20_memory.md. -/

namespace Sys2Proof.Machine

/-- A write of one byte inside the packet is a store at its address (R52). -/
theorem Image.write8_of_lt {img : Image} {a : Nat} (v : Byte) (h : a < pktLen) :
    Image.write8 img a v = some (Image.set img a v) := if_pos h

/-- A read of one byte inside the packet is the byte at its address (R51). -/
theorem Image.read8_of_lt {img : Image} {a : Nat} (h : a < pktLen) :
    Image.read8 img a = some (Image.get img a) := if_pos h

/-- Settles O13: each clause is a case of what an image reads after a write of one byte or of two. -/
theorem registerWriteChangesTwoBytes : Obligations.RegisterWriteChangesTwoBytes := by
  refine ⟨fun img a v ha => ⟨Image.set img a v, Image.write8_of_lt v ha, ?back, ?frame⟩, fun img a v ha => ?wide⟩
  case back => rw [Image.read8_of_lt ha, Image.get_set, if_pos ⟨rfl, ha⟩]
  case frame => exact fun x hx => by rw [Image.get_set, if_neg fun h => hx h.1]
  case wide =>
    have read (order : ByteOrder) := Image.get_write16 order img a v (h := ha)
    have low (order : ByteOrder) : Image.get (Image.write16 order img a v) a = firstByte order v := by
      rw [read, if_pos rfl]
    have high (order : ByteOrder) : Image.get (Image.write16 order img a v) (a + 1) = secondByte order v := by
      rw [read, if_neg (Nat.succ_ne_self a), if_pos rfl]
    have other (order : ByteOrder) (x : Nat) (h0 : x ≠ a) (h1 : x ≠ a + 1) :
        Image.get (Image.write16 order img a v) x = Image.get img x := by
      rw [read, if_neg h0, if_neg h1]
    exact ⟨fun x h0 h1 => ⟨other .le x h0 h1, other .be x h0 h1⟩, low .le, high .le, low .be, high .be,
      fun order => Image.read16_write16 order img a v ha⟩

end Sys2Proof.Machine
end

