-- ==== Sys2Proof/Proofs/Progress.lean ====
section
/-! SUPPORT. A sound block has a next state: every issue and every instruction goes on, and a running command that
meets the invariant makes its step. -/

namespace Sys2Proof.Machine

section
variable {s : State}

/-- A sound block issues every command: the checks at issue fault inside the next state (R36, R237). -/
theorem issue_goes_on (hf : s.fault = none) (w : Byte) (r : Readiness) (body : State → State) :
    ∃ t, issue w r s body = .next t := ⟨_, whileSound_none hf⟩

theorem issueIllegal_goes_on (hf : s.fault = none) (w : Byte) : ∃ t, issueIllegal w s = .next t :=
  ⟨_, whileSound_none hf⟩

/-- A sound block executes every instruction: a command is issued, a header's opcode has its one update. -/
theorem exec_goes_on (hf : s.fault = none) (i : Instr) : ∃ t, exec i s = .next t := by
  cases i <;> rw [exec]
  case wireReadReq | wireWriteReq | wireRespOk | wireRespCorrupt | wireRespError | wireRespReserved =>
    exact ⟨_, whileSound_none hf⟩
  all_goals exact issue_goes_on hf _ _ _

theorem issueWord_goes_on (hf : s.fault = none) (w : Byte) : ∃ t, issueWord w s = .next t := by
  unfold issueWord
  split
  · exact exec_goes_on hf _
  · exact issueIllegal_goes_on hf w

/-- The invariant does not speak of what the host is about to do. -/
theorem State.Inv.withHost (h : s.Inv) (host : List HostAction) : State.Inv { s with host := host } where
  data := { h.data with }
  run hb := { h.run hb with }
  rest hb hf := { h.rest hb hf with }

/-- A block that meets the invariant has its turn: no access of a running command is outside the packet image
(log 19). -/
theorem blockTurn_goes_on (h : s.Inv) : ∃ t, blockTurn s = .next t := by
  unfold blockTurn
  split
  · next hb =>
    obtain ⟨t, ht, -⟩ := linkStep_follows h hb
    exact ⟨t, ht⟩
  · exact ⟨s, rfl⟩

end

/-- Settles O52: by the host's next action, which leaves the turn to the block or is done with in one update. -/
theorem soundBlockAlwaysMoves : Obligations.SoundBlockAlwaysMoves := by
  intro s h hf
  rw [step, turn, whileSound_none hf]
  split
  · exact blockTurn_goes_on h
  · next w rest _ => exact issueWord_goes_on (s := { s with host := rest }) hf w
  · exact blockTurn_goes_on (h.withHost _)
  · split
    · next hb =>
      obtain ⟨t, ht, -⟩ := linkStep_follows h hb
      exact ⟨t, ht⟩
    · exact ⟨_, rfl⟩
  · exact ⟨_, rfl⟩

end Sys2Proof.Machine
end

