-- ==== Sys2Proof/Proofs/CanonicalMemory.lean ====
section
/-! SUPPORT. Packet memory keeps its canonical form (log 18) through every update: most do not write it, and those
that do write one of its buffers by an operation that keeps an image's form. -/

namespace Sys2Proof.Machine

/-! ### Updates that do not write packet memory -/

section
variable (s : State)

@[simp] theorem sendRequest_mem (len : Byte) : (sendRequest len s).mem = s.mem := by
  rw [sendRequest_eq]
  split <;> rfl

@[simp] theorem startExchange_mem (r : Byte) : (startExchange r s).mem = s.mem := by
  rw [startExchange, sendRequest_mem]

@[simp] theorem endCommand_mem (st : Byte) : (endCommand st s).mem = s.mem := rfl

@[simp] theorem getReturn_mem (st : Byte) : (getReturn st s).mem = s.mem := by
  unfold getReturn
  split <;> rfl

@[simp] theorem countCrcFail_mem : (countCrcFail s).mem = s.mem := by
  unfold countCrcFail
  split <;> rfl

@[simp] theorem countStall_mem (kind : AttemptFailure) : (countStall kind s).mem = s.mem := by
  cases kind <;> rfl

@[simp] theorem drainStep_mem : (drainStep s).mem = s.mem := by
  unfold drainStep
  split <;> rfl

@[simp] theorem discardStep_mem : (discardStep s).mem = s.mem := by
  unfold discardStep
  split <;> rfl

@[simp] theorem firstCall_mem : (firstCall s).mem = s.mem := by
  unfold firstCall
  split
  · exact discardStep_mem s
  · rfl

@[simp] theorem byteWritten_mem : (byteWritten s).mem = s.mem := by
  unfold byteWritten
  split <;> rfl

@[simp] theorem setupCall_mem (readyOnError : Bool) : (setupCall readyOnError s).mem = s.mem := by
  unfold setupCall
  split <;> rfl

end

/-! ### Updates that write a buffer, and what chains them -/

section
variable {s : State} (hm : s.mem.wf = true)
include hm

/-- A write of one buffer by an operation that keeps an image's form. -/
theorem setImage_wf (b : Buf) {img : Image} (hi : Image.wf (s.mem.image b) = true → Image.wf img = true) :
    (s.setImage b img).mem.wf = true :=
  Memory.wf_setImage b hm (hi (Memory.wf_image b hm))

/-- DRV.NEW zeroes both buffers (R190). -/
theorem zeroBuffers_wf : (zeroBuffers s).mem.wf = true :=
  Memory.wf_setImage .rx (setImage_wf hm .tx Image.wf_default) (Image.wf_default (Memory.wf_image .rx hm))

/-- A classification attempt clears RX (R191). -/
@[simp] theorem classifyAttempt_wf (r : Byte) : (classifyAttempt r s).mem.wf = true := by
  rw [classifyAttempt, startExchange_mem]
  exact setImage_wf (s := setCatt (s.fe.catt + 1#8) s) hm .rx (Image.wf_clear _)

/-- A packet exchange of the front end has its first classification attempt. -/
theorem onReturn_packetExchange_wf (k : Byte → State → State) :
    (onReturn k (packetExchange driverRetries s)).mem.wf = true := by
  rw [packetExchange_driver, onReturn]
  exact classifyAttempt_wf (by rwa [setCatt_mem]) _

/-- The WRITE request is built in TX (R196). -/
@[simp] theorem setBody_wf (n : Byte) (values : Nat → RegValue) : (setBody n values s).mem.wf = true :=
  onReturn_packetExchange_wf (setImage_wf hm .tx (Image.wf_build _ _ _ _ _ _)) _

/-- The READ request is built in TX (R193). -/
@[simp] theorem getBody_wf (n : Byte) (ret : Byte → State → State) : (getBody n ret s).mem.wf = true :=
  onReturn_packetExchange_wf (setImage_wf hm .tx (Image.wf_readRequest _ _ _ _)) _

@[simp] theorem writeBack_wf : (writeBack s).mem.wf = true := setBody_wf (s := setFe .modWrite s) hm _ _

@[simp] theorem modReadReturn_wf (st : Byte) : (modReadReturn st s).mem.wf = true := by
  unfold modReadReturn
  split
  · exact writeBack_wf (s := copyOut 1#8 s) hm
  · exact hm

@[simp] theorem feReturn_wf (st : Byte) : (feReturn st s).mem.wf = true := by
  unfold feReturn
  split <;> simp [setReturn, hm]

@[simp] theorem exchangeReturned_wf : (exchangeReturned s).mem.wf = true := by
  unfold exchangeReturned
  split_ifs <;> simp [hm]

/-! ### The ends of an attempt and of an exchange -/

@[simp] theorem endExchange_wf (st : Byte) : (endExchange st s).mem.wf = true := by
  unfold endExchange
  split
  · exact hm
  · exact exchangeReturned_wf (s := closeExchange st s) hm

/-- Complete copies the four header bytes into RX (R152). -/
theorem copyHeader_wf : (copyHeader s).mem.wf = true :=
  setImage_wf hm .rx fun h => Image.wf_set _ _ (Image.wf_set _ _ (Image.wf_set _ _ (Image.wf_set _ _ h)))

@[simp] theorem complete_wf (m : Byte) : (complete m s).mem.wf = true :=
  endExchange_wf (s := setResult (4#8 + 2#8 * m) (copyHeader s)) (copyHeader_wf hm) statusOk

@[simp] theorem attemptFailed_wf (kind : AttemptFailure) : (attemptFailed kind s).mem.wf = true := by
  unfold attemptFailed
  split <;> simp [hm]

@[simp] theorem commAbort_wf (e : LinkErr) : (commAbort e s).mem.wf = true :=
  endExchange_wf (s := setErrinfo e s) hm statusComm

@[simp] theorem acceptHeader_wf (m : BitVec 6) : (acceptHeader m s).mem.wf = true := by
  unfold acceptHeader
  split_ifs
  · exact complete_wf hm _
  · exact hm
  · split
    · exact attemptFailed_wf hm _
    · exact hm

@[simp] theorem onRespReserved_wf (m : BitVec 6) : (onRespReserved m s).mem.wf = true := by
  unfold onRespReserved
  split
  · exact attemptFailed_wf hm _
  · exact acceptHeader_wf hm m

@[simp] theorem validateHeader_wf : (validateHeader s).mem.wf = true := by
  unfold validateHeader
  split_ifs
  · exact acceptHeader_wf hm _
  · exact attemptFailed_wf hm _
  · exact attemptFailed_wf hm _
  · exact onRespReserved_wf hm _

/-! ### The steps of a running command -/

@[simp] theorem flushStep_wf : (flushStep s).mem.wf = true := by
  unfold flushStep
  split <;> simp [hm]

@[simp] theorem wouldBlock_wf : (wouldBlock s).mem.wf = true := by
  unfold wouldBlock
  split <;> simp [hm]

@[simp] theorem headerByte_wf (b : Byte) : (headerByte b s).mem.wf = true := by
  unfold headerByte
  split <;> simp [hm]

@[simp] theorem bodyByte_wf : (bodyByte s).mem.wf = true := by
  unfold bodyByte
  split <;> simp [hm]

variable {t : State}

theorem writeStep_wf (h : writeStep s = .next t) : t.mem.wf = true := by
  unfold writeStep at h
  split at h
  · cases h
  · split at h <;> cases h <;> simp [hm]

theorem rdHdrStep_wf (h : rdHdrStep s = .next t) : t.mem.wf = true := by
  unfold rdHdrStep at h
  split at h
  · split at h <;> cases h
    simp [hm]
  all_goals cases h; simp [hm]

/-- A received body byte is a store into RX (R151). -/
theorem rdBodyStep_wf (h : rdBodyStep s = .next t) : t.mem.wf = true := by
  unfold rdBodyStep at h
  split at h
  · unfold Image.write8 at h
    split_ifs at h
    cases h
    exact bodyByte_wf (setImage_wf (s := s.afterPoll) hm .rx (Image.wf_set _ _))
  all_goals cases h; simp [hm]

/-- Every step of a running command keeps the canonical form, whatever its registers hold. -/
theorem linkStep_wf (h : linkStep s = .next t) : t.mem.wf = true := by
  cases hx : s.xc.xst with
  | idle => cases (linkStep_drain hx).symm.trans h; simp [hm]
  | discard => cases (linkStep_discard hx).symm.trans h; simp [hm]
  | write => exact writeStep_wf hm ((linkStep_write hx).symm.trans h)
  | flush => cases (linkStep_flush hx).symm.trans h; simp [hm]
  | rdHdr => exact rdHdrStep_wf hm ((linkStep_rdHdr hx).symm.trans h)
  | rdBody => exact rdBodyStep_wf hm ((linkStep_rdBody hx).symm.trans h)

/-! ### The issue of a command -/

/-- The checks at issue write no packet memory, so the command's own part decides. -/
theorem issue_wf {w : Byte} {r : Readiness} {body : State → State} (h : issue w r s body = .next t)
    (hbody : ∀ {u : State}, u.mem.wf = true → (body u).mem.wf = true) : t.mem.wf = true := by
  obtain ⟨-, ⟨-, rfl⟩ | ⟨-, -, -, rfl⟩ | ⟨-, -, rfl⟩⟩ := issue_next h
  · exact hm
  · exact hm
  · exact hbody (u := setCmd w s) hm

theorem issueIllegal_wf {w : Byte} (h : issueIllegal w s = .next t) : t.mem.wf = true := by
  obtain ⟨-, h⟩ := whileSound_next h
  cases h
  split <;> exact hm

theorem runReg_wf (f : FState) (n : Byte) {body : State → State}
    (hbody : ∀ {u : State}, u.mem.wf = true → (body u).mem.wf = true) : (runReg f n body s).mem.wf = true := by
  rw [runReg, firstCall_mem]
  exact hbody (u := setFe f (latchOperands n (setBusy s))) hm

/-- A command whose operand n is over 32 faults and leaves packet memory alone (R237). -/
theorem counted_wf (ht : t.mem.wf = true) :
    (if legalN s.regs.n = false then raise .badCount s else t).mem.wf = true := by
  split
  · exact hm
  · exact ht

/-- Every instruction keeps the canonical form: the PKT commands that write a buffer, DRV.NEW's zeroing, the
requests of the REG commands, and the replies that a header's opcode ends. -/
theorem exec_wf (i : Instr) (h : exec i s = .next t) : t.mem.wf = true := by
  cases i <;> rw [exec] at h
  case pktDefault b => exact issue_wf hm h fun hu => setImage_wf hu b Image.wf_default
  case pktClear b => exact issue_wf hm h fun hu => setImage_wf hu b (Image.wf_clear _)
  case pktBuild b =>
    refine issue_wf hm h fun hu => counted_wf hu ?_
    split
    · exact hu
    · exact setImage_wf hu b (Image.wf_build _ _ _ _ _ _)
  case pktCrc8 => exact issue_wf hm h fun hu => counted_wf hu hu
  case pktCheck | pktCount | pktCode => exact issue_wf hm h fun hu => hu
  case xcvrSetup => exact issue_wf hm h fun {u} hu => (setupCall_mem u _).symm ▸ hu
  case drvNew => exact issue_wf hm h fun {u} hu => (setupCall_mem (zeroBuffers u) _).symm ▸ zeroBuffers_wf hu
  case xcvrDiscard | xcvrExchange => exact issue_wf hm h fun hu => by simp [hu]
  case regGet => exact issue_wf hm h fun hu => counted_wf hu (runReg_wf hu _ _ fun hv => getBody_wf hv _ _)
  case regSet => exact issue_wf hm h fun hu => counted_wf hu (runReg_wf hu _ _ fun hv => setBody_wf hv _ _)
  case regGet1 | regModify => exact issue_wf hm h fun hu => runReg_wf hu _ _ fun hv => getBody_wf hv _ _
  case regSet1 => exact issue_wf hm h fun hu => runReg_wf hu _ _ fun hv => setBody_wf hv _ _
  all_goals
    obtain ⟨-, h⟩ := whileSound_next h
    cases h
  case wireReadReq | wireWriteReq => simp [hm]
  case wireRespOk c => exact acceptHeader_wf hm c
  case wireRespCorrupt | wireRespError => exact attemptFailed_wf hm .reject
  case wireRespReserved c => exact onRespReserved_wf hm c

theorem issueWord_wf {w : Byte} (h : issueWord w s = .next t) : t.mem.wf = true := by
  unfold issueWord at h
  split at h
  · exact exec_wf hm _ h
  · exact issueIllegal_wf hm h

end

/-- Settles O53: by the four things a turn can do, of which the host's own write no packet memory. -/
theorem everyStepKeepsMemoryCanonical : Obligations.EveryStepKeepsMemoryCanonical := by
  intro s t hm h
  obtain ⟨-, host, ⟨-, h⟩ | ⟨-, rfl⟩ | ⟨w, h⟩ | ⟨a, rfl⟩⟩ := step_next_cases h
  · exact linkStep_wf (s := { s with host := host }) hm h
  · exact hm
  · exact issueWord_wf (s := { s with host := host }) hm h
  · exact hm

end Sys2Proof.Machine
end

