-- ==== Sys2Proof/Proofs/Encoding.lean ====
section
/-! SUPPORT. Decoding and encoding are inverse at each port, and the statements about illegal bytes and about the
live bytes of a request. -/

namespace Sys2Proof.Machine

/-! ### The fields of a word -/

@[simp] theorem opcodeOf_append (o : BitVec 2) (c : BitVec 6) : opcodeOf (o ++ c) = o :=
  BitVec.extractLsb'_append_eq_left

@[simp] theorem countOf_append (o : BitVec 2) (c : BitVec 6) : countOf (o ++ c) = c :=
  BitVec.extractLsb'_append_eq_right

/-- A header's byte 0 is its opcode beside its count (R71). -/
theorem append_countOf {w : Byte} {o : BitVec 2} (h : opcodeOf w = o) : o ++ countOf w = w := by
  subst h
  exact (BitVec.extractLsb'_append_extractLsb'_eq_extractLsb' rfl).trans BitVec.extractLsb'_eq_self

@[simp] theorem codeOf_append (b : Buf) (code : BitVec 7) : codeOf (bufBit b ++ code) = code :=
  BitVec.extractLsb'_append_eq_right

@[simp] theorem bufOf_append (b : Buf) (code : BitVec 7) : bufOf (bufBit b ++ code) = b := by
  have hbit : (bufBit b ++ code).getLsbD 7 = (bufBit b).getLsbD 0 := by rw [BitVec.getLsbD_append]; rfl
  rw [bufOf, hbit]
  cases b <;> rfl

/-- A CMD byte is BUF beside the command code (R79). -/
theorem bufBit_append_codeOf (w : Byte) : bufBit (bufOf w) ++ codeOf w = w := by
  have hbuf : bufBit (bufOf w) = w.extractLsb' 7 1 := by
    ext i hi
    obtain rfl : i = 0 := Nat.lt_one_iff.mp hi
    rw [BitVec.getElem_extractLsb', bufOf]
    cases w.getLsbD (7 + 0) <;> simp [bufBit]
  rw [hbuf]
  exact (BitVec.extractLsb'_append_extractLsb'_eq_extractLsb' rfl).trans BitVec.extractLsb'_eq_self

/-! ### Decoding an encoded instruction -/

/-- A PKT command's word decodes to the entry of the code map (R79, R81). -/
theorem decodeCommand_pkt {b : Buf} {code : BitVec 7} {i : Instr} (h : pktCommand code b = some i) :
    decodeCommand (bufBit b ++ code) = .ok i := by
  simp [decodeCommand, h]

/-- The response opcode and count decode to the opcode's instruction (R73). -/
theorem decode_response (o : BitVec 2) (c : BitVec 6) :
    decode .response (o ++ c) =
      .ok
        (if o = 0b00#2 then .wireRespOk c
        else if o = 0b01#2 then .wireRespCorrupt c
        else if o = 0b10#2 then .wireRespError c
        else .wireRespReserved c) := by
  simp [decode, responseOf]

/-- Settles O9: by the instruction; a PKT command by its code map entry, a header's opcode by the fields of its
word, a request's count by being legal. -/
theorem decodeOfEncode : Obligations.DecodeOfEncode := by
  intro i hw
  cases i
  case pktDefault | pktClear | pktBuild | pktCrc8 | pktCheck | pktCount | pktCode => exact decodeCommand_pkt rfl
  case wireReadReq c | wireWriteReq c =>
    have hc : legalCount c = true := hw
    simp [decode, decodeRequest, Instr.port, encode, hc]
  case wireRespOk | wireRespCorrupt | wireRespError | wireRespReserved => exact decode_response _ _
  all_goals rfl

/-! ### Encoding a decoded instruction -/

/-- An instruction has the word w, and is a well-formed instruction of the port p. -/
structure Encodes (p : Port) (w : Byte) (i : Instr) : Prop where
  word : encode i = w
  port : i.port = p
  wellFormed : WellFormed i = true

/-- The code map's PKT entries are encoded as BUF beside their code (R81). -/
theorem encodes_pktCommand {code : BitVec 7} {b : Buf} {i : Instr} (h : pktCommand code b = some i) :
    Encodes .command (bufBit b ++ code) i := by
  unfold pktCommand at h
  split_ifs at h <;> cases h <;> subst code <;> exact ⟨rfl, rfl, rfl⟩

/-- The code map's other entries are encoded as BUF = 0 beside their code (R81, R82). -/
theorem encodes_plainCommand {code : BitVec 7} {i : Instr} (h : plainCommand code = some i) :
    Encodes .command (bufBit .tx ++ code) i := by
  unfold plainCommand at h
  split_ifs at h <;> cases h <;> subst code <;> exact ⟨rfl, rfl, rfl⟩

theorem encodes_decodeCommand {w : Byte} {i : Instr} (h : decodeCommand w = .ok i) : Encodes .command w i := by
  have hw := bufBit_append_codeOf w
  unfold decodeCommand at h
  split at h
  · next hp =>
    cases h
    exact hw ▸ encodes_pktCommand hp
  · split at h
    · cases h
    · next hp =>
      split at h
      · cases h
      · next hb =>
        cases h
        have htx : bufOf w = .tx := by
          cases hbuf : bufOf w
          · rfl
          · exact absurd hbuf hb
        rw [htx] at hw
        exact hw ▸ encodes_plainCommand hp

theorem encodes_decodeRequest {w : Byte} {i : Instr} (h : decodeRequest w = .ok i) : Encodes .request w i := by
  unfold decodeRequest at h
  split_ifs at h with hread hc hwrite hc <;> cases h
  · exact ⟨append_countOf hread, rfl, hc⟩
  · exact ⟨append_countOf hwrite, rfl, hc⟩

/-- The opcode that is none of the three named ones is 0b11 (R73). -/
theorem opcode_eq_reserved {o : BitVec 2} (h0 : o ≠ 0b00#2) (h1 : o ≠ 0b01#2) (h2 : o ≠ 0b10#2) : o = 0b11#2 := by
  bv_omega

theorem encodes_responseOf (w : Byte) : Encodes .response w (responseOf w) := by
  unfold responseOf
  split_ifs with h0 h1 h2
  · exact ⟨append_countOf h0, rfl, rfl⟩
  · exact ⟨append_countOf h1, rfl, rfl⟩
  · exact ⟨append_countOf h2, rfl, rfl⟩
  · exact ⟨append_countOf (opcode_eq_reserved h0 h1 h2), rfl, rfl⟩

/-- A word that decodes at a port is the word of a well-formed instruction of the port. -/
theorem encodes_decode {p : Port} {w : Byte} {i : Instr} (h : decode p w = .ok i) : Encodes p w i := by
  cases p with
  | command => exact encodes_decodeCommand h
  | request => exact encodes_decodeRequest h
  | response =>
    cases h
    exact encodes_responseOf w

/-- Settles O10: by the port, whose decoder is inverted branch by branch. -/
theorem encodeOfDecode : Obligations.EncodeOfDecode := fun _ _ _ h =>
  have hi := encodes_decode h
  ⟨hi.word, hi.port, hi.wellFormed⟩

/-- Settles O8: eight fixed words, evaluated. -/
theorem writtenWordsDecode : Obligations.WrittenWordsDecode :=
  ⟨rfl, rfl, rfl, rfl, rfl, rfl, rfl, rfl⟩

/-! ### Illegal bytes -/

/-- The words of the commands are those listed from the code map (R81, R82). -/
theorem encode_mem_commandWords {i : Instr} (h : i.port = .command) : encode i ∈ commandWords := by
  cases i
  case pktDefault b | pktClear b | pktBuild b | pktCrc8 b | pktCheck b | pktCount b | pktCode b =>
    cases b <;> decide
  case wireReadReq | wireWriteReq | wireRespOk | wireRespCorrupt | wireRespError | wireRespReserved => cases h
  all_goals decide

/-- A byte outside the code map issues no command (R82). -/
theorem issueWord_illegal {w : Byte} (s : State) (h : w ∉ commandWords) : issueWord w s = issueIllegal w s := by
  unfold issueWord
  split
  · next hd =>
    have hi := encodes_decodeCommand hd
    exact absurd (hi.word ▸ encode_mem_commandWords hi.port) h
  · rfl

theorem issueIllegal_free {w : Byte} {s : State} (hf : s.fault = none) (hb : s.busy = false) :
    issueIllegal w s = .next (raise .illegalCmd (setCmd w s)) := by
  simp [issueIllegal, whileSound_none hf, hb]

theorem issueIllegal_busy {w : Byte} {s : State} (hf : s.fault = none) (hb : s.busy = true) :
    issueIllegal w s = .next (raise .busyOverlap (setCmd w s)) := by
  simp [issueIllegal, whileSound_none hf, hb]

/-- With no command running a fault only sets FAULT. -/
theorem raise_free {s : State} (r : FaultReason) (hb : s.busy = false) : raise r s = { s with fault := some r } := by
  rw [raise, ← hb]

/-- Settles O11: the byte decodes to nothing, and BUSY tells which fault the write raises. -/
theorem illegalWordsFault : Obligations.IllegalWordsFault := by
  intro s w rest hf hh hw
  rw [step_writeCmd hf hh, issueWord_illegal _ hw]
  refine ⟨fun hb => ?free, fun hb => ?busy⟩
  case free =>
    rw [issueIllegal_free (s := { s with host := rest }) hf hb,
      raise_free (s := setCmd w { s with host := rest }) .illegalCmd hb]
    rfl
  case busy => exact issueIllegal_busy (s := { s with host := rest }) hf hb

/-! ### Live bytes -/

/-- Settles O12: the two branches of the live length; a count of at most 32 does not overflow the byte. -/
theorem liveBytesOfARequest : Obligations.LiveBytesOfARequest := by
  refine fun w => ⟨fun hcode hcount => ?write, fun hcode => ?other⟩
  case write =>
    have hlen : liveLength w = 4#8 + 2#8 * (w &&& 0x3F#8) := congrArg (4#8 + ·) (if_pos hcode)
    have hle : (w &&& 0x3F#8).toNat ≤ 32 := hcount
    rw [hlen, BitVec.toNat_add, BitVec.toNat_mul, BitVec.toNat_ofNat, BitVec.toNat_ofNat]
    omega
  case other =>
    have hlen : liveLength w = 4#8 + 0#8 := congrArg (4#8 + ·) (if_neg hcode)
    rw [hlen]
    rfl

end Sys2Proof.Machine
end

