-- ==== Sys2Proof/Proofs/Invariant.lean ====
section
/-! SUPPORT. The issue of every command meets the invariant, so every step keeps it: the steps of a running
command are in `linkStep_follows`. -/

namespace Sys2Proof.Machine

/-! ### The counts of the packets that the block writes (R74) -/

/-- A packet whose byte 0 is a legal count, with or without opcode bits, has a legal count. -/
theorem count_le_of_byte0 {img : Image} {n mode : Byte} (h : Image.get img 0 = n ||| mode) (hn : n.toNat ≤ 32)
    (hm : mode &&& 0x3F#8 = 0#8) : Image.count img ≤ capacity := by
  rw [Image.count, h, countOf_or hn hm]
  exact hn

/-- A packet whose byte 0 is 0 holds no values. -/
theorem count_le_of_byte0_zero {img : Image} (h : Image.get img 0 = 0#8) : Image.count img ≤ capacity :=
  count_le_of_byte0 (n := 0#8) (mode := 0#8) h (by decide) rfl

theorem count_defaultImage (img : Image) : Image.count (defaultImage img) ≤ capacity :=
  count_le_of_byte0_zero (get_defaultImage img 0)

theorem count_clearImage (order : ByteOrder) (img : Image) : Image.count (clearImage order img) ≤ capacity :=
  count_le_of_byte0_zero (get_clearImage order img 0)

theorem count_buildImage {p : Params} {img : Image} {mode page offset n : Byte} {values : Nat → RegValue}
    (hn : n.toNat ≤ 32) (hm : mode &&& 0x3F#8 = 0#8) :
    Image.count (buildImage p img mode page offset n values) ≤ capacity :=
  count_le_of_byte0 (packet_buildImage p img mode page offset n values hn).byte0 hn hm

theorem count_readRequest {p : Params} {img : Image} {page offset n : Byte} (hn : n.toNat ≤ 32) :
    Image.count (readRequest p img page offset n) ≤ capacity :=
  count_le_of_byte0 (mode := 0#8) ((byte0_readRequest p img page offset n hn).trans BitVec.or_zero.symm) hn rfl

/-! ### The host's writes and the steps of a running command -/

section
variable {s t : State}

/-- A step of a running command keeps the invariant. -/
theorem linkStep_inv (hI : s.Inv) (hb : s.busy = true) (h : linkStep s = .next t) : t.Inv := by
  obtain ⟨u, hu, hfollows⟩ := linkStep_follows hI hb
  cases hu.symm.trans h
  exact hfollows.inv

theorem writeOperand_cmd (a : HostAction) (g : HostRegs) : (writeOperand a g).cmd = g.cmd := by
  cases a <;> rfl

/-- The transceiver's part of the invariant reads of the host's registers only CMD. -/
theorem State.XcvrInv.withRegs {g : HostRegs} (h : s.XcvrInv) (hg : g.cmd = s.regs.cmd) :
    State.XcvrInv { s with regs := g } := by
  unfold State.XcvrInv at h ⊢
  rwa [hg]

/-- An operand register written while a command runs, or between commands, is none the invariant speaks of. -/
theorem State.Inv.withRegs {g : HostRegs} (h : s.Inv) (hg : g.cmd = s.regs.cmd) : State.Inv { s with regs := g } where
  data := { h.data with }
  run hb := { h.run hb with xcvr := (h.run hb).xcvr.withRegs hg }
  rest hb hf := { h.rest hb hf with }

/-! ### A block between commands -/

/-- A sound block with no command running, as the invariant has it: what a command finds at its issue. -/
structure State.Resting (s : State) : Prop where
  data : s.DataInv
  sound : s.fault = none
  free : s.busy = false
  rest : s.RestInv

/-- A state with no command running meets the invariant when it is faulted or at rest. -/
theorem State.Inv.of_ended (hd : s.DataInv) (hb : s.busy = false) (hr : s.fault = none → s.RestInv) : s.Inv :=
  (State.Within.of_ended (n := 0) hd hb hr).inv

theorem State.Inv.raise (h : s.Inv) (r : FaultReason) : (raise r s).Inv := .of_ended { h.data with } rfl nofun

/-- The invariant speaks of CMD only while a command runs. -/
theorem State.Inv.setCmd (h : s.Inv) (hb : s.busy = false) (w : Byte) : (setCmd w s).Inv :=
  .of_ended { h.data with } hb fun hf => { h.rest hb hf with }

theorem State.Inv.resting (h : s.Inv) (hf : s.fault = none) (hb : s.busy = false) : s.Resting :=
  ⟨h.data, hf, hb, h.rest hb hf⟩

namespace State.Resting

theorem inv (h : s.Resting) : s.Inv := .of_ended h.data h.free fun _ => h.rest

theorem setMemory (h : s.Resting) {tx rx : Image} (hm : Memory.wf ⟨tx, rx⟩ = true)
    (hc : Image.count tx ≤ capacity) : State.Resting { s with mem := ⟨tx, rx⟩ } where
  data := { h.data with memory := hm, txCount := hc }
  sound := h.sound
  free := h.free
  rest := { h.rest with }

theorem setImage (h : s.Resting) (b : Buf) {img : Image} (hi : Image.wf (s.mem.image b) = true → Image.wf img = true)
    (hc : Image.count img ≤ capacity) : (s.setImage b img).Resting := by
  have hm := setImage_wf h.data.memory b hi
  cases b
  · exact h.setMemory hm hc
  · exact h.setMemory hm h.data.txCount

theorem setFlag (h : s.Resting) (v : Bool) : (setFlag v s).Resting :=
  { h with data := { h.data with }, rest := { h.rest with } }

theorem setResult (h : s.Resting) (v : Byte) : (setResult v s).Resting :=
  { h with data := { h.data with }, rest := { h.rest with } }

theorem zeroBuffers (h : s.Resting) : (zeroBuffers s).Resting := by
  have hmem := zeroBuffers_wf h.data.memory
  rw [zeroBuffers_mem] at hmem
  have hzero : Machine.zeroBuffers s = { s with mem := ⟨defaultImage s.mem.tx, defaultImage s.mem.rx⟩ } := by
    simp only [Machine.zeroBuffers, State.setImage, Memory.setImage]
  rw [hzero]
  exact h.setMemory hmem (count_defaultImage s.mem.tx)

/-! ### The commands over the link -/

/-- SETUP and NEW end with OK or COMM, in their one step (R141, R190). -/
theorem setupCall (h : s.Resting) (readyOnError : Bool) : (setupCall readyOnError s).Inv := by
  unfold Machine.setupCall
  split
  · exact .of_ended { h.data with status := .inl rfl } rfl fun _ => { h.rest with }
  · exact .of_ended { h.data with status := .inr (.inl rfl) } rfl fun _ => { h.rest with }

/-- XCVR.DISCARD runs with XST = IDLE (log 10). -/
theorem setBusy_discard (h : s.Resting) (hready : s.ready = true) (hcmd : s.regs.cmd = encode .xcvrDiscard) :
    (setBusy s).Inv where
  data := { h.data with }
  run _ :=
    { sound := h.sound
      ready := hready
      xcvr := by
        simp only [State.XcvrInv, setBusy_xc, h.rest.xst]
        exact ⟨hcmd, h.rest.fe⟩
      attempts := fun hx => absurd h.rest.xst hx
      wb := fun hx => absurd h.rest.xst hx
      front := fun hf => absurd h.rest.fe hf
      raw := fun _ => h.rest.catt }
  rest := nofun

theorem drain (h : s.Resting) (hready : s.ready = true) (hcmd : s.regs.cmd = encode .xcvrDiscard) :
    (drainStep (setBusy s)).Inv :=
  (drainStep_follows (h.setBusy_discard hready hcmd) rfl h.rest.xst).inv

/-- An exchange with retries begins its first attempt (R143, R144). -/
theorem startExchange (h : s.Resting) (hready : s.ready = true) {r : Byte} (hr : r ≠ 0#8) :
    (startExchange r (setBusy s)).Inv := by
  have hpos : 1 ≤ r.toNat := Nat.one_le_iff_ne_zero.mpr fun he => hr (BitVec.eq_of_toNat_eq he)
  rw [startExchange_pos _ hr]
  refine UnderWay.inv ?_ nofun rfl (Nat.zero_le _)
  exact
    { data :=
        { h.data with
          txlen := evenIn_liveLength h.data.txCount
          idx := Nat.zero_le _
          wb := Nat.zero_le _ }
      busy := rfl
      sound := h.sound
      ready := hready
      attempts := ⟨Nat.le_refl 1, hpos⟩
      front := fun hf => absurd h.rest.fe hf
      raw := fun _ => h.rest.catt }

/-- An exchange with no retries ends UNRESPONSIVE (R143). -/
theorem startExchange_zero (h : s.Resting) : (Machine.startExchange 0#8 (setBusy s)).Inv := by
  rw [Machine.startExchange_zero]
  exact .of_ended
    { h.data with status := .inr (.inr (.inr rfl)), txlen := evenIn_liveLength h.data.txCount }
    rfl fun _ => { h.rest with }

/-- A REG command at its issue is between two exchanges: its front end is about to begin the first. -/
theorem between (h : s.Resting) (hready : s.ready = true) {f : FState} (hf : f ≠ .idle) {n : Byte}
    (hn : n.toNat ≤ 32) : (setFe f (latchOperands n (setBusy s))).Between where
  data := { h.data with }
  busy := rfl
  sound := h.sound
  ready := hready
  closed := h.rest.xst
  reg := hf
  operand := hn

end State.Resting

/-- The READ request of a REG command goes out in the first of ten classification attempts (R193). -/
theorem State.Between.getBody (h : s.Between) {n : Byte} (hn : n.toNat ≤ 32) (ret : Byte → State → State) :
    (getBody n ret s).Within (Machine.setCatt 0#8 s).frontCalls := by
  have htx := h.setTx (Image.wf_readRequest s.params s.fe.page s.fe.offset n (Memory.wf_image .tx h.data.memory))
    (count_readRequest hn)
  exact htx.setCatt.classifyAttempt (show (0#8).toNat < 10 by decide)

theorem classifyAttempt_driver_xst : (classifyAttempt driverRetries s).xc.xst = .discard := by
  rw [classifyAttempt_driver]

/-- The first link call of a command is the drain of its first attempt; an ended command makes none. -/
theorem State.Inv.firstCall (h : s.Inv) (hx : s.busy = true → s.xc.xst = .discard) : (firstCall s).Inv := by
  unfold Machine.firstCall
  split
  · next hb => exact (discardStep_follows h hb (hx hb)).inv
  · exact h

/-- XCVR.EXCHANGE with its first link call (R143). -/
theorem State.Resting.exchange (h : s.Resting) (hready : s.ready = true) (r : Byte) :
    (firstCall (Machine.startExchange r (setBusy s))).Inv := by
  by_cases hr : r = 0#8
  · subst hr
    exact h.startExchange_zero.firstCall nofun
  · refine (h.startExchange hready hr).firstCall fun _ => ?_
    rw [startExchange_pos _ hr]

theorem State.Resting.runGet (h : s.Resting) (hready : s.ready = true) {f : FState} (hf : f ≠ .idle) {n : Byte}
    (hn : n.toNat ≤ 32) (ret : Byte → State → State) : (runReg f n (Machine.getBody n ret) s).Inv :=
  ((h.between hready hf hn).getBody hn ret).inv.firstCall fun _ => classifyAttempt_driver_xst

theorem State.Resting.runSet (h : s.Resting) (hready : s.ready = true) {n : Byte} (hn : n.toNat ≤ 32)
    (values : Nat → RegValue) : (runReg .set n (setBody n values) s).Inv :=
  ((h.between hready (f := .set) nofun hn).setBody hn values).inv.firstCall fun _ => classifyAttempt_driver_xst

/-- A command with a checked operand n faults BAD_COUNT, or does its part with a legal one (R237). -/
theorem State.Resting.counted (h : s.Resting) (ht : s.regs.n.toNat ≤ 32 → t.Inv) :
    State.Inv (if legalN s.regs.n = false then Machine.raise .badCount s else t) := by
  split
  · exact h.inv.raise .badCount
  · next hn => exact ht (of_decide_eq_true (Bool.eq_true_of_not_eq_false hn))

/-! ### The issue of a command -/

/-- The checks at issue fault, or hand the command's own part a block between commands. -/
theorem issue_inv {w : Byte} {r : Readiness} {body : State → State} (hI : s.Inv) (h : issue w r s body = .next t)
    (hbody : ∀ {u : State}, u.Resting → (r = .needsReady → u.ready = true) → u.regs.cmd = w → (body u).Inv) :
    t.Inv := by
  obtain ⟨hf, ⟨-, rfl⟩ | ⟨-, -, -, rfl⟩ | ⟨hb, hready, rfl⟩⟩ := issue_next h
  · exact .of_ended { hI.data with } rfl nofun
  · exact .of_ended { hI.data with } rfl nofun
  · exact hbody ((hI.setCmd hb w).resting hf hb) hready rfl

theorem issueIllegal_inv {w : Byte} (hI : s.Inv) (h : issueIllegal w s = .next t) : t.Inv := by
  obtain ⟨-, h⟩ := whileSound_next h
  cases h
  split <;> exact .of_ended { hI.data with } rfl nofun

/-- Every command that CMD can hold keeps the invariant. -/
theorem exec_inv {i : Instr} (hi : i.port = .command) (hI : s.Inv) (h : exec i s = .next t) : t.Inv := by
  cases i <;> rw [exec] at h
  case pktDefault b =>
    exact issue_inv hI h fun hu _ _ => (hu.setImage b Image.wf_default (count_defaultImage _)).inv
  case pktClear b =>
    exact issue_inv hI h fun hu _ _ => (hu.setImage b (Image.wf_clear _) (count_clearImage _ _)).inv
  case pktBuild b =>
    refine issue_inv hI h fun {u} hu _ _ => hu.counted fun hn => ?_
    split
    · exact hu.inv.raise .badMode
    · next hm =>
      have hmode : u.regs.mode &&& 0x3F#8 = 0#8 := of_decide_eq_true (Bool.eq_true_of_not_eq_false hm)
      exact (hu.setImage b (Image.wf_build _ _ _ _ _ _) (count_buildImage hn hmode)).inv
  case pktCrc8 => exact issue_inv hI h fun hu _ _ => hu.counted fun _ => (hu.setResult _).inv
  case pktCheck => exact issue_inv hI h fun hu _ _ => (hu.setFlag _).inv
  case pktCount | pktCode => exact issue_inv hI h fun hu _ _ => (hu.setResult _).inv
  case xcvrSetup => exact issue_inv hI h fun hu _ _ => hu.setupCall _
  case xcvrDiscard => exact issue_inv hI h fun hu hready hcmd => hu.drain (hready rfl) hcmd
  case xcvrExchange => exact issue_inv hI h fun hu hready _ => hu.exchange (hready rfl) _
  case drvNew => exact issue_inv hI h fun hu _ _ => hu.zeroBuffers.setupCall _
  case regGet =>
    exact issue_inv hI h fun hu hready _ => hu.counted fun hn => hu.runGet (hready rfl) (f := .get) nofun hn _
  case regSet => exact issue_inv hI h fun hu hready _ => hu.counted fun hn => hu.runSet (hready rfl) hn _
  case regGet1 =>
    exact issue_inv hI h fun hu hready _ => hu.runGet (hready rfl) (f := .get) (n := 1#8) nofun (by decide) _
  case regModify =>
    exact issue_inv hI h fun hu hready _ => hu.runGet (hready rfl) (f := .modRead) (n := 1#8) nofun (by decide) _
  case regSet1 => exact issue_inv hI h fun hu hready _ => hu.runSet (hready rfl) (n := 1#8) (by decide) _
  all_goals cases hi

theorem issueWord_inv {w : Byte} (hI : s.Inv) (h : issueWord w s = .next t) : t.Inv := by
  unfold issueWord at h
  split at h
  · next hd => exact exec_inv (decodeCommand_port hd) hI h
  · exact issueIllegal_inv hI h

end

/-- Settles O51: by the four things a turn can do. A running command's step keeps the invariant
(`linkStep_follows`), an issue meets it, and the host's own writes are of registers it does not speak of. -/
theorem everyStepKeepsTheInvariant : Obligations.EveryStepKeepsTheInvariant := by
  intro s t hI h
  obtain ⟨-, host, ⟨hb, h⟩ | ⟨-, rfl⟩ | ⟨w, h⟩ | ⟨a, rfl⟩⟩ := step_next_cases h
  · exact linkStep_inv (hI.withHost host) hb h
  · exact hI.withHost host
  · exact issueWord_inv (hI.withHost host) h
  · exact (hI.withHost host).withRegs (writeOperand_cmd a s.regs)

end Sys2Proof.Machine
end

