-- ==== Sys2Proof/Proofs/WireOpcodes.lean ====
section
/-! SUPPORT. The six header opcodes as instructions (log 15): a request opcode is the start of an exchange, a
response opcode the verdict on a received header. -/

namespace Sys2Proof.Machine

/-! ### Request opcodes (R72, R77, R143) -/

section
variable {s : State}

/-- An instruction that is one guarded update makes it on a sound block. -/
theorem whileSound_update (f : State → State) (hf : s.fault = none) :
    whileSound s (fun s => .next (f s)) = .next (f s) := whileSound_none hf

/-- A READ request's byte 0 stands for four live bytes, whatever its count (R77). -/
theorem liveLength_readReq (c : BitVec 6) : liveLength (encode (.wireReadReq c)) = 4#8 := by
  have hcode : codeBits (encode (.wireReadReq c)) = 0x00#8 := Laws.TableRow.wireReadReq c
  rw [liveLength, hcode]
  rfl

/-- The count bits of a header's byte 0 are its count. -/
theorem countBits_append (o : BitVec 2) (c : BitVec 6) : countBits (o ++ c) = c.zeroExtend 8 := by
  apply BitVec.eq_of_toNat_eq
  have hc := countOf_toNat (o ++ c)
  rw [countOf_append] at hc
  rw [countBits, ← hc, BitVec.toNat_setWidth, Nat.mod_eq_of_lt (c.isLt.trans (by decide))]

/-- A WRITE request's byte 0 stands for the header and its values (R77). -/
theorem liveLength_writeReq (c : BitVec 6) :
    liveLength (encode (.wireWriteReq c)) = 4#8 + 2#8 * c.zeroExtend 8 := by
  have hcode : codeBits (encode (.wireWriteReq c)) = modeWrite := Laws.TableRow.wireWriteReq c
  rw [liveLength, if_pos hcode, encode, countBits_append]

theorem exec_wireReadReq (c : BitVec 6) (hf : s.fault = none) :
    exec (.wireReadReq c) s = .next (sendRequest 4#8 s) := whileSound_update (sendRequest 4#8) hf

theorem exec_wireWriteReq (c : BitVec 6) (hf : s.fault = none) :
    exec (.wireWriteReq c) s = .next (sendRequest (4#8 + 2#8 * c.zeroExtend 8) s) :=
  whileSound_update (sendRequest (4#8 + 2#8 * c.zeroExtend 8)) hf

/-- Executing the request that a byte stands for sends the live bytes of that byte (R77, R143). -/
theorem exec_request {w : Byte} {i : Instr} (hf : s.fault = none) (h : decode .request w = .ok i) :
    exec i s = .next (sendRequest (liveLength w) s) := by
  obtain ⟨rfl, hport, -⟩ := encodes_decode h
  cases i
  case wireReadReq c => rw [exec_wireReadReq c hf, liveLength_readReq]
  case wireWriteReq c => rw [exec_wireWriteReq c hf, liveLength_writeReq]
  all_goals cases hport

/-- The bytes of c values, as the block computes them in a byte. -/
theorem two_mul_count (c : BitVec 6) : 2#8 * c.zeroExtend 8 = BitVec.ofNat 8 (2 * c.toNat) := by
  rw [BitVec.ofNat_mul, BitVec.ofNat_toNat]

/-- A request with retries begins the first attempt, which RETRY_CNT does not count (R143, R144). -/
theorem sendRequest_first (len : Byte) (hr : s.xc.retr ≠ 0#8) (ha : s.xc.att = 0#8) :
    sendRequest len s =
      { s with xc := { s.xc with txlen := len, xst := .discard, idx := 0#8, wb := 0#8, att := 1#8 } } := by
  simp [sendRequest_eq, beginAttempt, hr, ha]

/-- A request with no retries ends UNRESPONSIVE (R143). -/
theorem sendRequest_none (len : Byte) (hr : s.xc.retr = 0#8) :
    sendRequest len s =
      { s with xc := { s.xc with txlen := len }, res := { s.res with status := 4#8 }, busy := false } :=
  if_pos hr

end

/-- Settles O37: both opcodes send their request, which begins the first attempt or ends at once. -/
theorem requestOpcodesFixTheLiveLength : Obligations.RequestOpcodesFixTheLiveLength := by
  intro c s hf ha
  rw [exec_wireReadReq c hf, exec_wireWriteReq c hf, two_mul_count, ← BitVec.ofNat_add]
  refine ⟨fun hr => ?first, fun hr => ?none⟩
  case first => rw [sendRequest_first _ hr ha, sendRequest_first _ hr ha]; exact ⟨rfl, fun _ => rfl⟩
  case none => rw [sendRequest_none _ hr, sendRequest_none _ hr]; exact ⟨rfl, fun _ => rfl⟩

/-- Settles O5: the exchange is the request's start on the state of the issue, followed by the drain poll that a
first attempt begins with. -/
theorem exchangeRunsTheRequestInTx : Obligations.ExchangeRunsTheRequestInTx := by
  intro s i hable hr hd
  obtain ⟨hf, hb, hready⟩ := hable
  have hstart := startExchange_pos (s.issued .xcvrExchange) hr
  refine ⟨_, _, exec_request (w := Image.get s.mem.tx 0) hf hd, linkStep_discard ?discard, ?exchange⟩
  case discard => exact congrArg (fun t => t.xc.xst) hstart
  case exchange =>
    have hbusy : (startExchange s.regs.retries (s.issued .xcvrExchange)).busy = true := by rw [hstart]; rfl
    rw [exec, execXcvrExchange, issue_free ⟨hf, hb⟩ fun _ => hready]
    exact congrArg Host.Outcome.next (if_pos hbusy)

/-! ### Response opcodes (R73, R150) -/

section
variable {s : State}

theorem exec_wireRespOk (c : BitVec 6) (hf : s.fault = none) :
    exec (.wireRespOk c) s = .next (acceptHeader c s) := whileSound_update (acceptHeader c) hf

theorem exec_wireRespCorrupt (c : BitVec 6) (hf : s.fault = none) :
    exec (.wireRespCorrupt c) s = .next (attemptFailed .reject s) :=
  whileSound_update (attemptFailed .reject) hf

theorem exec_wireRespError (c : BitVec 6) (hf : s.fault = none) :
    exec (.wireRespError c) s = .next (attemptFailed .reject s) :=
  whileSound_update (attemptFailed .reject) hf

theorem exec_wireRespReserved (c : BitVec 6) (hf : s.fault = none) :
    exec (.wireRespReserved c) s =
      .next (if s.params.rejectCode3 then attemptFailed .reject s else acceptHeader c s) :=
  whileSound_update (onRespReserved c) hf

/-- A header with count 0 completes the exchange (R150). -/
theorem acceptHeader_zero : acceptHeader 0#6 s = complete 0#8 s := rfl

/-- A header with a legal count over 0 goes on to read that many values (R150). -/
theorem acceptHeader_body {c : BitVec 6} (h1 : 1 ≤ c.toNat) (h32 : c.toNat ≤ 32) :
    acceptHeader c s =
      { s with xc := { s.xc with nbody := BitVec.ofNat 8 (2 * c.toNat), idx := 0#8, xst := .rdBody } } := by
  have hne : c ≠ 0#6 := by
    rintro rfl
    exact absurd h1 (by decide)
  rw [acceptHeader, if_pos h32, if_neg hne, two_mul_count]

/-- A count over 32 under FAULT raises OVERCOUNT (R150). -/
theorem acceptHeader_fault {c : BitVec 6} (h : 32 < c.toNat) (hp : s.params.overcountPolicy = .fault) :
    acceptHeader c s = raise .overcount s := by
  rw [acceptHeader, if_neg (Nat.not_le_of_lt h), hp]

/-- A count over 32 under RETRY fails the attempt, as a rejected opcode does (R150, R153). -/
theorem acceptHeader_retry {c : BitVec 6} (h : 32 < c.toNat) (hp : s.params.overcountPolicy = .retry) :
    acceptHeader c s = attemptFailed .reject s := by
  rw [acceptHeader, if_neg (Nat.not_le_of_lt h), hp]
  rfl

/-! ### Completing and failing an attempt (R152, R153) -/

/-- RX with the header copied into it (R152). -/
def headerInto (x : Xcvr) (rx : Image) : Image :=
  Image.set (Image.set (Image.set (Image.set rx 0 (x.hdrByte 0)) 1 (x.hdrByte 1)) 2 (x.hdrByte 2)) 3 (x.hdrByte 3)

theorem copyHeader_eq : copyHeader s = s.setImage .rx (headerInto s.xc s.mem.rx) := rfl

/-- The four bytes of HDR stand at the addresses of the header. -/
theorem get_headerInto_header (x : Xcvr) (rx : Image) {a : Nat} (h : a < 4) :
    Image.get (headerInto x rx) a = x.hdr[a] := by
  rw [← Xcvr.hdrByte_eq x a h]
  simp only [headerInto, Image.get_set, pktLen]
  interval_cases a <;> rfl

/-- No byte of a body is touched by the header. -/
theorem get_headerInto_body (x : Xcvr) (rx : Image) {a : Nat} (h : 4 ≤ a) :
    Image.get (headerInto x rx) a = Image.get rx a := by
  simp only [headerInto, Image.get_set]
  rw [if_neg (by omega), if_neg (by omega), if_neg (by omega), if_neg (by omega)]

/-- A raw exchange completes with OK, the reply's length in RESULT (R152). -/
theorem complete_raw (m : Byte) (h : s.fe.state = .idle) :
    complete m s =
      { s with
        mem := { s.mem with rx := headerInto s.xc s.mem.rx }, xc := { s.xc with xst := .idle },
        res := { s.res with status := 0#8, result := 4#8 + 2#8 * m }, busy := false } := by
  rw [complete, copyHeader_eq]
  exact endExchange_raw statusOk h

/-- A failed attempt before the last is followed by one more, which RETRY_CNT counts (R144, R153). -/
theorem attemptFailed_reject_more (h1 : 1 ≤ s.xc.att.toNat) (hlt : s.xc.att.toNat < s.xc.retr.toNat) :
    attemptFailed .reject s =
      { s with
        xc := { s.xc.nextAttempt with wb := 0#8 }, cnt := { s.cnt with retry := s.cnt.retry + 1 } } := by
  have hne : s.xc.att ≠ s.xc.retr := fun he => absurd (he ▸ hlt) (Nat.lt_irrefl _)
  have hcount : 1#8 < s.xc.att + 1#8 := by
    have hatt := toNat_add_one (b := s.xc.att) (by have := s.xc.retr.isLt; omega)
    rw [BitVec.lt_def, hatt]
    exact Nat.lt_succ_of_le h1
  rw [attemptFailed_more hne, countStall, beginAttempt, if_pos hcount]
  rfl

/-- The last failed attempt ends the command UNRESPONSIVE (R153). -/
theorem attemptFailed_reject_last (h : s.xc.att = s.xc.retr) : attemptFailed .reject s = s.endedWith 4#8 := by
  rw [attemptFailed_last h]
  exact endExchange_error s (by decide)

end

/-- Settles O38: by the count of the header, and over 32 by the policy. -/
theorem successHeaderIsAccepted : Obligations.SuccessHeaderIsAccepted := by
  intro c s hf
  rw [exec_wireRespOk c hf, exec_wireRespError c hf]
  refine ⟨?zero, fun h1 h32 => ?body, fun h hp => ?fault, fun h hp => ?retry⟩
  case zero =>
    rintro rfl hraw
    rw [acceptHeader_zero, complete_raw 0#8 hraw]
    exact ⟨_, rfl, fun a => get_headerInto_header s.xc s.mem.rx, fun a => get_headerInto_body s.xc s.mem.rx⟩
  case body => rw [acceptHeader_body h1 h32]
  case fault => rw [acceptHeader_fault h hp, raise]
  case retry => rw [acceptHeader_retry h hp]

/-- Settles O39: each rejected opcode is the failed attempt, and the reserved one the success header when
REJECT_CODE_3 does not reject it. -/
theorem rejectedHeaderFailsTheAttempt : Obligations.RejectedHeaderFailsTheAttempt := by
  refine ⟨fun c s i hf hi => ?rejected, fun c s hf hp => ?accepted⟩
  case rejected =>
    have hexec : exec i s = .next (attemptFailed .reject s) := by
      obtain rfl | rfl | ⟨rfl, hp⟩ := hi
      · exact exec_wireRespCorrupt c hf
      · exact exec_wireRespError c hf
      · rw [exec_wireRespReserved c hf, if_pos hp]
    rw [hexec]
    exact ⟨fun h1 hlt => by rw [attemptFailed_reject_more h1 hlt], fun h => by rw [attemptFailed_reject_last h]⟩
  case accepted =>
    refine ⟨acceptHeader c s, ?_, exec_wireRespOk c hf⟩
    rw [exec_wireRespReserved c hf, hp]
    rfl

end Sys2Proof.Machine
end

