-- ==== Sys2Proof/Proofs/Crc.lean ====
section
/-! SUPPORT. CRC8 (spec/41_crc8_framer.md R100): which bytes it reads, the default table T07 as a linear and
injective map (R104), and that a walk over an injective table notices a change of one byte. -/

namespace Sys2Proof.Machine

/-! ### The bytes that CRC8 reads (R100 to R102) -/

/-- CRC8 as a fold: the seed from byte 0, one more lookup for the CRC slot, then bytes 2 up to 4 + 2n. -/
theorem crc8_foldl (t : CrcTable) (img : Image) (n : Nat) :
    crc8 t img n =
      (List.range' 2 (2 + 2 * n)).foldl (fun c i => CrcTable.entry t (c ^^^ Image.get img i))
        (CrcTable.entry t (CrcTable.entry t (Image.get img 0))) :=
  crcWalk_foldl t img _ _ _

/-- CRC8 does not read the CRC slot, nor a byte from 4 + 2n on. -/
theorem crc8_congr (t : CrcTable) {x y : Image} {n : Nat}
    (h : ∀ a, a < 4 + 2 * n → a ≠ 1 → Image.get x a = Image.get y a) : crc8 t x n = crc8 t y n := by
  rw [crc8, crc8, h 0 (by omega) (by omega)]
  exact crcWalk_congr t _ _ _ fun a h2 hlt => h a (by omega) (by omega)

/-- The addresses of a packet's live bytes: byte 0, the CRC slot, and those the walk goes over. -/
theorem range_liveBytes (n : Nat) : List.range (4 + 2 * n) = 0 :: 1 :: List.range' 2 (2 + 2 * n) := by
  rw [List.range_eq_range', show 4 + 2 * n = 2 + 2 * n + 1 + 1 by omega, List.range'_succ, List.range'_succ]

/-- Settles O14: the seed and the lookup for the CRC slot are the serial CRC's first two steps, and the walk is
the rest. -/
theorem crcIsTheSerialCrcWithAZeroSlot : Obligations.CrcIsTheSerialCrcWithAZeroSlot := by
  intro t img n _
  have hwalk (c : Byte) (i : Nat) (hi : i ∈ List.range' 2 (2 + 2 * n)) :
      CrcTable.entry t (c ^^^ Image.get img i) =
        CrcTable.entry t (c ^^^ (if i = 1 then 0#8 else Image.get img i)) := by
    rw [if_neg (by have := (List.mem_range'_1.mp hi).1; omega)]
  rw [crc8_foldl, range_liveBytes, List.foldl_cons, List.foldl_cons, List.foldl_ext _ _ _ hwalk,
    if_neg Nat.zero_ne_one, if_pos rfl, BitVec.zero_xor, BitVec.xor_zero]

/-- Settles O15: neither the seed nor the walk reads byte 1 or a byte past the last. -/
theorem crcReadsOnlyTheWalkedBytes : Obligations.CrcReadsOnlyTheWalkedBytes :=
  fun t _ _ _ _ h => crc8_congr t h

/-! ### The table T07 (R104) -/

/-- One shift-and-reduce step of the polynomial 0x07. -/
def reduceShift (c : Byte) : Byte := if c.getLsbD 7 then (c <<< 1) ^^^ 0x07#8 else c <<< 1

theorem t07Entry_eq_iterate (i : Byte) : t07Entry i = reduceShift^[8] i := rfl

/-- The step is linear: both the shift and the reduction, which bit 7 decides, are. -/
theorem reduceShift_xor (a b : Byte) : reduceShift (a ^^^ b) = reduceShift a ^^^ reduceShift b := by
  unfold reduceShift
  rw [BitVec.getLsbD_xor, BitVec.shiftLeft_xor_distrib]
  cases a.getLsbD 7 <;> cases b.getLsbD 7
  case false.false => rfl
  case false.true => exact BitVec.xor_assoc _ _ _
  case true.false =>
    show a <<< 1 ^^^ b <<< 1 ^^^ 0x07#8 = (a <<< 1 ^^^ 0x07#8) ^^^ b <<< 1
    ac_rfl
  case true.true =>
    show a <<< 1 ^^^ b <<< 1 = (a <<< 1 ^^^ 0x07#8) ^^^ (b <<< 1 ^^^ 0x07#8)
    rw [BitVec.xor_comm (b <<< 1), ← BitVec.xor_assoc, xor_cancel_right]

/-- A reduction sets bit 0, since 0x07 has it, so only a step on 0 gives 0. -/
theorem reduceShift_eq_zero : ∀ {c : Byte}, reduceShift c = 0#8 → c = 0#8 := by decide

/-- A linear map that takes only 0 to 0 takes no two bytes to one. -/
theorem reduceShift_injective : Function.Injective reduceShift := by
  intro a b h
  have hzero : reduceShift (a ^^^ b) = 0#8 := by rw [reduceShift_xor, h, BitVec.xor_self]
  exact BitVec.xor_eq_zero_iff.mp (reduceShift_eq_zero hzero)

theorem t07Entry_xor (a b : Byte) : t07Entry (a ^^^ b) = t07Entry a ^^^ t07Entry b := by
  simp only [t07Entry_eq_iterate, Function.iterate_succ_apply, Function.iterate_zero_apply, reduceShift_xor]

/-- The 256 listed values are the computed ones. -/
theorem toList_t07 : t07.toList = (List.range 256).map fun i => t07Entry (BitVec.ofNat 8 i) := by decide +kernel

theorem entry_t07 (i : Byte) : CrcTable.entry t07 i = t07Entry i := by
  have hi : i.toNat < t07.toList.length := Vector.length_toList.symm ▸ i.isLt
  rw [CrcTable.entry, ← Vector.getElem_toList hi]
  simp [toList_t07]

theorem entry_t07_injective : Function.Injective (CrcTable.entry t07) :=
  funext entry_t07 ▸ reduceShift_injective.iterate 8

/-- Settles O16: the listed table is the computed one, and the computation is linear. -/
theorem defaultTableIsLinear : Obligations.DefaultTableIsLinear :=
  ⟨entry_t07, entry_t07 0#8, fun a b => by rw [entry_t07, entry_t07, entry_t07, t07Entry_xor]⟩

/-! ### Changing one byte (R109, R113) -/

section
variable {t : CrcTable} (ht : Function.Injective (CrcTable.entry t))
include ht

/-- Over an injective table two walks over the same bytes end alike only if they began alike. -/
theorem crcWalk_injective (img : Image) (i len : Nat) : Function.Injective (crcWalk t img i len) := by
  induction len generalizing i with
  | zero => exact fun _ _ h => h
  | succ len ih => exact fun c d h => (BitVec.xor_left_inj _).mp (ht (ih (i + 1) h))

/-- Images that differ at one walked byte are walked to different values: the walks part there and never meet
again. -/
theorem crcWalk_ne {x y : Image} {a : Nat} (hne : Image.get x a ≠ Image.get y a)
    (heq : ∀ b, b ≠ a → Image.get x b = Image.get y b) {i len : Nat} (hi : i ≤ a) (hlen : a < i + len)
    (c : Byte) : crcWalk t x i len c ≠ crcWalk t y i len c := by
  induction len generalizing i c with
  | zero => omega
  | succ len ih =>
    rw [crcWalk, crcWalk]
    by_cases hia : i = a
    · subst hia
      rw [crcWalk_congr t len (i + 1) _ fun b hb _ => heq b (by omega)]
      exact fun h => hne ((BitVec.xor_right_inj _).mp (ht (crcWalk_injective ht y _ _ h)))
    · rw [heq i hia]
      exact ih (by omega) (by omega) _

/-- A change of one covered byte other than the CRC slot changes CRC8: in byte 0 it changes the seed. -/
theorem crc8_ne {x y : Image} {a n : Nat} (hne : Image.get x a ≠ Image.get y a)
    (heq : ∀ b, b ≠ a → Image.get x b = Image.get y b) (hslot : a ≠ 1) (hlen : a < 4 + 2 * n) :
    crc8 t x n ≠ crc8 t y n := by
  rw [crc8, crc8]
  by_cases h0 : a = 0
  · subst h0
    rw [crcWalk_congr t _ _ _ fun b hb _ => heq b (by omega)]
    exact fun h => hne (ht (ht (crcWalk_injective ht y _ _ h)))
  · rw [heq 0 (Ne.symm h0)]
    exact crcWalk_ne ht hne heq (by omega) (by omega) _

end

/-- What PKT.CHECK asks of a buffer (R109). -/
theorem crcValid_iff (t : CrcTable) (img : Image) :
    crcValid t img = true ↔ Image.count img ≤ 32 ∧ crc8 t img (Image.count img) = Image.get img 1 := by
  unfold crcValid
  split
  · next h => rw [decide_eq_true_iff]; exact (and_iff_right h).symm
  · next h => exact iff_of_false Bool.false_ne_true fun hv => h hv.1

/-- A packet found valid is found invalid after a change of one covered byte that keeps the count: either CRC8
or the stored CRC changes, and never both. -/
theorem crcValid_changed {t : CrcTable} (ht : Function.Injective (CrcTable.entry t)) {x y : Image} {a : Nat}
    (hy : crcValid t y = true) (ha : a < 4 + 2 * Image.count y) (hcount : Image.count x = Image.count y)
    (hne : Image.get x a ≠ Image.get y a) (heq : ∀ b, b ≠ a → Image.get x b = Image.get y b) :
    crcValid t x = false := by
  obtain ⟨-, hcrc⟩ := (crcValid_iff t y).mp hy
  refine Bool.eq_false_iff.mpr fun hx => ?_
  obtain ⟨-, hx⟩ := (crcValid_iff t x).mp hx
  rw [hcount] at hx
  by_cases hslot : a = 1
  · subst hslot
    exact hne (hx.symm.trans ((crc8_congr t fun b _ hb => heq b hb).trans hcrc))
  · exact crc8_ne ht hne heq hslot ha (hx.trans ((heq 1 (Ne.symm hslot)).trans hcrc.symm))

/-- Settles O17: T07 is injective, and the store changes one byte of the packet and not its count. -/
theorem oneChangedByteIsDetected : Obligations.OneChangedByteIsDetected := by
  intro img a v hv ha hne hcount
  obtain ⟨hle, -⟩ := (crcValid_iff t07 img).mp hv
  have hget (b : Nat) : Image.get (Image.set img a v) b = if b = a then v else Image.get img b := by
    simp only [Image.get_set, pktLen, show a < 68 by omega, and_true]
  refine crcValid_changed entry_t07_injective hv ha ?count ?changed fun b hb => by rw [hget, if_neg hb]
  case changed => rwa [hget, if_pos rfl]
  case count =>
    rw [Image.count, Image.count, hget]
    split
    · next h0 => rw [hcount h0.symm]
    · rfl

end Sys2Proof.Machine
end

