-- ==== Sys2Proof/Proofs/PktCommands.lean ====
section
/-! SUPPORT. The seven PKT commands (spec/41_crc8_framer.md R105 to R111): what each does at its issue on a free
block, and what the packet it writes or reads then is. -/

namespace Sys2Proof.Machine

/-! ### The issue of a command on a free block -/

section
variable {s : State} {w : Byte} (h : s.Free)
include h

theorem issue_always (body : State → State) : issue w .always s body = .next (body (setCmd w s)) :=
  issue_free h nofun

/-- A command that counts in ARG_N does its part with a legal count (R237). -/
theorem issue_counted {r : Readiness} (hr : r = .needsReady → s.ready = true) (hn : s.regs.n.toNat ≤ 32)
    (body : State → State) :
    issue w r s (fun s => if legalN s.regs.n = false then raise .badCount s else body s) =
      .next (body (setCmd w s)) := by
  rw [issue_free h hr, if_neg (by simp [legalN_of_le hn])]

/-- A command that counts in ARG_N faults BAD_COUNT with a count over 32 (R237). -/
theorem issue_counted_over {r : Readiness} (hr : r = .needsReady → s.ready = true) (hn : 32 < s.regs.n.toNat)
    (body : State → State) :
    issue w r s (fun s => if legalN s.regs.n = false then raise .badCount s else body s) =
      .next { setCmd w s with fault := some .badCount } := by
  rw [issue_free h hr, if_pos (by simp [legalN_of_lt hn])]
  exact congrArg _ (raise_free (s := setCmd w s) _ h.2)

end

/-! ### What each command does on a free block -/

section
variable {s : State} (h : s.Free) (b : Buf)
include h

theorem exec_pktDefault :
    exec (.pktDefault b) s =
      .next ((s.withCmd (.pktDefault b)).setImage b (defaultImage (s.mem.image b))) := by
  rw [exec, execPktDefault, issue_always h]
  rfl

theorem exec_pktClear :
    exec (.pktClear b) s =
      .next ((s.withCmd (.pktClear b)).setImage b (clearImage s.params.regByteOrder (s.mem.image b))) := by
  rw [exec, execPktClear, issue_always h]
  rfl

theorem exec_pktBuild (hn : s.regs.n.toNat ≤ 32) (hm : s.regs.mode &&& 0x3F#8 = 0#8) :
    exec (.pktBuild b) s =
      .next
        ((s.withCmd (.pktBuild b)).setImage b
          (buildImage s.params (s.mem.image b) s.regs.mode s.regs.page s.regs.offset s.regs.n s.regs.value)) := by
  rw [exec, execPktBuild, issue_counted (r := .always) h nofun hn, if_neg (by simp [legalMode, hm])]
  rfl

theorem exec_pktBuild_badCount (hn : 32 < s.regs.n.toNat) :
    exec (.pktBuild b) s = .next { s.withCmd (.pktBuild b) with fault := some .badCount } := by
  rw [exec, execPktBuild, issue_counted_over (r := .always) h nofun hn]
  rfl

theorem exec_pktBuild_badMode (hn : s.regs.n.toNat ≤ 32) (hm : s.regs.mode &&& 0x3F#8 ≠ 0#8) :
    exec (.pktBuild b) s = .next { s.withCmd (.pktBuild b) with fault := some .badMode } := by
  rw [exec, execPktBuild, issue_counted (r := .always) h nofun hn, if_pos (by simp [legalMode, hm])]
  exact congrArg _ (raise_free (s := s.withCmd (.pktBuild b)) _ h.2)

theorem exec_pktCrc8 (hn : s.regs.n.toNat ≤ 32) :
    exec (.pktCrc8 b) s =
      .next (setResult (crc8 s.params.crcTable (s.mem.image b) s.regs.n.toNat) (s.withCmd (.pktCrc8 b))) := by
  rw [exec, execPktCrc8, issue_counted (r := .always) h nofun hn]
  rfl

theorem exec_pktCrc8_badCount (hn : 32 < s.regs.n.toNat) :
    exec (.pktCrc8 b) s = .next { s.withCmd (.pktCrc8 b) with fault := some .badCount } := by
  rw [exec, execPktCrc8, issue_counted_over (r := .always) h nofun hn]
  rfl

theorem exec_pktCheck :
    exec (.pktCheck b) s =
      .next (setFlag (crcValid s.params.crcTable (s.mem.image b)) (s.withCmd (.pktCheck b))) := by
  rw [exec, execPktCheck, issue_always h]
  rfl

theorem exec_pktCount :
    exec (.pktCount b) s = .next (setResult (countBits (s.mem.byte b 0)) (s.withCmd (.pktCount b))) := by
  rw [exec, execPktCount, issue_always h]
  rfl

theorem exec_pktCode :
    exec (.pktCode b) s = .next (setResult (codeBits (s.mem.byte b 0)) (s.withCmd (.pktCode b))) := by
  rw [exec, execPktCode, issue_always h]
  rfl

end

/-! ### The bytes of a buffer written by a command -/

section
variable (m : Memory) {b c : Buf} (img : Image) (a : Nat)

theorem Memory.byte_setImage : (m.setImage b img).byte b a = Image.get img a := by
  rw [Memory.byte, Memory.image_setImage]

theorem Memory.byte_setImage_ne (h : c ≠ b) : (m.setImage b img).byte c a = m.byte c a := by
  rw [Memory.byte, Memory.byte, Memory.image_setImage_ne m img h]

end

/-! ### Default and cleared packets (R106, R107) -/

theorem defaultImage_header (img : Image) (a : Nat) (h : a < 4) : Image.get (defaultImage img) a = 0#8 := by
  rw [get_defaultImage, if_pos (by omega)]

/-- A cleared buffer's byte in a slot is the byte of SENTINEL at its place (R107). -/
theorem get_clearImage_slot (order : ByteOrder) (img : Image) {k : Nat} (hk : k < 32) :
    Image.get (clearImage order img) (4 + 2 * k) = firstByte order sentinel ∧
      Image.get (clearImage order img) (5 + 2 * k) = secondByte order sentinel := by
  rw [get_clearImage, get_clearImage, if_neg (by omega), if_pos (by omega), if_pos (by omega),
    if_neg (by omega), if_pos (by omega), if_neg (by omega)]
  exact ⟨rfl, rfl⟩

/-! ### Packets that pass PKT.CHECK (R109) -/

/-- A packet whose header is 0 is an empty one, so PKT.CHECK asks for a CRC of 0 over four zeros. -/
theorem crcValid_of_zeroHeader (t : CrcTable) {img : Image} (h : ∀ a, a < 4 → Image.get img a = 0#8) :
    crcValid t img =
      decide (CrcTable.entry t (CrcTable.entry t (CrcTable.entry t (CrcTable.entry t 0#8))) = 0#8) := by
  have hcount : Image.count img = 0 := by rw [Image.count, h 0 (by omega)]; rfl
  rw [crcValid, hcount, if_pos (Nat.zero_le _), h 1 (by omega)]
  simp [crc8, crcWalk, h]

/-- T07 takes 0 to 0 (R104), so under it a packet with a zero header is valid. -/
theorem crcValid_t07_of_zeroHeader {img : Image} (h : ∀ a, a < 4 → Image.get img a = 0#8) :
    crcValid t07 img = true := by
  have hzero : CrcTable.entry t07 0#8 = 0#8 := entry_t07 0#8
  rw [crcValid_of_zeroHeader t07 h, hzero, hzero, hzero, hzero, decide_eq_true rfl]

/-- A packet whose CRC covers the values that its byte 0 counts is valid, for every table (R112). -/
theorem crcValid_of_packet {p : Params} {old img : Image} {mode page offset n : Byte} {f : Nat → RegValue}
    (h : Packet p old img (n ||| mode) page offset n.toNat n.toNat f) (hn : n.toNat ≤ 32)
    (hm : mode &&& 0x3F#8 = 0#8) : crcValid p.crcTable img = true := by
  have hcount : Image.count img = n.toNat := by rw [Image.count, h.byte0, countOf_or hn hm]
  rw [crcValid_iff, hcount]
  exact ⟨hn, h.crc.symm⟩

/-! ### The statements about the PKT commands -/

/-- Settles O18: every byte of the zeroed buffer reads 0, its header among them. -/
theorem defaultZeroesTheBuffer : Obligations.DefaultZeroesTheBuffer := by
  refine ⟨⟨rfl, rfl⟩, fun b s h => ⟨_, exec_pktDefault h b, ?zeroed, ?frame, ?verdict, ?t07⟩⟩
  case zeroed =>
    intro a ha
    rw [Memory.byte_setImage, get_defaultImage, if_pos ha]
  case frame =>
    rintro c a (hc | ha)
    · exact Memory.byte_setImage_ne s.mem _ a hc
    · by_cases hc : c = b
      · rw [hc, Memory.byte_setImage, get_defaultImage, if_neg (by omega)]
        rfl
      · exact Memory.byte_setImage_ne s.mem _ a hc
  case verdict =>
    rw [Memory.image_setImage]
    exact crcValid_of_zeroHeader _ (defaultImage_header _)
  case t07 =>
    intro ht
    rw [Memory.image_setImage, ht]
    exact crcValid_t07_of_zeroHeader (defaultImage_header _)

/-- Settles O19: the slots hold the bytes of SENTINEL in the block's order, and the header is 0. -/
theorem clearFillsTheBuffer : Obligations.ClearFillsTheBuffer := by
  refine ⟨⟨rfl, rfl⟩, fun b s h => ⟨_, exec_pktClear h b, ?cleared, ?le, ?be, ?frame, ?t07⟩⟩
  case frame => exact fun c a hc => Memory.byte_setImage_ne s.mem _ a hc
  case cleared =>
    rw [Memory.image_setImage]
    exact cleared_clearImage s.params (s.mem.image b)
  case le =>
    intro k hk hle
    rw [Memory.byte_setImage, Memory.byte_setImage, hle]
    exact get_clearImage_slot .le _ hk
  case be =>
    intro k hk hbe
    rw [Memory.byte_setImage, Memory.byte_setImage, hbe]
    exact get_clearImage_slot .be _ hk
  case t07 =>
    intro ht
    rw [Memory.image_setImage, ht]
    exact crcValid_t07_of_zeroHeader (cleared_clearImage s.params (s.mem.image b)).header

/-- Settles O20: the packet built is `packet_buildImage`'s, and the two faults are the checks before it. -/
theorem buildEncodesThePacket : Obligations.BuildEncodesThePacket := by
  refine ⟨⟨rfl, rfl⟩, fun b s h => ⟨fun hn hm => ⟨_, exec_pktBuild h b hn hm, ?packet, ?frame⟩,
    exec_pktBuild_badCount h b, exec_pktBuild_badMode h b⟩⟩
  case frame => exact fun c a hc => Memory.byte_setImage_ne s.mem _ a hc
  case packet =>
    rw [Memory.image_setImage]
    exact (packet_buildImage s.params _ _ _ _ _ _ hn).congr fun k _ => HostRegs.value_eq s.regs k

/-- Settles O21: RESULT is CRC8 as a fold over the bytes of the buffer. -/
theorem crcCommandWritesResult : Obligations.CrcCommandWritesResult := by
  refine ⟨⟨rfl, rfl⟩, fun b s h => ⟨fun hn => ?crc, exec_pktCrc8_badCount h b⟩⟩
  rw [exec_pktCrc8 h b hn, crc8_foldl]
  rfl

/-- Settles O22: the count field and the count bits of byte 0 are the same number. -/
theorem checkWritesTheVerdict : Obligations.CheckWritesTheVerdict := by
  refine ⟨⟨rfl, rfl⟩, fun b s h => ⟨_, exec_pktCheck h b, ?_⟩⟩
  have hcount : Image.count (s.mem.image b) = (s.mem.byte b 0 &&& 0x3F#8).toNat := countOf_toNat _
  rw [crcValid_iff, hcount]
  rfl

/-- Settles O23: RESULT takes the masked byte 0. -/
theorem countAndCodeReadByteZero : Obligations.CountAndCodeReadByteZero :=
  ⟨⟨rfl, rfl, rfl, rfl⟩, fun b _ h => ⟨exec_pktCount h b, exec_pktCode h b⟩⟩

/-- Settles O24: the packet built is one whose CRC covers the values that its byte 0 counts. -/
theorem buildThenCheckPasses : Obligations.BuildThenCheckPasses := by
  intro b s h hn hm
  refine ⟨_, _, exec_pktBuild h b hn hm, exec_pktCheck (s := State.setImage _ b _) h b, ?_⟩
  rw [setFlag_res_flag, State.setImage_mem, Memory.image_setImage]
  exact crcValid_of_packet (packet_buildImage s.params _ _ _ _ _ _ hn) hn hm

/-! ### The READ request (R193, R194) -/

/-- Register writes depend only on the values written. -/
theorem Image.setRegs_congr (order : ByteOrder) (img : Image) {f g : Nat → RegValue} {n : Nat}
    (h : ∀ k, k < n → f k = g k) : Image.setRegs order img f n = Image.setRegs order img g n := by
  induction n with
  | zero => rfl
  | succ n ih => rw [Image.setRegs, Image.setRegs, ih fun k hk => h k (by omega), h n (by omega)]

/-- A packet depends only on the values that its count takes in. -/
theorem buildImage_congr (p : Params) (img : Image) (mode page offset n : Byte) {f g : Nat → RegValue}
    (h : ∀ k, k < n.toNat → f k = g k) :
    buildImage p img mode page offset n f = buildImage p img mode page offset n g := by
  rw [buildImage, buildImage, layImage, layImage, Image.setRegs_congr _ _ h]

/-- Under ZERO_PAYLOAD a READ request is a built packet of zeros (R194). -/
theorem readRequest_zeroPayload {p : Params} (h : p.readCrcMode = .zeroPayload) (img : Image)
    (page offset n : Byte) :
    readRequest p img page offset n = buildImage p img modeRead page offset n fun _ => 0#16 := by
  rw [readRequest, h]

/-- The packet exchange of a REG command writes RX only, so TX keeps the request (R191). -/
theorem runReg_getBody_tx (f : FState) (n m : Byte) (ret : Byte → State → State) (s : State) :
    (runReg f m (getBody n ret) s).mem.tx = readRequest s.params s.mem.tx s.regs.page s.regs.offset n := by
  rw [runReg, firstCall_mem, getBody, packetExchange_driver, onReturn, classifyAttempt_driver]
  rfl

theorem exec_regGet {s : State} (h : s.Able) (hn : s.regs.n.toNat ≤ 32) :
    exec .regGet s = .next (runReg .get s.regs.n (getBody s.regs.n getReturn) (s.withCmd .regGet)) := by
  obtain ⟨hf, hb, hready⟩ := h
  rw [exec, execRegGet, issue_counted ⟨hf, hb⟩ (fun _ => hready) hn]
  rfl

/-- Settles O44: both commands write the same packet into the same TX. -/
theorem readRequestIsABuiltPacket : Obligations.ReadRequestIsABuiltPacket := by
  intro s hable hn hp hmode hval
  have ⟨hf, hb, _⟩ := hable
  have hlegal : s.regs.mode &&& 0x3F#8 = 0#8 := by rw [hmode]; rfl
  have hzero (k : Nat) (hk : k < s.regs.n.toNat) : s.regs.value k = 0#16 :=
    (dif_pos (by omega)).trans (hval k (by omega) hk)
  refine ⟨_, _, exec_regGet hable hn, exec_pktBuild ⟨hf, hb⟩ .tx hn hlegal, ?_⟩
  calc
    _ = readRequest s.params s.mem.tx s.regs.page s.regs.offset s.regs.n :=
      runReg_getBody_tx .get s.regs.n s.regs.n getReturn (s.withCmd .regGet)
    _ = buildImage s.params s.mem.tx 0x00#8 s.regs.page s.regs.offset s.regs.n fun _ => 0#16 :=
      readRequest_zeroPayload hp ..
    _ = buildImage s.params s.mem.tx s.regs.mode s.regs.page s.regs.offset s.regs.n s.regs.value := by
      rw [hmode, buildImage_congr _ _ _ _ _ _ hzero]

end Sys2Proof.Machine
end

