-- ==== Sys2Proof/Proofs/LinkSteps.lean ====
section
/-! SUPPORT. The steps of a running command, one equation for each answer of the link, and the statements about
single steps of the transceiver (spec/42_transceiver.md R141 to R155). -/

namespace Sys2Proof.Machine

/-- A byte that counts and is not at its end yet. -/
theorem add_one_ne_of_lt {b c : Byte} (h : b.toNat + 1 < c.toNat) : b + 1#8 ≠ c := fun he => by
  have hc := c.isLt
  rw [← he, toNat_add_one (by omega)] at h
  exact Nat.lt_irrefl _ h

/-! ### One equation for each answer -/

section
variable {s : State}

theorem discardStep_data {b : Byte} (h : s.link.pollAnswer = .data b) : discardStep s = s.afterPoll := by
  rw [discardStep, h]

theorem discardStep_other (h : givesByte s.link.pollAnswer = false) :
    discardStep s = enter .write s.afterPoll := by
  obtain ⟨b, hp, -⟩ | ⟨-, he⟩ := discardStep_cases s
  · rw [hp] at h
    cases h
  · exact he

theorem drainStep_data {b : Byte} (h : s.link.pollAnswer = .data b) : drainStep s = s.afterPoll := by
  rw [drainStep, h]

theorem drainStep_other (h : givesByte s.link.pollAnswer = false) : drainStep s = finish statusOk s.afterPoll := by
  obtain ⟨b, hp, -⟩ | ⟨-, he⟩ := drainStep_cases s
  · rw [hp] at h
    cases h
  · exact he

section
variable (hi : s.xc.idx.toNat < 68)
include hi

theorem writeStep_ok (ha : s.link.writeAnswer = .ok) :
    writeStep s = .next (byteWritten (s.afterWrite (s.mem.byte .tx s.xc.idx.toNat))) := by
  rw [writeStep, Image.read8_of_lt hi, ha]
  rfl

theorem writeStep_busy (ha : s.link.writeAnswer = .busy) :
    writeStep s = .next (s.afterWrite (s.mem.byte .tx s.xc.idx.toNat)) := by
  rw [writeStep, Image.read8_of_lt hi, ha]
  rfl

theorem writeStep_err {e : LinkErr} (ha : s.link.writeAnswer = .err e) :
    writeStep s = .next (commAbort e (s.afterWrite (s.mem.byte .tx s.xc.idx.toNat))) := by
  rw [writeStep, Image.read8_of_lt hi, ha]
  rfl

end

/-- A byte written before the last moves IDX on (R146). -/
theorem byteWritten_more (h : s.xc.idx + 1#8 ≠ s.xc.txlen) :
    byteWritten s = { s with xc := { s.xc with idx := s.xc.idx + 1#8 } } := if_neg h

/-- The last live byte written is followed by the next phase (R146). -/
theorem byteWritten_last (h : s.xc.idx + 1#8 = s.xc.txlen) : byteWritten s = enter (afterLastByte s.params) s :=
  if_pos h

theorem flushStep_ok (ha : s.link.flushAnswer = .ok) : flushStep s = enter .rdHdr s.afterFlush := by
  rw [flushStep, ha]

theorem flushStep_busy (ha : s.link.flushAnswer = .busy) : flushStep s = s.afterFlush := by
  rw [flushStep, ha]

theorem flushStep_err {e : LinkErr} (ha : s.link.flushAnswer = .err e) :
    flushStep s = commAbort e s.afterFlush := by
  rw [flushStep, ha]

theorem rdHdrStep_data {b : Byte} (hi : s.xc.idx.toNat < 4) (ha : s.link.pollAnswer = .data b) :
    rdHdrStep s = .next (headerByte b s.afterPoll) := by
  rw [rdHdrStep, ha]
  exact if_pos hi

theorem rdBodyStep_data {b : Byte} (hi : s.xc.idx.toNat < 64) (ha : s.link.pollAnswer = .data b) :
    rdBodyStep s =
      .next (bodyByte (s.afterPoll.setImage .rx (Image.set s.mem.rx (4 + s.xc.idx.toNat) b))) := by
  have hin : hdrLen + s.xc.idx.toNat < pktLen := by simp only [hdrLen, pktLen]; omega
  rw [rdBodyStep, ha]
  simp only [Image.write8_of_lt b hin]

/-- In both reading phases a NoData answer is a would-block (R149, R151). -/
theorem linkStep_noData (hx : s.xc.xst = .rdHdr ∨ s.xc.xst = .rdBody) (ha : s.link.pollAnswer = .noData) :
    linkStep s = .next (wouldBlock s.afterPoll) := by
  obtain hx | hx := hx
  · rw [linkStep_rdHdr hx, rdHdrStep, ha]
  · rw [linkStep_rdBody hx, rdBodyStep, ha]

/-- In both reading phases an error aborts the exchange (R149, R151). -/
theorem linkStep_pollErr {e : LinkErr} (hx : s.xc.xst = .rdHdr ∨ s.xc.xst = .rdBody)
    (ha : s.link.pollAnswer = .err e) : linkStep s = .next (commAbort e s.afterPoll) := by
  obtain hx | hx := hx
  · rw [linkStep_rdHdr hx, rdHdrStep, ha]
  · rw [linkStep_rdBody hx, rdBodyStep, ha]

/-- A byte stored at one of the four places of HDR. -/
theorem setIfInBounds_of_lt {n i : Nat} {α : Type} (v : Vector α n) (a : α) (h : i < n) :
    v.setIfInBounds i a = v.set i a h :=
  Vector.ext fun j hj => by rw [Vector.getElem_setIfInBounds hj, Vector.getElem_set h hj]

/-- A header byte before the fourth is stored (R149). -/
theorem headerByte_more {b : Byte} (h : s.xc.idx.toNat < 3) :
    headerByte b s =
      { s with
        xc :=
          { s.xc with
            hdr := s.xc.hdr.set s.xc.idx.toNat b (by omega), idx := s.xc.idx + 1#8, wb := 0#8 } } := by
  have hne : s.xc.idx + 1#8 ≠ 4#8 := add_one_ne_of_lt (show s.xc.idx.toNat + 1 < 4 by omega)
  rw [headerByte, if_neg hne, byteRead, storeHdr, setIfInBounds_of_lt]

/-- The fourth header byte is stored and the header judged (R149). -/
theorem headerByte_last {b : Byte} (h : s.xc.idx = 3#8) :
    headerByte b s =
      validateHeader { s with xc := { s.xc with hdr := s.xc.hdr.set 3 b, idx := 4#8, wb := 0#8 } } := by
  have hlast : s.xc.idx + 1#8 = 4#8 := by rw [h]; rfl
  have hidx : s.xc.idx.toNat = 3 := congrArg BitVec.toNat h
  rw [headerByte, if_pos hlast, hidx, byteRead, storeHdr, setIfInBounds_of_lt _ _ (by decide), h]
  rfl

/-- A body byte before the last moves IDX on (R151). -/
theorem bodyByte_more (h : s.xc.idx + 1#8 ≠ s.xc.nbody) : bodyByte s = byteRead s := if_neg h

/-- The last body byte completes the exchange (R151). -/
theorem bodyByte_last (h : s.xc.idx + 1#8 = s.xc.nbody) :
    bodyByte s = complete (s.xc.nbody / 2#8) (byteRead s) := if_pos h

/-- A NoData within the tolerance counts in WB (R155). -/
theorem wouldBlock_more (h255 : s.xc.wb.toNat < 255) (h : s.xc.wb.toNat < s.params.stallTolerance) :
    wouldBlock s = countWouldBlock s :=
  wouldBlock_within (by rw [toNat_add_one h255]; omega)

/-- The NoData beyond the tolerance fails the attempt (R155). -/
theorem wouldBlock_last (h255 : s.xc.wb.toNat < 255) (h : s.xc.wb.toNat = s.params.stallTolerance) :
    wouldBlock s = attemptFailed .stall (countWouldBlock s) :=
  wouldBlock_over (by rw [toNat_add_one h255]; omega)

/-- An attempt after the first is counted by RETRY_CNT (R144). -/
theorem beginAttempt_next (h1 : 1 ≤ s.xc.att.toNat) (h255 : s.xc.att.toNat < 255) :
    beginAttempt s =
      { s with xc := s.xc.nextAttempt, cnt := { s.cnt with retry := s.cnt.retry + 1 } } := by
  have hcount : 1#8 < s.xc.att + 1#8 := by
    rw [BitVec.lt_def, toNat_add_one h255]
    exact Nat.lt_succ_of_le h1
  rw [beginAttempt, if_pos hcount]
  rfl

/-- A link error ends the command with COMM, whichever runs (R154). -/
theorem commAbort_eq (e : LinkErr) : commAbort e s = (setErrinfo e s).endedWith 1#8 :=
  endExchange_error (setErrinfo e s) (by decide)

end

/-! ### The statements about single steps -/

/-- Settles O30: the two equations of a drain step. -/
theorem discardStateDrains : Obligations.DiscardStateDrains := by
  intro s h hx
  rw [step_runs h, linkStep_discard (s := s.turned) hx]
  refine ⟨fun b hb => ?data, fun hn => ?other⟩
  case data => rw [discardStep_data (s := s.turned) hb]
  case other =>
    rw [discardStep_other (s := s.turned) hn]
    rfl

/-- Settles O31: by the phase and the link's answer. -/
theorem sendingHandsTheBytesToTheLink : Obligations.SendingHandsTheBytesToTheLink := by
  intro s h
  rw [step_runs h]
  refine ⟨fun hx hi ha hmore => ?more, fun hx hi ha hlast => ?last, fun hx hi ha => ?busy,
    fun hx ha => ?flushed, fun hx ha => ?flushBusy⟩
  case more =>
    rw [linkStep_write (s := s.turned) hx, writeStep_ok (s := s.turned) hi ha]
    exact congrArg _ (byteWritten_more (s := s.turned.afterWrite _) hmore)
  case last =>
    rw [linkStep_write (s := s.turned) hx, writeStep_ok (s := s.turned) hi ha]
    exact congrArg _ (byteWritten_last (s := s.turned.afterWrite _) hlast)
  case busy => rw [linkStep_write (s := s.turned) hx, writeStep_busy (s := s.turned) hi ha]; rfl
  case flushed => rw [linkStep_flush (s := s.turned) hx, flushStep_ok (s := s.turned) ha]; rfl
  case flushBusy => rw [linkStep_flush (s := s.turned) hx, flushStep_busy (s := s.turned) ha]

/-- Settles O32: a header byte, a body byte, a would-block. -/
theorem readingStoresBytesAndCountsGaps : Obligations.ReadingStoresBytesAndCountsGaps := by
  intro s h
  rw [step_runs h]
  refine ⟨fun b hi hx ha => ?header,
    fun b hx ha hmore hn => ⟨Image.set s.mem.rx (4 + s.xc.idx.toNat) b, ?body, ?stored, ?frame⟩,
    fun hx ha h255 hT => ?gap⟩
  case header =>
    rw [linkStep_rdHdr (s := s.turned) hx, rdHdrStep_data (s := s.turned) (hi.trans (by decide)) ha]
    exact congrArg _ (headerByte_more (s := s.turned.afterPoll) hi)
  case body =>
    rw [linkStep_rdBody (s := s.turned) hx,
      rdBodyStep_data (s := s.turned) (show s.xc.idx.toNat < 64 by omega) ha]
    exact congrArg _ (bodyByte_more (s := s.turned.afterPoll.setImage .rx _) (add_one_ne_of_lt hmore))
  case stored => exact (Image.get_set ..).trans (if_pos ⟨rfl, by simp only [pktLen]; omega⟩)
  case frame => exact fun a hne => (Image.get_set ..).trans (if_neg fun he => hne he.1)
  case gap =>
    rw [linkStep_noData (s := s.turned) hx ha, wouldBlock_more (s := s.turned.afterPoll) h255 hT]
    rfl

/-- Settles O33: the would-block beyond the tolerance is a failed attempt, followed by the next one or by the
end of the command. -/
theorem stallEndsTheAttempt : Obligations.StallEndsTheAttempt := by
  intro s h hx ha h255 hT
  rw [step_runs h, linkStep_noData (s := s.turned) hx ha, wouldBlock_last (s := s.turned.afterPoll) h255 hT]
  refine ⟨fun h1 hlt => ?next, fun hlast => ?last⟩
  case next =>
    have hne : s.xc.att ≠ s.xc.retr := fun he => absurd (he ▸ hlt) (Nat.lt_irrefl _)
    have hretr := s.xc.retr.isLt
    rw [attemptFailed_more (s := countWouldBlock s.turned.afterPoll) hne]
    exact congrArg _ (beginAttempt_next (s := countStall .stall (countWouldBlock _)) h1
      (show s.xc.att.toNat < 255 by omega))
  case last =>
    rw [attemptFailed_last (s := countWouldBlock s.turned.afterPoll) hlast, endExchange_error _ (by decide)]
    rfl

/-- Settles O34: an error answer aborts in each phase, and an abort ends the command. -/
theorem linkErrorEndsTheCommand : Obligations.LinkErrorEndsTheCommand := by
  intro s e h hi
  rw [step_runs h]
  refine ⟨fun hx ha => ?write, fun hx ha => ?flush, fun hx ha => ?read⟩
  case write =>
    rw [linkStep_write (s := s.turned) hx, writeStep_err (s := s.turned) hi ha, commAbort_eq]
    rfl
  case flush => rw [linkStep_flush (s := s.turned) hx, flushStep_err (s := s.turned) ha, commAbort_eq]
  case read => rw [linkStep_pollErr (s := s.turned) hx ha, commAbort_eq]

/-- The judgement of a header is the meaning of the response that its byte 0 decodes to (R150; log 15). -/
theorem exec_responseOf {s : State} (hf : s.fault = none) :
    exec (responseOf s.xc.hdr[0]) s = .next (validateHeader s) := by
  have h0 : s.xc.hdrByte 0 = s.xc.hdr[0] := Xcvr.hdrByte_eq s.xc 0 (by decide)
  rw [responseOf, validateHeader, h0]
  split_ifs
  · exact exec_wireRespOk _ hf
  · exact exec_wireRespCorrupt _ hf
  · exact exec_wireRespError _ hf
  · exact exec_wireRespReserved _ hf

/-- Settles O4: the fourth byte leaves HDR[0] as it was, so the header judged is the response it stands for. -/
theorem stepRunsTheHeaderReceived : Obligations.StepRunsTheHeaderReceived := by
  intro s b h hx hi ha
  have hidx : s.xc.idx.toNat < 4 := by rw [hi]; decide
  have hsound := h.1
  refine ⟨_, rfl, ?_⟩
  rw [step_runs h, linkStep_rdHdr (s := s.turned) hx, rdHdrStep_data (s := s.turned) hidx ha,
    headerByte_last (s := s.turned.afterPoll) hi]
  have h0 : s.xc.hdr[0] = (s.xc.hdr.set 3 b)[0] := (Vector.getElem_set_ne (by decide) (by decide) (by decide)).symm
  rw [h0]
  exact (exec_responseOf (s := { s.turned.afterPoll with
    xc := { s.xc with hdr := s.xc.hdr.set 3 b, idx := 4#8, wb := 0#8 } }) hsound).symm

/-! ### The issue of the XCVR commands -/

section
variable {s : State}

theorem exec_xcvrSetup (h : s.Free) : exec .xcvrSetup s = .next (setupCall s.ready (s.withCmd .xcvrSetup)) := by
  rw [exec, execXcvrSetup, issue_always h]
  rfl

theorem State.Able.free (h : s.Able) : s.Free := ⟨h.1, h.2.1⟩

theorem exec_xcvrExchange (h : s.Able) :
    exec .xcvrExchange s = .next (firstCall (startExchange s.regs.retries (s.issued .xcvrExchange))) := by
  rw [exec, execXcvrExchange, issue_free h.free fun _ => h.2.2]
  rfl

theorem exec_xcvrDiscard (h : s.Able) : exec .xcvrDiscard s = .next (drainStep (s.issued .xcvrDiscard)) := by
  rw [exec, execXcvrDiscard, issue_free h.free fun _ => h.2.2]
  rfl

/-- A command that ends in its own step leaves BUSY = 0 as it found it. -/
theorem finish_free {t : State} (st : Byte) (hb : t.busy = false) :
    finish st t = { t with res := { t.res with status := st } } := by
  rw [finish, ← hb]

theorem setupCall_ok (r : Bool) (h : s.link.setupAnswer = .ok) :
    setupCall r s = finish statusOk { s.afterSetup with ready := true } := by
  rw [setupCall, h]

theorem setupCall_err (r : Bool) {e : LinkErr} (h : s.link.setupAnswer = .err e) :
    setupCall r s = finish statusComm (setErrinfo e { s.afterSetup with ready := r }) := by
  rw [setupCall, h]

/-- A command that has ended in its issue makes no link call (R143). -/
theorem firstCall_ended (hb : s.busy = false) : firstCall s = s := if_neg (by simp [hb])

/-- The first link call of an attempt that has just begun: the drain poll (R145). -/
theorem firstCall_discard (hb : s.busy = true) (hx : s.xc.xst = .discard) (hi : s.xc.idx = 0#8) :
    firstCall s =
      { s.afterPoll with
        xc := { s.xc with xst := if givesByte s.link.pollAnswer then .discard else .write } } := by
  rw [firstCall, if_pos hb, discardStep_first hx hi]

/-- An exchange with retries, begun and its first drain poll made (R143 to R145). -/
theorem firstCall_startExchange {r : Byte} (hb : s.busy = true) (hr : r ≠ 0#8) :
    firstCall (startExchange r s) =
      { s.afterPoll with
        xc := s.xc.firstAttempt r (liveLength (Image.get s.mem.tx 0)) (!givesByte s.link.pollAnswer) } := by
  rw [startExchange_pos _ hr]
  refine Eq.trans (firstCall_discard hb rfl rfl) ?_
  rw [Xcvr.firstAttempt]
  cases givesByte s.link.pollAnswer <;> rfl

end

/-- Settles O26: by the link's answer. -/
theorem setupAsksTheLink : Obligations.SetupAsksTheLink := by
  refine ⟨rfl, fun s h => ?_⟩
  rw [exec_xcvrSetup h]
  refine ⟨fun ha => ?ok, fun e ha => ?err⟩
  case ok =>
    rw [setupCall_ok (s := s.withCmd .xcvrSetup) _ ha]
    exact congrArg _ (finish_free (t := { (s.withCmd .xcvrSetup).afterSetup with ready := true }) _ h.2)
  case err =>
    rw [setupCall_err (s := s.withCmd .xcvrSetup) _ ha]
    exact congrArg _ (finish_free (t := setErrinfo e { (s.withCmd .xcvrSetup).afterSetup with ready := s.ready }) _ h.2)

/-- Settles O29: an exchange with no retries ends in its issue, any other begins with the drain poll. -/
theorem exchangeBeginsItsFirstAttempt : Obligations.ExchangeBeginsItsFirstAttempt := by
  intro s h
  rw [exec_xcvrExchange h]
  refine ⟨fun hr => ?none, fun hr => ?first⟩
  case none =>
    obtain ⟨-, hb, -⟩ := h
    rw [hr, startExchange_zero, firstCall_ended rfl, finish, ← hb]
    rfl
  case first =>
    rw [firstCall_startExchange rfl hr]
    rfl

end Sys2Proof.Machine
end

