-- ==== Sys2Proof/Proofs/Replies.lean ====
section
/-! SUPPORT. A reply received to its last byte (spec/42_transceiver.md R149 to R152): what RX then reads, and what
the end of the exchange does in a raw exchange and in a REG command (spec/43_register_access.md R191 to R198). -/

namespace Sys2Proof.Machine

/-! ### The last byte -/

section
variable {s : State} {b : Byte} {m : Nat}

/-- The opcode bits of a header's byte 0, in their place (R71). -/
theorem codeBits_eq (w : Byte) : codeBits w = opcodeOf w ++ 0#6 := by
  have happ (o : BitVec 2) (c : BitVec 6) : codeBits (o ++ c) = o ++ 0#6 := by revert o c; decide
  rw [← happ (opcodeOf w) (countOf w), append_countOf rfl]

/-- The count of a header is its count bits (R71). -/
theorem countOf_toNat_of_countBits {w : Byte} (h : countBits w = BitVec.ofNat 8 m) (hm : m ≤ 32) :
    (countOf w).toNat = m := by
  have hw : w &&& 0x3F#8 = BitVec.ofNat 8 m := h
  rw [countOf_toNat, hw, BitVec.toNat_ofNat, Nat.mod_eq_of_lt (by omega)]

/-- A header whose opcode is not rejected is judged by its count (R73, R150). -/
theorem validateHeader_accepted (h : rejected s.params (codeBits s.xc.hdr[0]) = false) :
    validateHeader s = acceptHeader (countOf s.xc.hdr[0]) s := by
  have h0 : s.xc.hdrByte 0 = s.xc.hdr[0] := Xcvr.hdrByte_eq s.xc 0 (by decide)
  rw [validateHeader, h0]
  rw [codeBits_eq] at h
  split_ifs with hok hcorrupt herror
  · rfl
  · rw [hcorrupt] at h
    cases h
  · rw [herror] at h
    cases h
  · rw [opcode_eq_reserved hok hcorrupt herror] at h
    exact if_neg (by simpa [rejected] using h)

/-- The number of bytes of a reply of m values, as the block computes it (R152). -/
theorem replyLength (m : Nat) : 4#8 + 2#8 * BitVec.ofNat 8 m = BitVec.ofNat 8 (4 + 2 * m) := by
  rw [BitVec.ofNat_add, BitVec.ofNat_mul]

/-- NBODY counts the bytes of m values (R29, R151). -/
theorem nbody_half (hm : m ≤ 32) : BitVec.ofNat 8 (2 * m) / 2#8 = BitVec.ofNat 8 m := by
  apply BitVec.eq_of_toNat_eq
  rw [BitVec.toNat_udiv, BitVec.toNat_ofNat, BitVec.toNat_ofNat, BitVec.toNat_ofNat]
  simp only [Nat.reducePow, Nat.reduceMod]
  omega

/-- The fourth byte of a header whose opcode is not rejected (R149, R150). -/
theorem headerByte_accepted (hi : s.xc.idx = 3#8) (h : rejected s.params (codeBits s.xc.hdr[0]) = false) :
    headerByte b s =
      acceptHeader (countOf s.xc.hdr[0])
        { s with xc := { s.xc with hdr := s.xc.hdr.set 3 b, idx := 4#8, wb := 0#8 } } := by
  have h0 : (s.xc.hdr.set 3 b)[0] = s.xc.hdr[0] := Vector.getElem_set_ne (by decide) (by decide) (by decide)
  rw [headerByte_last hi]
  refine (validateHeader_accepted ?_).trans ?_
  · rwa [h0]
  · rw [h0]

/-- The whole reply has been received: its header stands in RX, RESULT is the number of its bytes (R152). -/
def State.replied (s : State) (b : Byte) (m : Nat) : State :=
  { s.turned.afterPoll with
    mem := { s.mem with rx := s.receivedWith b },
    xc := s.xc.withLastByte b,
    res := { s.res with result := BitVec.ofNat 8 (4 + 2 * m) } }

/-- The last byte of a reply ends the exchange with OK (R149 to R152). -/
theorem step_lastByte (hr : s.Runs) (hp : s.link.pollAnswer = .data b) (hl : s.LastByteNext m) :
    step s = .next (endExchange statusOk (s.replied b m)) := by
  rw [step_runs hr]
  obtain ⟨rfl, hx, hi, hcount, hrej⟩ | ⟨-, hm, hx, hn, hi⟩ := hl
  case inl =>
    have hzero : countOf s.xc.hdr[0] = 0#6 :=
      BitVec.eq_of_toNat_eq (countOf_toNat_of_countBits (m := 0) hcount (by decide))
    rw [linkStep_rdHdr (s := s.turned) hx,
      rdHdrStep_data (s := s.turned) (show s.xc.idx.toNat < 4 by rw [hi]; decide) hp,
      headerByte_accepted (s := s.turned.afterPoll) hi hrej]
    refine congrArg _ ((congrArg (acceptHeader · _) hzero).trans ?_)
    rw [acceptHeader_zero, complete, State.replied, State.receivedWith, Xcvr.withLastByte, if_pos hx, if_pos hx, hi]
    rfl
  case inr =>
    have hlast : s.xc.idx + 1#8 = s.xc.nbody := by
      apply BitVec.eq_of_toNat_eq
      rw [hn, toNat_add_one (by omega), BitVec.toNat_ofNat]
      omega
    have hhalf : s.xc.nbody / 2#8 = BitVec.ofNat 8 m := by rw [hn, nbody_half hm]
    have hne : s.xc.xst ≠ .rdHdr := by simp [hx]
    rw [linkStep_rdBody (s := s.turned) hx, rdBodyStep_data (s := s.turned) (show s.xc.idx.toNat < 64 by omega) hp,
      bodyByte_last (s := s.turned.afterPoll.setImage .rx _) hlast]
    refine congrArg _ ((congrArg (complete · _) hhalf).trans ?_)
    rw [complete, replyLength, State.replied, State.receivedWith, Xcvr.withLastByte, if_neg hne, if_neg hne]
    rfl

/-! ### What RX then reads -/

/-- The bytes of the header before the last are those received before. -/
theorem withLastByte_hdr (x : Xcvr) (b : Byte) {i : Nat} (hi : i < 3) :
    (x.withLastByte b).hdr[i] = x.hdr[i] := by
  unfold Xcvr.withLastByte
  split
  · exact Vector.getElem_set_ne (by omega) (by omega) (by omega)
  · rfl

theorem receivedWith_header {a : Nat} (h : a < 4) :
    Image.get (s.receivedWith b) a = (s.xc.withLastByte b).hdr[a] := by
  exact get_headerInto_header _ _ h

/-- Past the header RX holds the last byte of the body, if there is one, and what it held before (R151). -/
theorem receivedWith_body (hl : s.LastByteNext m) {a : Nat} (h : 4 ≤ a) :
    Image.get (s.receivedWith b) a = if 1 ≤ m ∧ a = 3 + 2 * m then b else Image.get s.mem.rx a := by
  refine (get_headerInto_body _ _ h).trans ?_
  obtain ⟨rfl, hx, -⟩ | ⟨h1, h32, hx, -, hi⟩ := hl
  · rw [if_pos hx, if_neg (by omega)]
  · have hlast : 4 + s.xc.idx.toNat = 3 + 2 * m := by omega
    rw [if_neg (by simp [hx]), Image.get_set, hlast]
    simp only [pktLen, show 3 + 2 * m < 68 by omega, h1, and_true, true_and]

end

/-- Settles O35: the last byte ends the exchange, and the end of a raw exchange is the end of its command. -/
theorem lastByteCompletesTheExchange : Obligations.LastByteCompletesTheExchange := by
  intro s b m hr hraw hp hl
  refine ⟨s.receivedWith b, ?step, fun a h => receivedWith_header h, fun h1 => ?last, fun a h4 hne => ?frame⟩
  case step =>
    rw [step_lastByte hr hp hl, endExchange_raw (s := s.replied b m) statusOk hraw]
    rfl
  case last => rw [receivedWith_body hl (by omega), if_pos ⟨h1, rfl⟩]
  case frame => rw [receivedWith_body hl h4, if_neg fun h => hne h.1 h.2]

/-! ### An accepted reply (R192) -/

section
variable {s : State} {b : Byte} {m : Nat}

/-- A reply whose count and CRC are right and whose opcode is not rejected is accepted (R192). -/
theorem accept_receivedWith (hm : m ≤ 32) (hcount : countBits s.xc.hdr[0] = BitVec.ofNat 8 m)
    (hrej : rejected s.params (codeBits s.xc.hdr[0]) = false)
    (hcrc : crc8 s.params.crcTable (s.receivedWith b) m = s.xc.hdr[1]) :
    accept s.params (s.receivedWith b) = true := by
  have h0 : Image.get (s.receivedWith b) 0 = s.xc.hdr[0] :=
    (receivedWith_header (by decide)).trans (withLastByte_hdr _ _ (by decide))
  have h1 : Image.get (s.receivedWith b) 1 = s.xc.hdr[1] :=
    (receivedWith_header (by decide)).trans (withLastByte_hdr _ _ (by decide))
  have hm' : Image.count (s.receivedWith b) = m := by
    rw [Image.count, h0, countOf_toNat_of_countBits hcount hm]
  have hvalid : crcValid s.params.crcTable (s.receivedWith b) = true := by
    rw [crcValid_iff, hm', h1]
    exact ⟨hm, hcrc⟩
  rw [accept, hvalid, h0, hrej]
  rfl

theorem State.LastByteNext.le (h : s.LastByteNext m) : m ≤ 32 := by
  obtain ⟨rfl, -⟩ | ⟨-, h32, -⟩ := h
  · decide
  · exact h32

/-- An exchange of a REG command that ends with an accepted reply returns OK to the front end (R191). -/
theorem endExchange_accepted (hf : s.fe.state ≠ .idle) (ha : accept s.params s.mem.rx = true) :
    endExchange statusOk s = feReturn statusOk (closeExchange statusOk s) := by
  rw [endExchange_reg _ hf]
  exact exchangeReturned_accept (s := closeExchange statusOk s) rfl ha

/-- The end of a REG command whose exchange has ended (R193, R196, R238). -/
theorem endCommand_closed (st st' : Byte) (hf : s.fe.state ≠ .idle) :
    endCommand st (setCatt 0#8 (closeExchange st' s)) = s.endedWith st := by
  rw [State.endedWith, FrontEnd.ended, if_neg hf]
  rfl

/-- A packet exchange of the front end begins its first classification attempt (R191): RX cleared, CATT = 1, the
first attempt of an exchange with DRIVER_RETRIES begun. -/
theorem onReturn_packetExchange (k : Byte → State → State) :
    onReturn k (packetExchange driverRetries s) =
      { s with
        mem := s.mem.setImage .rx (clearImage s.params.regByteOrder s.mem.rx),
        fe := { s.fe with catt := 1#8 },
        xc := s.xc.firstAttempt 10#8 (liveLength (Image.get s.mem.tx 0)) false } := by
  rw [packetExchange_driver, onReturn, classifyAttempt_driver]
  rfl

/-- The write of a REG command begun (R196): the WRITE request stands in TX. -/
theorem setBody_eq {n : Byte} (hn : n.toNat ≤ 32) (values : Nat → RegValue) :
    setBody n values s =
      { s with
        mem :=
          { tx := buildImage s.params s.mem.tx modeWrite s.fe.page s.fe.offset n values,
            rx := clearImage s.params.regByteOrder s.mem.rx },
        fe := { s.fe with catt := 1#8 },
        xc := s.xc.firstAttempt 10#8 (4#8 + 2#8 * n) false } := by
  have hlen : liveLength (Image.get (buildImage s.params s.mem.tx modeWrite s.fe.page s.fe.offset n values) 0) =
      4#8 + 2#8 * n := by
    rw [(packet_buildImage _ _ _ _ _ _ _ hn).byte0, modeWrite, liveLength_write hn]
  rw [setBody, onReturn_packetExchange, ← hlen]
  rfl

section
variable (st : Byte)

theorem feReturn_get (h : s.fe.state = .get) : feReturn st s = getReturn st (setCatt 0#8 s) := by
  rw [feReturn, h]

theorem feReturn_set (h : s.fe.state = .set ∨ s.fe.state = .modWrite) :
    feReturn st s = endCommand st (setCatt 0#8 s) := by
  obtain h | h := h <;> rw [feReturn, h] <;> rfl

theorem feReturn_modRead (h : s.fe.state = .modRead) : feReturn st s = modReadReturn st (setCatt 0#8 s) := by
  rw [feReturn, h]

end

/-- REG.GET ends with OK and the values of RX in OUT (R193). -/
theorem getReturn_ok : getReturn statusOk s = endCommand statusOk (copyOut s.fe.n s) := by
  rw [getReturn, if_pos rfl]

/-- The WRITE request of REG.MODIFY for the value v read (R198). -/
def State.modifiedRequest (s : State) (v : RegValue) : Image :=
  buildImage s.params s.mem.tx modeWrite s.fe.page s.fe.offset 1#8 fun _ =>
    modified v s.fe.clearBits s.fe.setBits

/-- The read of REG.MODIFY has returned OK (R198): OUT[0] holds the value, and the write of the modified value
begins. -/
theorem modReadReturn_ok :
    modReadReturn statusOk s =
      { s with
        mem :=
          { tx := s.modifiedRequest (Image.reg s.params.regByteOrder s.mem.rx 0),
            rx := clearImage s.params.regByteOrder s.mem.rx },
        fe := { s.fe with state := .modWrite, catt := 1#8 },
        xc := s.xc.firstAttempt 10#8 6#8 false,
        res := { s.res with out := copyRegs s.params.regByteOrder s.mem.rx s.res.out 1 } } := by
  have hv : (copyOut 1#8 s).res.out[0] = Image.reg s.params.regByteOrder s.mem.rx 0 := copyOut_out s 1#8 0 (by decide)
  rw [modReadReturn, if_pos rfl, writeBack, setBody_eq (by decide), hv]
  rfl

end

/-- Settles O36: the reply is accepted, and each REG command goes on with the OK returned to it. -/
theorem acceptedReplyAnswersTheRegCommand : Obligations.AcceptedReplyAnswersTheRegCommand := by
  intro s b m hr hp hl hcount hrej hcrc
  have haccept : accept s.params (s.receivedWith b) = true := accept_receivedWith hl.le hcount hrej hcrc
  have hstep (hf : s.fe.state ≠ .idle) :
      step s = .next (feReturn statusOk (closeExchange statusOk (s.replied b m))) := by
    rw [step_lastByte hr hp hl, endExchange_accepted (s := s.replied b m) hf haccept]
  refine ⟨fun hget _ => ?get, fun hset => ?set, fun hmod => ?modRead⟩
  case get =>
    refine ⟨copyRegs s.params.regByteOrder (s.receivedWith b) s.res.out s.fe.n.toNat, ?_,
      fun k hk => copyRegs_get _ _ _ _ k hk⟩
    have hf : s.fe.state ≠ .idle := by simp [hget]
    rw [hstep hf, feReturn_get (s := closeExchange statusOk (s.replied b m)) _ hget, getReturn_ok]
    exact congrArg _ (endCommand_closed (s := copyOut s.fe.n (s.replied b m)) statusOk statusOk hf)
  case set =>
    have hf : s.fe.state ≠ .idle := by obtain hset | hset := hset <;> simp [hset]
    rw [hstep hf, feReturn_set (s := closeExchange statusOk (s.replied b m)) _ hset]
    exact congrArg _ (endCommand_closed (s := s.replied b m) statusOk statusOk hf)
  case modRead =>
    have hf : s.fe.state ≠ .idle := by simp [hmod]
    refine ⟨copyRegs s.params.regByteOrder (s.receivedWith b) s.res.out 1,
      { tx := s.modifiedRequest (Image.reg s.params.regByteOrder (s.receivedWith b) 0),
        rx := clearImage s.params.regByteOrder (s.receivedWith b) },
      _, ?step, rfl, fun k hk => ?out, cleared_clearImage _ _,
      packet_buildImage _ _ modeWrite _ _ 1#8 _ (by decide)⟩
    case step =>
      rw [hstep hf, feReturn_modRead (s := closeExchange statusOk (s.replied b m)) _ hmod, modReadReturn_ok]
      rfl
    case out =>
      rw [copyRegs_get _ _ _ _ k hk]
      by_cases h0 : k = 0
      · subst h0
        rfl
      · rw [if_neg (by omega), if_neg h0]

end Sys2Proof.Machine
end

