-- ==== Sys2Proof/Proofs/LinkCalls.lean ====
section
/-! SUPPORT. The record of link calls: nothing that is chained into a step makes a call, so a step of a running
command makes one (spec/42_transceiver.md R140), and the issue of a command at most one. Then what a raw exchange
keeps: TX (R156). -/

namespace Sys2Proof.Machine

/-! ### Updates that make no link call -/

section
variable (s : State)

@[simp] theorem countStall_link (kind : AttemptFailure) : (countStall kind s).link = s.link := by
  cases kind <;> rfl

@[simp] theorem countCrcFail_link : (countCrcFail s).link = s.link := by
  unfold countCrcFail
  split <;> rfl

@[simp] theorem copyHeader_link : (copyHeader s).link = s.link := rfl

@[simp] theorem endCommand_link (st : Byte) : (endCommand st s).link = s.link := rfl

@[simp] theorem startExchange_link (r : Byte) : (startExchange r s).link = s.link := by
  rw [startExchange, sendRequest_eq]
  split <;> rfl

@[simp] theorem classifyAttempt_link (r : Byte) : (classifyAttempt r s).link = s.link := by
  simp [classifyAttempt]

@[simp] theorem setBody_link (n : Byte) (values : Nat → RegValue) : (setBody n values s).link = s.link := by
  rw [setBody, onReturn_packetExchange]
  rfl

@[simp] theorem getBody_link (n : Byte) (ret : Byte → State → State) : (getBody n ret s).link = s.link := by
  rw [getBody, onReturn_packetExchange]
  rfl

@[simp] theorem writeBack_link : (writeBack s).link = s.link := by simp [writeBack]

@[simp] theorem getReturn_link (st : Byte) : (getReturn st s).link = s.link := by
  unfold getReturn
  split <;> simp

@[simp] theorem modReadReturn_link (st : Byte) : (modReadReturn st s).link = s.link := by
  unfold modReadReturn
  split <;> simp

@[simp] theorem feReturn_link (st : Byte) : (feReturn st s).link = s.link := by
  unfold feReturn
  split <;> simp [setReturn]

@[simp] theorem exchangeReturned_link : (exchangeReturned s).link = s.link := by
  unfold exchangeReturned
  split_ifs <;> simp

@[simp] theorem endExchange_link (st : Byte) : (endExchange st s).link = s.link := by
  unfold endExchange
  split
  · rfl
  · simp

@[simp] theorem complete_link (m : Byte) : (complete m s).link = s.link := by simp [complete]

@[simp] theorem attemptFailed_link (kind : AttemptFailure) : (attemptFailed kind s).link = s.link := by
  unfold attemptFailed
  split <;> simp

@[simp] theorem commAbort_link (e : LinkErr) : (commAbort e s).link = s.link := by simp [commAbort]

@[simp] theorem acceptHeader_link (m : BitVec 6) : (acceptHeader m s).link = s.link := by
  unfold acceptHeader
  split_ifs
  · simp
  · rfl
  · split <;> simp

@[simp] theorem validateHeader_link : (validateHeader s).link = s.link := by
  unfold validateHeader onRespOk onRespCorrupt onRespError onRespReserved
  split_ifs <;> simp

@[simp] theorem byteWritten_link : (byteWritten s).link = s.link := by
  unfold byteWritten
  split <;> rfl

@[simp] theorem wouldBlock_link : (wouldBlock s).link = s.link := by
  unfold wouldBlock
  split <;> simp

@[simp] theorem headerByte_link (b : Byte) : (headerByte b s).link = s.link := by
  unfold headerByte
  split <;> simp

@[simp] theorem bodyByte_link : (bodyByte s).link = s.link := by
  unfold bodyByte
  split <;> simp

/-! ### The steps of a running command: one call each -/

theorem drainStep_calls : (drainStep s).link.calls = .poll :: s.link.calls := by
  unfold drainStep
  split <;> rfl

theorem discardStep_calls : (discardStep s).link.calls = .poll :: s.link.calls := by
  unfold discardStep
  split <;> rfl

theorem flushStep_calls : (flushStep s).link.calls = .flush :: s.link.calls := by
  unfold flushStep
  split <;> simp

variable {s} {t : State}

theorem writeStep_calls (h : writeStep s = .next t) :
    ∃ b, t.link.calls = .write b s.link.writeAnswer :: s.link.calls := by
  unfold writeStep at h
  split at h
  · cases h
  · next b _ =>
    refine ⟨b, ?_⟩
    split at h <;> cases h <;> simp

theorem rdHdrStep_calls (h : rdHdrStep s = .next t) : t.link.calls = .poll :: s.link.calls := by
  unfold rdHdrStep at h
  split at h
  · split at h <;> cases h
    simp
  all_goals cases h; simp

theorem rdBodyStep_calls (h : rdBodyStep s = .next t) : t.link.calls = .poll :: s.link.calls := by
  unfold rdBodyStep at h
  split at h
  · split at h <;> cases h
    simp
  all_goals cases h; simp

/-- A step of a running command makes one link call (R140). -/
theorem linkStep_calls (h : linkStep s = .next t) : ∃ c, t.link.calls = c :: s.link.calls := by
  cases hx : s.xc.xst with
  | idle => cases (linkStep_drain hx).symm.trans h; exact ⟨_, drainStep_calls s⟩
  | discard => cases (linkStep_discard hx).symm.trans h; exact ⟨_, discardStep_calls s⟩
  | write =>
    obtain ⟨b, hb⟩ := writeStep_calls ((linkStep_write hx).symm.trans h)
    exact ⟨_, hb⟩
  | flush => cases (linkStep_flush hx).symm.trans h; exact ⟨_, flushStep_calls s⟩
  | rdHdr => exact ⟨_, rdHdrStep_calls ((linkStep_rdHdr hx).symm.trans h)⟩
  | rdBody => exact ⟨_, rdBodyStep_calls ((linkStep_rdBody hx).symm.trans h)⟩

end

/-! ### The issue of a command: at most one call -/

/-- No link call or one has been made from s to t. -/
def AtMostOneCall (s t : State) : Prop :=
  t.link.calls = s.link.calls ∨ ∃ c, t.link.calls = c :: s.link.calls

section
variable {s t : State}

theorem AtMostOneCall.of_link (h : t.link = s.link) : AtMostOneCall s t := .inl (congrArg Link.calls h)

/-- The first link call of a command is its only one at issue. -/
theorem AtMostOneCall.firstCall (h : t.link = s.link) : AtMostOneCall s (firstCall t) := by
  unfold Machine.firstCall
  split
  · exact .inr ⟨_, (discardStep_calls t).trans (by rw [h])⟩
  · exact .of_link h

theorem AtMostOneCall.setupCall (readyOnError : Bool) (h : t.link = s.link) :
    AtMostOneCall s (setupCall readyOnError t) := by
  refine .inr ⟨.setup, ?_⟩
  rw [← h]
  unfold Machine.setupCall
  split <;> rfl

/-- A command with a checked operand n faults with no call, or does its part. -/
theorem AtMostOneCall.counted (h : AtMostOneCall s t) :
    AtMostOneCall s (if legalN s.regs.n = false then raise .badCount s else t) := by
  split
  · exact .of_link rfl
  · exact h

theorem AtMostOneCall.runReg (f : FState) (n : Byte) {body : State → State} (hbody : ∀ u, (body u).link = u.link) :
    AtMostOneCall s (runReg f n body s) := .firstCall (hbody _)

/-- The checks at issue make no link call. -/
theorem issue_calls {w : Byte} {r : Readiness} {body : State → State} (h : issue w r s body = .next t)
    (hbody : ∀ u, AtMostOneCall u (body u)) : AtMostOneCall s t := by
  obtain ⟨-, ⟨-, rfl⟩ | ⟨-, -, -, rfl⟩ | ⟨-, -, rfl⟩⟩ := issue_next h
  · exact .of_link rfl
  · exact .of_link rfl
  · exact hbody (setCmd w s)

theorem issueIllegal_calls {w : Byte} (h : issueIllegal w s = .next t) : AtMostOneCall s t := by
  obtain ⟨-, h⟩ := whileSound_next h
  cases h
  split <;> exact .of_link rfl

/-- A command makes at most one link call in its issue (R140, R269). -/
theorem exec_calls {i : Instr} (hi : i.port = .command) (h : exec i s = .next t) : AtMostOneCall s t := by
  cases i <;> rw [exec] at h
  case pktDefault | pktClear | pktCheck | pktCount | pktCode => exact issue_calls h fun u => .of_link rfl
  case pktBuild =>
    refine issue_calls h fun u => .counted ?_
    split <;> exact .of_link rfl
  case pktCrc8 => exact issue_calls h fun u => .counted (.of_link rfl)
  case xcvrSetup => exact issue_calls h fun u => .setupCall _ rfl
  case drvNew => exact issue_calls h fun u => .setupCall _ (zeroBuffers_link u)
  case xcvrDiscard => exact issue_calls h fun u => .inr ⟨_, drainStep_calls (setBusy u)⟩
  case xcvrExchange => exact issue_calls h fun u => .firstCall (startExchange_link (setBusy u) _)
  case regGet => exact issue_calls h fun u => .counted (.runReg _ _ fun v => getBody_link v _ _)
  case regSet => exact issue_calls h fun u => .counted (.runReg _ _ fun v => setBody_link v _ _)
  case regGet1 | regModify => exact issue_calls h fun u => .runReg _ _ fun v => getBody_link v _ _
  case regSet1 => exact issue_calls h fun u => .runReg _ _ fun v => setBody_link v _ _
  all_goals cases hi

theorem issueWord_calls {w : Byte} (h : issueWord w s = .next t) : AtMostOneCall s t := by
  unfold issueWord at h
  split at h
  · next hd => exact exec_calls (decodeCommand_port hd) h
  · exact issueIllegal_calls h

/-- The block's turn is one link call of the running command. -/
theorem step_calls_of_runs (hr : s.Runs) (h : step s = .next t) : ∃ c, t.link.calls = c :: s.link.calls :=
  linkStep_calls (s := s.turned) ((step_runs hr).symm.trans h)

end

/-- Settles O55: a running command's turn is one call, and of the other turns only an issue can make one. -/
theorem aStepMakesOneLinkCall : Obligations.AStepMakesOneLinkCall := by
  refine fun s t h => ⟨fun hr => step_calls_of_runs hr h, ?_⟩
  obtain ⟨-, host, ⟨-, h⟩ | ⟨-, rfl⟩ | ⟨w, h⟩ | ⟨a, rfl⟩⟩ := step_next_cases h
  · exact .inr (linkStep_calls (s := { s with host := host }) h)
  · exact .inl rfl
  · exact issueWord_calls (s := { s with host := host }) h
  · exact .inl rfl

/-! ### A raw exchange keeps TX -/

section
variable {s : State} (hraw : s.fe.state = .idle)
include hraw

/-- The end of a raw exchange is the end of its command, which writes no buffer (R152 to R154). -/
theorem endExchange_tx (st : Byte) : (endExchange st s).mem.tx = s.mem.tx := by
  rw [endExchange_raw st hraw]
  rfl

theorem complete_tx (m : Byte) : (complete m s).mem.tx = s.mem.tx :=
  endExchange_tx (s := setResult (4#8 + 2#8 * m) (copyHeader s)) hraw statusOk

theorem commAbort_tx (e : LinkErr) : (commAbort e s).mem.tx = s.mem.tx :=
  endExchange_tx (s := setErrinfo e s) hraw statusComm

theorem attemptFailed_tx (kind : AttemptFailure) : (attemptFailed kind s).mem.tx = s.mem.tx := by
  have hfe : (countStall kind s).fe.state = .idle := by cases kind <;> exact hraw
  unfold attemptFailed
  split
  · rw [endExchange_tx hfe, countStall_mem]
  · rw [beginAttempt_mem, countStall_mem]

theorem acceptHeader_tx (m : BitVec 6) : (acceptHeader m s).mem.tx = s.mem.tx := by
  unfold acceptHeader
  split_ifs
  · exact complete_tx hraw _
  · rfl
  · split
    · exact attemptFailed_tx hraw _
    · rfl

theorem validateHeader_tx : (validateHeader s).mem.tx = s.mem.tx := by
  unfold validateHeader onRespOk onRespCorrupt onRespError onRespReserved
  split_ifs
  · exact acceptHeader_tx hraw _
  · exact attemptFailed_tx hraw _
  · exact attemptFailed_tx hraw _
  · exact attemptFailed_tx hraw _
  · exact acceptHeader_tx hraw _

theorem flushStep_tx : (flushStep s).mem.tx = s.mem.tx := by
  unfold flushStep
  split
  · rfl
  · rfl
  · exact commAbort_tx (s := s.afterFlush) hraw _

theorem wouldBlock_tx : (wouldBlock s).mem.tx = s.mem.tx := by
  unfold wouldBlock
  split
  · exact attemptFailed_tx (s := countWouldBlock s) hraw .stall
  · rfl

theorem headerByte_tx (b : Byte) : (headerByte b s).mem.tx = s.mem.tx := by
  unfold headerByte
  split
  · exact validateHeader_tx (s := byteRead (storeHdr s.xc.idx.toNat b s)) hraw
  · rfl

theorem bodyByte_tx : (bodyByte s).mem.tx = s.mem.tx := by
  unfold bodyByte
  split
  · exact complete_tx (s := byteRead s) hraw _
  · rfl

variable {t : State}

theorem writeStep_tx (h : writeStep s = .next t) : t.mem.tx = s.mem.tx := by
  unfold writeStep at h
  split at h
  · cases h
  · split at h <;> cases h
    · simp
    · rfl
    · exact commAbort_tx (s := s.afterWrite _) hraw _

theorem rdHdrStep_tx (h : rdHdrStep s = .next t) : t.mem.tx = s.mem.tx := by
  unfold rdHdrStep at h
  split at h
  · split at h <;> cases h
    exact headerByte_tx (s := s.afterPoll) hraw _
  · cases h
    exact wouldBlock_tx (s := s.afterPoll) hraw
  · cases h
    exact commAbort_tx (s := s.afterPoll) hraw _

theorem rdBodyStep_tx (h : rdBodyStep s = .next t) : t.mem.tx = s.mem.tx := by
  unfold rdBodyStep at h
  split at h
  · split at h <;> cases h
    exact bodyByte_tx (s := s.afterPoll.setImage .rx _) hraw
  · cases h
    exact wouldBlock_tx (s := s.afterPoll) hraw
  · cases h
    exact commAbort_tx (s := s.afterPoll) hraw _

/-- No step of a raw exchange or of a drain writes TX. -/
theorem linkStep_tx (h : linkStep s = .next t) : t.mem.tx = s.mem.tx := by
  cases hx : s.xc.xst with
  | idle => cases (linkStep_drain hx).symm.trans h; simp
  | discard => cases (linkStep_discard hx).symm.trans h; simp
  | write => exact writeStep_tx hraw ((linkStep_write hx).symm.trans h)
  | flush => cases (linkStep_flush hx).symm.trans h; exact flushStep_tx hraw
  | rdHdr => exact rdHdrStep_tx hraw ((linkStep_rdHdr hx).symm.trans h)
  | rdBody => exact rdBodyStep_tx hraw ((linkStep_rdBody hx).symm.trans h)

end

/-- Settles O58: only the front end writes TX, and it is at rest. -/
theorem anExchangeNeverWritesTx : Obligations.AnExchangeNeverWritesTx := fun s _ hr hraw h =>
  linkStep_tx (s := s.turned) hraw ((step_runs hr).symm.trans h)

end Sys2Proof.Machine
end

