-- ==== Sys2Proof/Proofs/RegIssue.lean ====
section
/-! SUPPORT. The issue of the REG commands (spec/43_register_access.md R193 to R198) in one equation each, and the
bound on the link calls of a REG command (spec/70_reset_and_hazards.md R270). -/

namespace Sys2Proof.Machine

/-! ### The issued state -/

section
variable {s : State}

/-- Packet memory with a READ request for n registers in TX and RX cleared (R191, R193). -/
def State.readMemory (s : State) (n : Byte) : Memory where
  tx := readRequest s.params s.mem.tx s.regs.page s.regs.offset n
  rx := clearImage s.params.regByteOrder s.mem.rx

/-- Packet memory with a WRITE request of the values of VAL in TX and RX cleared (R191, R196). -/
def State.writeMemory (s : State) (n : Byte) : Memory where
  tx := buildImage s.params s.mem.tx modeWrite s.regs.page s.regs.offset n s.regs.value
  rx := clearImage s.params.regByteOrder s.mem.rx

/-- The READ request is the one that READ_CRC_MODE asks for (R193). -/
theorem readPacket_readMemory {n : Byte} (hn : n.toNat ≤ 32) :
    ReadPacket s.params s.mem.tx (s.readMemory n).tx n s.regs.page s.regs.offset := by
  have hcc : n ||| modeRead = n := BitVec.or_zero
  have hzero := packet_buildImage s.params s.mem.tx modeRead s.regs.page s.regs.offset n (fun _ => 0#16) hn
  have hheader := packet_stampCrc s.params s.mem.tx n s.regs.page s.regs.offset 0 0 (fun _ => 0#16) (by decide)
  rw [hcc] at hzero
  unfold ReadPacket State.readMemory readRequest countCode
  rw [hcc]
  cases s.params.readCrcMode
  · exact hzero
  · exact hheader

/-- The WRITE request holds the values of VAL (R196). -/
theorem packet_writeMemory {n : Byte} (hn : n.toNat ≤ 32) :
    Packet s.params s.mem.tx (s.writeMemory n).tx (n ||| 0x40#8) s.regs.page s.regs.offset n.toNat n.toNat
      fun k => s.regs.val[k]! :=
  (packet_buildImage s.params s.mem.tx modeWrite _ _ n _ hn).congr fun k _ => HostRegs.value_eq s.regs k

/-- The packet exchange of a REG command at its issue, its first link call made. -/
theorem firstCall_packetExchange (k : Byte → State → State) (hb : s.busy = true) :
    firstCall (onReturn k (packetExchange driverRetries s)) =
      { s.afterPoll with
        mem := s.mem.setImage .rx (clearImage s.params.regByteOrder s.mem.rx),
        fe := { s.fe with catt := 1#8 },
        xc := s.xc.firstAttempt 10#8 (liveLength (Image.get s.mem.tx 0)) (!givesByte s.link.pollAnswer) } := by
  rw [packetExchange_driver, onReturn, classifyAttempt]
  exact firstCall_startExchange hb (by decide)

/-- A REG command that begins with a READ request, issued (R193). -/
theorem runReg_getBody (i : Instr) (f : FState) {n : Byte} (ret : Byte → State → State) (hn : n.toNat ≤ 32) :
    runReg f n (getBody n ret) (s.withCmd i) = s.regIssued i f n 4#8 (s.readMemory n) := by
  have hlen : liveLength (Image.get (s.readMemory n).tx 0) = 4#8 := by
    rw [State.readMemory, byte0_readRequest _ _ _ _ _ hn, liveLength_read hn]
  rw [runReg, getBody, firstCall_packetExchange ret rfl, State.regIssued, ← hlen]
  rfl

/-- A REG command that begins with a WRITE request, issued (R196). -/
theorem runReg_setBody (i : Instr) {n : Byte} (hn : n.toNat ≤ 32) :
    runReg .set n (setBody n s.regs.value) (s.withCmd i) =
      s.regIssued i .set n (4#8 + 2#8 * n) (s.writeMemory n) := by
  have hlen : liveLength (Image.get (s.writeMemory n).tx 0) = 4#8 + 2#8 * n := by
    rw [(packet_writeMemory hn).byte0, liveLength_write hn]
  rw [runReg, setBody, firstCall_packetExchange setReturn rfl, State.regIssued, ← hlen]
  rfl

/-! ### The issue of each command -/

section
variable (h : s.Able)
include h

/-- REG.GET and REG.GET1 on an able block (R193, R195). -/
theorem exec_get {i : Instr} {n : Byte}
    (hi : (i = .regGet ∧ n = s.regs.n ∧ s.regs.n.toNat ≤ 32) ∨ (i = .regGet1 ∧ n = 1#8)) :
    n.toNat ≤ 32 ∧ exec i s = .next (s.regIssued i .get n 4#8 (s.readMemory n)) := by
  obtain ⟨rfl, rfl, hn⟩ | ⟨rfl, rfl⟩ := hi
  · exact ⟨hn, (exec_regGet h hn).trans (congrArg _ (runReg_getBody .regGet .get getReturn hn))⟩
  · refine ⟨by decide, ?_⟩
    rw [exec, execRegGet1, issue_free h.free fun _ => h.2.2]
    exact congrArg _ (runReg_getBody .regGet1 .get (n := 1#8) getReturn (by decide))

/-- REG.SET and REG.SET1 on an able block (R196, R197). -/
theorem exec_set {i : Instr} {n : Byte}
    (hi : (i = .regSet ∧ n = s.regs.n ∧ s.regs.n.toNat ≤ 32) ∨ (i = .regSet1 ∧ n = 1#8)) :
    n.toNat ≤ 32 ∧ exec i s = .next (s.regIssued i .set n (4#8 + 2#8 * n) (s.writeMemory n)) := by
  obtain ⟨rfl, rfl, hn⟩ | ⟨rfl, rfl⟩ := hi
  · refine ⟨hn, ?_⟩
    rw [exec, execRegSet, issue_counted h.free (fun _ => h.2.2) hn]
    exact congrArg _ (runReg_setBody .regSet hn)
  · refine ⟨by decide, ?_⟩
    rw [exec, execRegSet1, issue_free h.free fun _ => h.2.2]
    exact congrArg _ (runReg_setBody .regSet1 (n := 1#8) (by decide))

/-- REG.MODIFY on an able block (R198). -/
theorem exec_modify : exec .regModify s = .next (s.regIssued .regModify .modRead 1#8 4#8 (s.readMemory 1#8)) := by
  rw [exec, execRegModify, issue_free h.free fun _ => h.2.2]
  exact congrArg _ (runReg_getBody .regModify .modRead (n := 1#8) modReadReturn (by decide))

/-- REG.GET and REG.SET with an illegal count fault at issue (R237). -/
theorem exec_badCount {i : Instr} (hi : i = .regGet ∨ i = .regSet) (hn : 32 < s.regs.n.toNat) :
    exec i s = .next { s.withCmd i with fault := some .badCount } := by
  obtain rfl | rfl := hi
  · rw [exec, execRegGet, issue_counted_over h.free (fun _ => h.2.2) hn]
    rfl
  · rw [exec, execRegSet, issue_counted_over h.free (fun _ => h.2.2) hn]
    rfl

/-- Everything the issue of a REG command can do on an able block: BAD_COUNT, or the first attempt of its first
packet exchange; only REG.MODIFY keeps a write phase in store. -/
theorem exec_reg_cases {i : Instr} (hi : i ∈ [Instr.regGet, .regGet1, .regSet, .regSet1, .regModify]) :
    exec i s = .next { s.withCmd i with fault := some .badCount } ∨
      ∃ f n txlen m, f ≠ .idle ∧ (f = .modRead → i = .regModify) ∧
        exec i s = .next (s.regIssued i f n txlen m) := by
  simp only [List.mem_cons, List.not_mem_nil, or_false] at hi
  obtain rfl | rfl | rfl | rfl | rfl := hi
  · by_cases hn : s.regs.n.toNat ≤ 32
    · exact .inr ⟨.get, _, _, _, nofun, nofun, (exec_get h (.inl ⟨rfl, rfl, hn⟩)).2⟩
    · exact .inl (exec_badCount h (.inl rfl) (by omega))
  · exact .inr ⟨.get, _, _, _, nofun, nofun, (exec_get h (.inr ⟨rfl, rfl⟩)).2⟩
  · by_cases hn : s.regs.n.toNat ≤ 32
    · exact .inr ⟨.set, _, _, _, nofun, nofun, (exec_set h (.inl ⟨rfl, rfl, hn⟩)).2⟩
    · exact .inl (exec_badCount h (.inr rfl) (by omega))
  · exact .inr ⟨.set, _, _, _, nofun, nofun, (exec_set h (.inr ⟨rfl, rfl⟩)).2⟩
  · exact .inr ⟨.modRead, _, _, _, nofun, fun _ => rfl, exec_modify h⟩

end

/-! ### The bound on the calls of a REG command (R270) -/

/-- An issued REG command has left at most its attempt under way, nine more attempts of its exchange and nine more
classification attempts of ten attempts each; REG.MODIFY has its write phase besides. -/
theorem callsLeft_regIssued (i : Instr) {f : FState} (hf : f ≠ .idle) (n txlen : Byte) (m : Memory) :
    (s.regIssued i f n txlen m).callsLeft ≤
      (if f = .modRead then 200 else 100) * attemptCalls s.params.stallTolerance := by
  have hT : (s.regIssued i f n txlen m).params = s.params := rfl
  have hattempt : (s.regIssued i f n txlen m).attemptLeft ≤ attemptCalls s.params.stallTolerance := by
    cases hdrain : givesByte s.link.pollAnswer
    · have hx : (s.regIssued i f n txlen m).xc.xst = .write := by simp [State.regIssued, Xcvr.firstAttempt, hdrain]
      rw [attemptLeft_write hx, hT, attemptCalls]
      omega
    · have hx : (s.regIssued i f n txlen m).xc.xst = .discard := by simp [State.regIssued, Xcvr.firstAttempt, hdrain]
      rw [attemptLeft_discard hx, hT]
  have hlater : (s.regIssued i f n txlen m).laterCalls =
      (if f = .modRead then 100 * attemptCalls s.params.stallTolerance else 0) +
        9 * (10 * attemptCalls s.params.stallTolerance) + 9 * attemptCalls s.params.stallTolerance := by
    have hfe : (s.regIssued i f n txlen m).fe.state = f := rfl
    have hcatt : (s.regIssued i f n txlen m).fe.catt = 1#8 := rfl
    have hretr : (s.regIssued i f n txlen m).xc.retr = 10#8 := rfl
    have hatt : (s.regIssued i f n txlen m).xc.att = 1#8 := rfl
    rw [State.laterCalls, State.frontCalls, hT, hfe, hcatt, hretr, hatt, if_neg hf]
    norm_num
  rw [State.callsLeft_eq, hlater]
  split <;> omega

/-- A run that goes on for a step more has made that step. -/
theorem State.after_succ_some {u : State} {k : Nat} (h : s.after (k + 1) = some u) :
    ∃ t, step s = .next t ∧ t.after k = some u := by
  cases hs : step s with
  | next t => exact ⟨t, rfl, (State.after_succ k hs).symm.trans h⟩
  | fault r =>
    have hcore : Sys2Proof.core.step s = .fault r := hs
    simp [State.after, Host.Core.run, hcore] at h
  | refused r =>
    have hcore : Sys2Proof.core.step s = .refused r := hs
    simp [State.after, Host.Core.run, hcore] at h

/-- A run in which a command ends has made one call for each step up to the first end. -/
theorem after_end_calls {u : State} {k : Nat} (hw : s.Waits) (hk : s.after k = some u) (hu : u.busy = false) :
    ∃ j v, j ≤ k ∧ s.after j = some v ∧ v.busy = false ∧ v.link.calls.length = s.link.calls.length + j := by
  induction k generalizing s with
  | zero =>
    cases hk
    exact ⟨0, _, Nat.le_refl 0, rfl, hu, rfl⟩
  | succ k ih =>
    cases hb : s.busy with
    | false => exact ⟨0, s, Nat.zero_le _, rfl, hb, rfl⟩
    | true =>
      obtain ⟨t, hstep, hk⟩ := State.after_succ_some hk
      have hf : s.fault = none := (step_next_cases hstep).1
      obtain ⟨c, hc⟩ := step_calls_of_runs ⟨hf, hb, .inl hw⟩ hstep
      have hlink : linkStep s = .next t := (step_waits hf hb hw).symm.trans hstep
      have hw' : t.Waits := by rwa [State.Waits, host_of_surroundings (linkStep_surroundings hlink)]
      obtain ⟨j, v, hj, hv, hend, hlen⟩ := ih hw' hk
      refine ⟨j + 1, v, Nat.succ_le_succ hj, (State.after_succ j hstep).trans hv, hend, ?_⟩
      rw [hlen, hc, List.length_cons]
      omega

end

/-- Settles O60: a refused command has ended in its issue. Any other has at most the calls that its issue leaves
it, ends within them (`unheldCommandEnds`), and has made one call for each step until then. -/
theorem callsOfARegCommandAreBounded : Obligations.CallsOfARegCommandAreBounded := by
  intro s t i hI hable hwait hT hi hexec hheld
  have hport : i.port = .command := by
    simp only [List.mem_cons, List.not_mem_nil, or_false] at hi
    obtain rfl | rfl | rfl | rfl | rfl := hi <;> rfl
  have hIt : t.Inv := exec_inv hport hI hexec
  obtain hbad | ⟨f, n, txlen, m, hf, hmod, hissued⟩ := exec_reg_cases hable hi
  · cases hexec.symm.trans hbad
    exact ⟨0, _, Nat.zero_le _, rfl, hable.2.1, rfl⟩
  · cases hexec.symm.trans hissued
    obtain ⟨k, u, hk, hafter, hend⟩ := unheldCommandEnds _ hIt rfl hwait hT hheld
    obtain ⟨j, v, hj, hv, hvend, hlen⟩ := after_end_calls (s := s.regIssued i f n txlen m) hwait hafter hend
    refine ⟨j, v, (hj.trans hk).trans ((callsLeft_regIssued i hf n txlen m).trans ?_), hv, hvend, hlen⟩
    refine Nat.mul_le_mul_right _ ?_
    by_cases hfm : f = .modRead
    · rw [if_pos hfm, if_pos (hmod hfm)]
    · rw [if_neg hfm]
      split <;> decide

end Sys2Proof.Machine
end

