-- ==== Sys2Proof/Proofs/Exchanges.lean ====
section
/-! SUPPORT. Runs of a command while the host waits (log 7): the phases of an attempt over a link that takes every
byte and answers every poll from its list, and the whole exchange over them (spec/42_transceiver.md R142 to R152). -/

namespace Sys2Proof.Machine

/-! ### The link's lists and its record -/

section
variable {l : Link}

theorem Link.pollAnswer_cons {a : PollAnswer} {rest : List PollAnswer} (h : l.poll = a :: rest) :
    l.pollAnswer = a := by
  rw [Link.pollAnswer, h]
  rfl

theorem Link.writeAnswer_cons {a : SendAnswer} {rest : List SendAnswer} (h : l.write = a :: rest) :
    l.writeAnswer = a := by
  rw [Link.writeAnswer, h]
  rfl

theorem Link.flushAnswer_cons {a : SendAnswer} {rest : List SendAnswer} (h : l.flush = a :: rest) :
    l.flushAnswer = a := by
  rw [Link.flushAnswer, h]
  rfl

/-- The link once n polls have been answered from its list. -/
def Link.polled (l : Link) (n : Nat) (rest : List PollAnswer) : Link :=
  { l with poll := rest, calls := List.replicate n .poll ++ l.calls }

theorem Link.afterPoll_cons {a : PollAnswer} {rest : List PollAnswer} (h : l.poll = a :: rest) :
    l.afterPoll = l.polled 1 rest := by
  rw [Link.afterPoll, h]
  rfl

theorem Link.polled_polled (m n : Nat) (rest rest' : List PollAnswer) :
    (l.polled m rest).polled n rest' = l.polled (n + m) rest' := by
  simp only [Link.polled, ← List.append_assoc, List.replicate_append_replicate]

/-- The link once it has taken the bytes bs. -/
def Link.took (l : Link) (bs : List Byte) (rest : List SendAnswer) : Link :=
  { l with write := rest, calls := (bs.map fun b => .write b .ok).reverse ++ l.calls }

theorem Link.afterWrite_cons {b : Byte} {rest : List SendAnswer} (h : l.write = .ok :: rest) :
    l.afterWrite b = l.took [b] rest := by
  rw [Link.afterWrite, Link.writeAnswer_cons h, h]
  rfl

theorem Link.took_took (bs cs : List Byte) (rest rest' : List SendAnswer) :
    (l.took bs rest).took cs rest' = l.took (bs ++ cs) rest' := by
  simp [Link.took]

/-- The link once it has flushed. -/
def Link.flushed (l : Link) (rest : List SendAnswer) : Link :=
  { l with flush := rest, calls := .flush :: l.calls }

theorem Link.afterFlush_cons {a : SendAnswer} {rest : List SendAnswer} (h : l.flush = a :: rest) :
    l.afterFlush = l.flushed rest := by
  rw [Link.afterFlush, h]
  rfl

/-! What has been sent (R58): the bytes that the link took, and nothing else. -/

@[simp] theorem Link.sent_afterPoll : l.afterPoll.sent = l.sent := rfl

@[simp] theorem Link.sent_polled (n : Nat) (rest : List PollAnswer) : (l.polled n rest).sent = l.sent := by
  have hnone : (List.replicate n LinkCall.poll).filterMap LinkCall.sentByte = [] :=
    List.filterMap_eq_nil_iff.mpr fun c hc => by rw [List.eq_of_mem_replicate hc]; rfl
  rw [Link.sent, Link.polled, List.filterMap_append, hnone]
  rfl

@[simp] theorem Link.sent_took (bs : List Byte) (rest : List SendAnswer) :
    (l.took bs rest).sent = l.sent ++ bs := by
  have hsent : (bs.map fun b => LinkCall.write b .ok).reverse.filterMap LinkCall.sentByte = bs.reverse := by
    rw [← List.map_reverse, List.filterMap_map]
    exact List.filterMap_some
  rw [Link.sent, Link.took, List.filterMap_append, hsent, List.reverse_append, List.reverse_reverse]
  rfl

@[simp] theorem Link.sent_flushed (rest : List SendAnswer) : (l.flushed rest).sent = l.sent := rfl

end

/-! ### Unattended runs -/

/-- A command runs while the host does nothing or waits: every turn is the block's (log 7). -/
structure State.Unattended (s : State) : Prop where
  sound : s.fault = none
  busy : s.busy = true
  waits : s.Waits

section
variable {s t : State}

theorem State.Unattended.runs (h : s.Unattended) : s.Runs := ⟨h.sound, h.busy, .inl h.waits⟩

/-- One step of an unattended run. -/
theorem State.Unattended.after_succ (h : s.Unattended) (hl : linkStep s = .next t) {k : Nat} :
    s.after (k + 1) = t.after k :=
  State.after_succ k ((step_waits h.sound h.busy h.waits).trans hl)

theorem State.Unattended.after_one (h : s.Unattended) (hl : linkStep s = .next t) : s.after 1 = some t :=
  h.after_succ hl

/-! ### Draining (R142) -/

/-- A drain drops the bytes and ends with the first answer that is none. -/
theorem after_drain {bytes : List Byte} {a : PollAnswer} {rest : List PollAnswer} (h : s.Unattended)
    (hx : s.xc.xst = .idle) (hp : s.link.poll = bytes.map .data ++ a :: rest) (ha : givesByte a = false) :
    s.after (bytes.length + 1) =
      some (finish statusOk { s with link := s.link.polled (bytes.length + 1) rest }) := by
  induction bytes generalizing s with
  | nil =>
    have hnone : givesByte s.link.pollAnswer = false := by rwa [Link.pollAnswer_cons hp]
    rw [List.length_nil, h.after_one ((linkStep_drain hx).trans (congrArg _ (drainStep_other hnone))),
      State.afterPoll, Link.afterPoll_cons hp]
  | cons b bytes ih =>
    have hdata : s.link.pollAnswer = .data b := Link.pollAnswer_cons hp
    have hlink := Link.afterPoll_cons hp
    rw [List.length_cons, h.after_succ ((linkStep_drain hx).trans (congrArg _ (drainStep_data hdata))),
      ih (s := s.afterPoll) { h with } hx (congrArg Link.poll hlink), State.afterPoll, hlink, Link.polled_polled]

/-! ### Sending (R146, R148) -/

section
variable {rest : List SendAnswer} (hx : s.xc.xst = .write) (hi : s.xc.idx.toNat < 68)
  (hw : s.link.write = .ok :: rest)
include hx hi hw

/-- The link takes a byte before the last. -/
theorem linkStep_write_more (hmore : s.xc.idx + 1#8 ≠ s.xc.txlen) :
    linkStep s =
      .next
        { s with
          xc := { s.xc with idx := s.xc.idx + 1#8 },
          link := s.link.took [s.mem.byte .tx s.xc.idx.toNat] rest } := by
  rw [linkStep_write hx, writeStep_ok hi (Link.writeAnswer_cons hw), byteWritten_more (s := s.afterWrite _) hmore,
    State.afterWrite, Link.afterWrite_cons hw]

/-- The link takes the last live byte. -/
theorem linkStep_write_last (hlast : s.xc.idx + 1#8 = s.xc.txlen) :
    linkStep s =
      .next
        (enter (afterLastByte s.params) { s with link := s.link.took [s.mem.byte .tx s.xc.idx.toNat] rest }) := by
  rw [linkStep_write hx, writeStep_ok hi (Link.writeAnswer_cons hw), byteWritten_last (s := s.afterWrite _) hlast,
    State.afterWrite, Link.afterWrite_cons hw]

end

/-- The link has flushed. -/
theorem linkStep_flush_ok {rest : List SendAnswer} (hf : s.link.flush = .ok :: rest) (hx : s.xc.xst = .flush) :
    linkStep s = .next (enter .rdHdr { s with link := s.link.flushed rest }) := by
  rw [linkStep_flush hx, flushStep_ok (Link.flushAnswer_cons hf), State.afterFlush, Link.afterFlush_cons hf]

/-- The link takes every live byte from IDX on, in address order. -/
theorem after_write {n : Nat} {rest : List SendAnswer} (h : s.Unattended) (hx : s.xc.xst = .write)
    (hlen : s.xc.txlen.toNat ≤ 68) (hn : s.xc.idx.toNat + (n + 1) = s.xc.txlen.toNat)
    (hw : s.link.write = List.replicate (n + 1) SendAnswer.ok ++ rest) :
    s.after (n + 1) =
      some
        (enter (afterLastByte s.params)
          { s with link := s.link.took ((List.range' s.xc.idx.toNat (n + 1)).map (s.mem.byte .tx)) rest }) := by
  induction n generalizing s with
  | zero =>
    have hidx : (s.xc.idx + 1#8).toNat = s.xc.idx.toNat + 1 := toNat_add_one (by omega)
    exact h.after_one (linkStep_write_last hx (by omega) hw (BitVec.eq_of_toNat_eq (hidx.trans hn)))
  | succ n ih =>
    have hidx : (s.xc.idx + 1#8).toNat = s.xc.idx.toNat + 1 := toNat_add_one (by omega)
    have hn' : (s.xc.idx + 1#8).toNat + (n + 1) = s.xc.txlen.toNat := by omega
    rw [h.after_succ (linkStep_write_more hx (by omega) hw (add_one_ne_of_lt (by omega)))]
    refine Eq.trans (ih { h with } hx hlen hn' rfl) ?_
    simp only [Link.took_took, hidx]
    rfl

/-- The link once it has taken the bytes bs and then, if the block flushes, a flush. -/
def Link.tookRequest (l : Link) (p : Params) (bs : List Byte) (restWrite restFlush : List SendAnswer) : Link :=
  if p.flushAfterWrite then (l.took bs restWrite).flushed restFlush else l.took bs restWrite

/-- A whole request is sent, and the block goes on to read the reply (R146, R148). -/
theorem after_request {live : Nat} {restWrite restFlush : List SendAnswer} (h : s.Unattended)
    (hx : s.xc.xst = .write) (hi : s.xc.idx = 0#8) (hlen : s.xc.txlen.toNat = live) (hpos : 0 < live)
    (hle : live ≤ 68) (hacc : s.link.Accepts s.params live restWrite restFlush) :
    s.after (live + if s.params.flushAfterWrite then 1 else 0) =
      some
        (enter .rdHdr
          { s with
            link := s.link.tookRequest s.params ((List.range live).map (s.mem.byte .tx)) restWrite restFlush }) := by
  obtain ⟨hwrite, hflush⟩ := hacc
  obtain ⟨n, rfl⟩ : ∃ n, live = n + 1 := ⟨live - 1, by omega⟩
  have hsent := after_write h hx (by omega) (by rw [hi, hlen]; exact Nat.zero_add _) hwrite
  rw [hi, show (0#8).toNat = 0 from rfl, ← List.range_eq_range'] at hsent
  rw [State.after_add _ hsent, Link.tookRequest, afterLastByte]
  split
  · next hf =>
    rw [if_pos hf] at hflush
    exact State.Unattended.after_one { h with } (linkStep_flush_ok hflush rfl)
  · rfl

/-! ### Receiving (R149, R151) -/

/-- Byte k of a header has arrived, one before the fourth. -/
def State.gotHeaderByte (s : State) (k : Nat) (b : Byte) (rest : List PollAnswer) : State :=
  { s with
    xc := { s.xc with hdr := s.xc.hdr.setIfInBounds k b, idx := BitVec.ofNat 8 (k + 1), wb := 0#8 },
    link := s.link.polled 1 rest }

theorem State.Unattended.gotHeaderByte (h : s.Unattended) (k : Nat) (b : Byte) (rest : List PollAnswer) :
    (s.gotHeaderByte k b rest).Unattended := { h with }

section
variable {b : Byte} {rest : List PollAnswer} (hp : s.link.poll = .data b :: rest)
include hp

theorem linkStep_rdHdr_more {k : Nat} (hx : s.xc.xst = .rdHdr) (hk : k < 3) (hi : s.xc.idx = BitVec.ofNat 8 k) :
    linkStep s = .next (s.gotHeaderByte k b rest) := by
  obtain rfl : s.xc.idx.toNat = k := by rw [hi, BitVec.toNat_ofNat, Nat.mod_eq_of_lt (by omega)]
  rw [linkStep_rdHdr hx, rdHdrStep_data (by omega) (Link.pollAnswer_cons hp), State.gotHeaderByte,
    ← Link.afterPoll_cons hp, BitVec.ofNat_add, ← hi, setIfInBounds_of_lt _ _ (by omega)]
  exact congrArg _ (headerByte_more (s := s.afterPoll) hk)

/-- The fourth byte arrives of a header that is accepted with the count m of 1 to 32. -/
theorem linkStep_rdHdr_last {m : Nat} (hx : s.xc.xst = .rdHdr) (hi : s.xc.idx = 3#8) (h1 : 1 ≤ m) (hm : m ≤ 32)
    (hcount : countBits s.xc.hdr[0] = BitVec.ofNat 8 m)
    (hrej : rejected s.params (codeBits s.xc.hdr[0]) = false) :
    linkStep s =
      .next
        { s with
          xc :=
            { s.xc with
              hdr := s.xc.hdr.set 3 b, idx := 0#8, wb := 0#8, xst := .rdBody, nbody := BitVec.ofNat 8 (2 * m) },
          link := s.link.polled 1 rest } := by
  have hc : (countOf s.xc.hdr[0]).toNat = m := countOf_toNat_of_countBits hcount hm
  rw [linkStep_rdHdr hx, rdHdrStep_data (by rw [hi]; decide) (Link.pollAnswer_cons hp),
    headerByte_accepted (s := s.afterPoll) hi hrej, ← Link.afterPoll_cons hp, ← hc]
  exact congrArg _ (acceptHeader_body (hc.symm ▸ h1) (hc.symm ▸ hm))

/-- A body byte before the last arrives. -/
theorem linkStep_rdBody_more (hx : s.xc.xst = .rdBody) (hi : s.xc.idx.toNat + 1 < s.xc.nbody.toNat)
    (hn : s.xc.nbody.toNat ≤ 64) :
    linkStep s =
      .next
        { s with
          mem := { s.mem with rx := Image.set s.mem.rx (4 + s.xc.idx.toNat) b },
          xc := { s.xc with idx := s.xc.idx + 1#8, wb := 0#8 },
          link := s.link.polled 1 rest } := by
  rw [linkStep_rdBody hx, rdBodyStep_data (by omega) (Link.pollAnswer_cons hp), ← Link.afterPoll_cons hp]
  exact congrArg _ (bodyByte_more (s := s.afterPoll.setImage .rx _) (add_one_ne_of_lt hi))

end

/-- Three bytes stored in HDR. -/
def storeThree (v : Vector Byte 4) (b₀ b₁ b₂ : Byte) : Vector Byte 4 :=
  ((v.setIfInBounds 0 b₀).setIfInBounds 1 b₁).setIfInBounds 2 b₂

theorem storeThree_zero (v : Vector Byte 4) (b₀ b₁ b₂ : Byte) : (storeThree v b₀ b₁ b₂)[0] = b₀ := by
  simp [storeThree]

/-- The fourth byte stored, HDR holds the four. -/
theorem storeThree_set (v : Vector Byte 4) (b₀ b₁ b₂ b₃ : Byte) {a : Nat} (h : a < 4) :
    ((storeThree v b₀ b₁ b₂).set 3 b₃)[a] = [b₀, b₁, b₂, b₃][a] := by
  interval_cases a <;> simp [storeThree]

/-- Three bytes of a header have arrived. -/
def State.readHeader (s : State) (b₀ b₁ b₂ : Byte) (rest : List PollAnswer) : State :=
  { s with
    xc :=
      { s.xc with
        hdr := storeThree s.xc.hdr b₀ b₁ b₂, idx := 3#8, wb := 0#8 },
    link := s.link.polled 3 rest }

theorem after_header {b₀ b₁ b₂ : Byte} {rest : List PollAnswer} (h : s.Unattended) (hx : s.xc.xst = .rdHdr)
    (hi : s.xc.idx = 0#8) (hp : s.link.poll = .data b₀ :: .data b₁ :: .data b₂ :: rest) :
    s.after 3 = some (s.readHeader b₀ b₁ b₂ rest) := by
  rw [h.after_succ (linkStep_rdHdr_more (k := 0) hp hx (by decide) hi),
    (h.gotHeaderByte _ _ _).after_succ (linkStep_rdHdr_more (k := 1) rfl hx (by decide) rfl),
    ((h.gotHeaderByte _ _ _).gotHeaderByte _ _ _).after_one (linkStep_rdHdr_more (k := 2) rfl hx (by decide) rfl)]
  simp only [State.gotHeaderByte, Link.polled_polled, State.readHeader, storeThree]

/-- Image with the bytes of a list stored from address a on. -/
def Image.store : Image → Nat → List Byte → Image
  | img, _, [] => img
  | img, a, b :: rest => Image.store (Image.set img a b) (a + 1) rest

theorem Image.get_store (img : Image) (bytes : List Byte) {a : Nat} (ha : a + bytes.length ≤ 68) (x : Nat) :
    Image.get (Image.store img a bytes) x =
      if a ≤ x then (bytes[x - a]?).getD (Image.get img x) else Image.get img x := by
  induction bytes generalizing img a with
  | nil => simp [Image.store]
  | cons b rest ih =>
    rw [List.length_cons] at ha
    rw [Image.store, ih _ (by omega), Image.get_set]
    obtain hlt | rfl | hgt := lt_trichotomy x a
    · rw [if_neg (by omega), if_neg (by omega), if_neg (by omega)]
    · rw [if_neg (by omega), if_pos ⟨rfl, by simp only [pktLen]; omega⟩, if_pos (Nat.le_refl x), Nat.sub_self]
      rfl
    · rw [if_pos (show a + 1 ≤ x by omega), if_neg (by omega), if_pos (by omega),
        show x - a = x - (a + 1) + 1 by omega, List.getElem?_cons_succ]

/-- The bytes of a body but the last arrive. -/
theorem after_body {bytes : List Byte} {rest : List PollAnswer} (h : s.Unattended) (hx : s.xc.xst = .rdBody)
    (hn : s.xc.nbody.toNat ≤ 64) (hi : s.xc.idx.toNat + bytes.length < s.xc.nbody.toNat) (hwb : s.xc.wb = 0#8)
    (hp : s.link.poll = bytes.map .data ++ rest) :
    s.after bytes.length =
      some
        { s with
          mem := { s.mem with rx := Image.store s.mem.rx (4 + s.xc.idx.toNat) bytes },
          xc := { s.xc with idx := BitVec.ofNat 8 (s.xc.idx.toNat + bytes.length), wb := 0#8 },
          link := s.link.polled bytes.length rest } := by
  induction bytes generalizing s with
  | nil =>
    obtain rfl : s.link.poll = rest := hp
    rw [List.length_nil, Nat.add_zero, BitVec.ofNat_toNat, BitVec.setWidth_eq, ← hwb]
    rfl
  | cons b bytes ih =>
    rw [List.length_cons] at hi
    have hidx : (s.xc.idx + 1#8).toNat = s.xc.idx.toNat + 1 := toNat_add_one (by omega)
    have hi' : (s.xc.idx + 1#8).toNat + bytes.length < s.xc.nbody.toNat := by omega
    rw [List.length_cons, h.after_succ (linkStep_rdBody_more hp hx (by omega) hn)]
    refine Eq.trans (ih { h with } hx hn hi' rfl rfl) ?_
    simp only [Link.polled_polled, hidx, Image.store, Nat.add_assoc, Nat.add_comm 1]

end

/-! ### A reply up to its last byte -/

/-- A reply that the transceiver accepts begins with its count, and its body holds two bytes for each value. -/
theorem Reply.eq_cons {reply : List Byte} {m : Nat} (h : Reply reply m) :
    ∃ b₁ b₂ b₃ body, reply = BitVec.ofNat 8 m :: b₁ :: b₂ :: b₃ :: body ∧ body.length = 2 * m := by
  obtain ⟨-, hlen, h0⟩ := h
  match reply with
  | b₀ :: b₁ :: b₂ :: b₃ :: body =>
    refine ⟨b₁, b₂, b₃, body, ?_, by simp only [List.length_cons] at hlen; omega⟩
    rw [← Option.some.inj h0]
  | [] | [_] | [_, _] | [_, _, _] => simp at hlen; omega

/-- A count of at most 32 as byte 0 of a header: opcode success, and the count's bits (R71, R73). -/
theorem header_of_count {m : Nat} (hm : m ≤ 32) (p : Params) :
    countBits (BitVec.ofNat 8 m) = BitVec.ofNat 8 m ∧ rejected p (codeBits (BitVec.ofNat 8 m)) = false := by
  have hbits : ∀ m, m ≤ 32 → countBits (BitVec.ofNat 8 m) = BitVec.ofNat 8 m ∧ codeBits (BitVec.ofNat 8 m) = 0#8 := by
    decide
  obtain ⟨hcount, hcode⟩ := hbits m hm
  exact ⟨hcount, by simp [rejected, hcode]⟩

/-- A block that began in s and has received a reply but for its last byte b is in the state u, and its link in
the state l. -/
structure State.AwaitsLast (s u : State) (reply : List Byte) (m : Nat) (b : Byte) (l : Link) : Prop where
  /-- Only RX, the transceiver's registers and the link have changed. -/
  frame : ∃ rx x, u = { s with mem := { s.mem with rx := rx }, xc := x, link := l }
  last : u.LastByteNext m
  received : ∀ a, Image.get (u.receivedWith b) a = afterReply reply s.mem.rx a

section
variable {s : State}

/-- A reply of a header alone, up to its fourth byte. -/
theorem readHeader_awaitsLast (b₁ b₂ b₃ : Byte) (rest : List PollAnswer) (hx : s.xc.xst = .rdHdr) :
    s.AwaitsLast (s.readHeader 0#8 b₁ b₂ (.data b₃ :: rest)) [0#8, b₁, b₂, b₃] 0 b₃
      (s.link.polled 3 (.data b₃ :: rest)) := by
  obtain ⟨hcount, hrej⟩ := header_of_count (m := 0) (by decide) s.params
  have h0 := storeThree_zero s.xc.hdr 0#8 b₁ b₂
  have hlast : (s.readHeader 0#8 b₁ b₂ (.data b₃ :: rest)).LastByteNext 0 :=
    .inl ⟨rfl, hx, rfl, h0.symm ▸ hcount, h0.symm ▸ hrej⟩
  refine ⟨⟨_, _, rfl⟩, hlast, fun a => ?_⟩
  by_cases ha : a < 4
  · have hx' : (s.readHeader 0#8 b₁ b₂ (.data b₃ :: rest)).xc.xst = .rdHdr := hx
    rw [receivedWith_header ha, afterReply, List.getElem?_eq_getElem ha]
    simp only [Xcvr.withLastByte, hx', if_true]
    exact storeThree_set s.xc.hdr 0#8 b₁ b₂ b₃ ha
  · rw [receivedWith_body hlast (by omega), if_neg (by omega), afterReply,
      List.getElem?_eq_none (by simp only [List.length_cons, List.length_nil]; omega)]
    rfl

/-- A header of m values and the bytes of its body but the last have arrived. -/
def State.readBody (s : State) (b₀ b₁ b₂ b₃ : Byte) (bytes : List Byte) (m : Nat) (rest : List PollAnswer) :
    State :=
  { s with
    mem := { s.mem with rx := Image.store s.mem.rx 4 bytes },
    xc :=
      { s.xc with
        hdr := (storeThree s.xc.hdr b₀ b₁ b₂).set 3 b₃, xst := .rdBody, nbody := BitVec.ofNat 8 (2 * m),
        idx := BitVec.ofNat 8 bytes.length, wb := 0#8 },
    link := s.link.polled (4 + bytes.length) rest }

section
variable {b₁ b₂ b₃ : Byte} {bytes : List Byte} {m : Nat} {rest : List PollAnswer} (h1 : 1 ≤ m) (hm : m ≤ 32)
  (hlen : bytes.length + 1 = 2 * m)
include h1 hm hlen

/-- The bytes of a reply with a body arrive, up to the last. -/
theorem after_readBody (h : s.Unattended) (hx : s.xc.xst = .rdHdr) (hi : s.xc.idx = 0#8)
    (hp : s.link.poll =
      .data (BitVec.ofNat 8 m) :: .data b₁ :: .data b₂ :: .data b₃ :: (bytes.map .data ++ rest)) :
    s.after (4 + bytes.length) = some (s.readBody (BitVec.ofNat 8 m) b₁ b₂ b₃ bytes m rest) := by
  obtain ⟨hcount, hrej⟩ := header_of_count hm s.params
  have h0 := storeThree_zero s.xc.hdr (BitVec.ofNat 8 m) b₁ b₂
  have hu : (s.readHeader (BitVec.ofNat 8 m) b₁ b₂ (.data b₃ :: (bytes.map .data ++ rest))).Unattended := { h with }
  have hbody : (BitVec.ofNat 8 (2 * m)).toNat = 2 * m := by rw [BitVec.toNat_ofNat]; omega
  have hfew : 0 + bytes.length < (BitVec.ofNat 8 (2 * m)).toNat := by omega
  rw [show 4 + bytes.length = 3 + (bytes.length + 1) by omega, State.after_add _ (after_header h hx hi hp),
    hu.after_succ (linkStep_rdHdr_last rfl hx rfl h1 hm (h0.symm ▸ hcount) (h0.symm ▸ hrej))]
  refine Eq.trans (after_body { h with } rfl (by rw [hbody]; omega) hfew rfl rfl) ?_
  have hcalls : bytes.length + (1 + 3) = 4 + bytes.length := Nat.add_comm _ _
  have hzero : (0#8).toNat + bytes.length = bytes.length := Nat.zero_add _
  simp only [Link.polled_polled, State.readBody, State.readHeader, hcalls, hzero]
  rfl

/-- A reply with a body, up to its last byte. -/
theorem readBody_awaitsLast (b : Byte) :
    s.AwaitsLast (s.readBody (BitVec.ofNat 8 m) b₁ b₂ b₃ bytes m (.data b :: rest))
      (BitVec.ofNat 8 m :: b₁ :: b₂ :: b₃ :: (bytes ++ [b])) m b
      (s.link.polled (4 + bytes.length) (.data b :: rest)) := by
  have hidx : (BitVec.ofNat 8 bytes.length).toNat + 1 = 2 * m := by rw [BitVec.toNat_ofNat]; omega
  have hlast : (s.readBody (BitVec.ofNat 8 m) b₁ b₂ b₃ bytes m (.data b :: rest)).LastByteNext m :=
    .inr ⟨h1, hm, rfl, rfl, hidx⟩
  refine ⟨⟨_, _, rfl⟩, hlast, fun a => ?_⟩
  · by_cases ha : a < 4
    · rw [receivedWith_header ha, afterReply, List.getElem?_eq_getElem (by simp only [List.length_cons]; omega)]
      refine (storeThree_set s.xc.hdr (BitVec.ofNat 8 m) b₁ b₂ b₃ ha).trans ?_
      interval_cases a <;> rfl
    · obtain ⟨j, rfl⟩ : ∃ j, a = j + 4 := ⟨a - 4, by omega⟩
      have hstore := Image.get_store s.mem.rx bytes (a := 4) (by omega) (j + 4)
      rw [if_pos (by omega), Nat.add_sub_cancel] at hstore
      rw [receivedWith_body hlast (by omega), afterReply]
      simp only [List.getElem?_cons_succ]
      obtain hlt | rfl | hgt := lt_trichotomy j bytes.length
      · rw [if_neg (by omega), List.getElem?_append_left hlt]
        exact hstore
      · rw [if_pos ⟨h1, by omega⟩, List.getElem?_concat_length]
        rfl
      · rw [if_neg (by omega), List.getElem?_eq_none (by simp only [List.length_append, List.length_singleton]; omega)]
        rw [List.getElem?_eq_none (by omega)] at hstore
        exact hstore

end

/-- The bytes of a reply arrive without a gap, up to the last. -/
theorem after_reply {reply : List Byte} {m : Nat} {rest : List PollAnswer} (h : s.Unattended)
    (hx : s.xc.xst = .rdHdr) (hi : s.xc.idx = 0#8) (hr : Reply reply m)
    (hp : s.link.poll = reply.map .data ++ rest) :
    ∃ u b, s.after (3 + 2 * m) = some u ∧
      s.AwaitsLast u reply m b (s.link.polled (3 + 2 * m) (.data b :: rest)) := by
  obtain ⟨b₁, b₂, b₃, body, rfl, hbody⟩ := hr.eq_cons
  obtain rfl | ⟨bytes, b, rfl⟩ := List.eq_nil_or_concat' body
  · obtain rfl : m = 0 := by rw [List.length_nil] at hbody; omega
    exact ⟨_, b₃, after_header h hx hi hp, readHeader_awaitsLast b₁ b₂ b₃ rest hx⟩
  · rw [List.length_append, List.length_singleton] at hbody
    rw [List.map_cons, List.map_cons, List.map_cons, List.map_cons, List.map_append, List.cons_append, List.cons_append,
      List.cons_append, List.cons_append, List.append_assoc] at hp
    rw [show 3 + 2 * m = 4 + bytes.length by omega]
    exact ⟨_, b, after_readBody (by omega) hr.legal hbody h hx hi hp, readBody_awaitsLast (by omega) hr.legal hbody b⟩

/-! ### A whole attempt -/

/-- What the link that takes a request is left with. -/
theorem Link.tookRequest_lists {l : Link} {p : Params} {live : Nat} {restWrite restFlush : List SendAnswer}
    (h : l.Accepts p live restWrite restFlush) (bs : List Byte) :
    (l.tookRequest p bs restWrite restFlush).write = restWrite ∧
      (l.tookRequest p bs restWrite restFlush).flush = restFlush ∧
      (l.tookRequest p bs restWrite restFlush).poll = l.poll := by
  obtain ⟨-, hflush⟩ := h
  unfold Link.tookRequest
  split
  · exact ⟨rfl, rfl, rfl⟩
  · next hf =>
    rw [if_neg hf] at hflush
    exact ⟨rfl, hflush, rfl⟩

theorem Link.sent_tookRequest (l : Link) (p : Params) (bs : List Byte) (restWrite restFlush : List SendAnswer) :
    (l.tookRequest p bs restWrite restFlush).sent = l.sent ++ bs := by
  unfold Link.tookRequest
  split <;> simp

/-- The link once it has taken a request of the live bytes of TX and delivered a reply of n bytes but for what is
left in its list. -/
def State.linkServed (s : State) (live n : Nat) (restWrite restFlush : List SendAnswer) (rest : List PollAnswer) :
    Link :=
  (s.link.tookRequest s.params ((List.range live).map (s.mem.byte .tx)) restWrite restFlush).polled n rest

/-- A block at the beginning of WRITE whose link takes the whole request. -/
structure State.Sends (s : State) (live : Nat) (restWrite restFlush : List SendAnswer) : Prop where
  unattended : s.Unattended
  writing : s.xc.xst = .write
  first : s.xc.idx = 0#8
  length : s.xc.txlen.toNat = live
  pos : 0 < live
  le : live ≤ 68
  accepts : s.link.Accepts s.params live restWrite restFlush

/-- Over a link that takes every byte and delivers an accepted reply, the exchange ends with OK in its last step
(R143 to R152). -/
theorem after_exchange {live m : Nat} {reply : List Byte} {restWrite restFlush : List SendAnswer}
    {rest : List PollAnswer} (h : s.Sends live restWrite restFlush) (hr : Reply reply m)
    (hp : s.link.poll = reply.map .data ++ rest) :
    ∃ u b, s.AwaitsLast u reply m b (s.linkServed live (3 + 2 * m) restWrite restFlush (.data b :: rest)) ∧
      s.after (exchangeSteps s.params live m) = some (endExchange statusOk (u.replied b m)) := by
  have hsent := after_request h.unattended h.writing h.first h.length h.pos h.le h.accepts
  obtain ⟨-, -, hpoll⟩ := Link.tookRequest_lists h.accepts ((List.range live).map (s.mem.byte .tx))
  have hreads : (enter .rdHdr { s with
      link := s.link.tookRequest s.params ((List.range live).map (s.mem.byte .tx)) restWrite restFlush }).Unattended :=
    { h.unattended with }
  obtain ⟨u, b, hafter, hframe, hlast, hreceived⟩ := after_reply hreads rfl rfl hr (hpoll.trans hp)
  have hruns : u.Runs := by
    obtain ⟨rx, x, rfl⟩ := hframe
    exact ⟨h.unattended.sound, h.unattended.busy, .inl h.unattended.waits⟩
  have hdata : u.link.pollAnswer = .data b := by
    obtain ⟨rx, x, rfl⟩ := hframe
    rfl
  refine ⟨u, b, ⟨?_, hlast, hreceived⟩, ?_⟩
  · obtain ⟨rx, x, rfl⟩ := hframe
    exact ⟨rx, x, rfl⟩
  have hstep := step_lastByte hruns hdata hlast
  rw [exchangeSteps, show 4 + 2 * m = 3 + 2 * m + 1 by omega, State.after_add _ hsent, State.after_add _ hafter]
  exact State.after_succ 0 hstep

end

end Sys2Proof.Machine
end

