-- ==== Sys2Proof/Proofs/WholeCommands.lean ====
section
/-! SUPPORT. Whole commands over a link that delivers: the drain, the raw exchange and the REG commands with one
packet exchange (spec/42_transceiver.md R142 to R152; spec/43_register_access.md R191 to R197). -/

namespace Sys2Proof.Machine

/-- Settles O28: the drain's issue is the first of its polls (log 9), and each later one is a step. -/
theorem discardDrainsTheLink : Obligations.DiscardDrainsTheLink := by
  intro s bytes a rest h hw hx hp ha
  refine ⟨_, exec_xcvrDiscard h, ?_⟩
  obtain ⟨hsound, hb, -⟩ := h
  have hissued : (s.issued .xcvrDiscard).Unattended := ⟨hsound, rfl, hw⟩
  rw [← hissued.after_succ (linkStep_drain hx), after_drain hissued hx hp ha, finish, ← hb]
  rfl

/-! ### A command whose first exchange has begun -/

section
variable {s : State} {i : Instr} {r txlen : Byte} {mem : Memory} {fe : FrontEnd} {live m : Nat}
  {reply : List Byte} {rp : List PollAnswer} {rw rf : List SendAnswer}

/-- The command i has been issued with the first attempt of an exchange begun and its drain poll made, the packet
memory and the front end being as given. -/
def State.begun (s : State) (i : Instr) (r txlen : Byte) (mem : Memory) (fe : FrontEnd) : State :=
  { (s.issued i).afterPoll with
    mem := mem, fe := fe, xc := s.xc.firstAttempt r txlen (!givesByte s.link.pollAnswer) }

/-- With nothing to drain and a link that takes the request, that command is about to send it. -/
theorem sends_begun (h : s.Able) (hw : s.Waits) (hdrain : givesByte s.link.pollAnswer = false)
    (hlen : txlen.toNat = live) (hpos : 0 < live) (hle : live ≤ 68) (hacc : s.link.Accepts s.params live rw rf) :
    (s.begun i r txlen mem fe).Sends live rw rf where
  unattended := ⟨h.1, rfl, hw⟩
  writing := by simp [State.begun, Xcvr.firstAttempt, hdrain]
  first := rfl
  length := hlen
  pos := hpos
  le := hle
  accepts := hacc

/-- The link once it has taken that command's request and delivered the whole reply. -/
def State.linkAnswered (s : State) (mem : Memory) (live m : Nat) (b : Byte) (rw rf : List SendAnswer)
    (rp : List PollAnswer) : Link :=
  { s with mem := mem, link := s.link.afterPoll }.linkServed live (3 + 2 * m) rw rf (.data b :: rp) |>.afterPoll

/-- Its lists are used up to where the reply ends, and the live bytes of TX have been sent. -/
theorem linkAnswered_lists (hacc : s.link.Accepts s.params live rw rf) (b : Byte) :
    (s.linkAnswered mem live m b rw rf rp).poll = rp ∧ (s.linkAnswered mem live m b rw rf rp).write = rw ∧
      (s.linkAnswered mem live m b rw rf rp).flush = rf ∧
      (s.linkAnswered mem live m b rw rf rp).sent = s.link.sent ++ (List.range live).map (mem.byte .tx) := by
  obtain ⟨hwrite, hflush, -⟩ :=
    Link.tookRequest_lists (l := s.link.afterPoll) hacc ((List.range live).map (mem.byte .tx))
  refine ⟨rfl, hwrite, hflush, ?_⟩
  rw [State.linkAnswered, State.linkServed, Link.sent_afterPoll, Link.sent_polled, Link.sent_tookRequest]
  rfl

/-- That command when a reply of m values has arrived: RX and the transceiver's registers are rx and x. -/
def State.delivered (s : State) (i : Instr) (mem : Memory) (fe : FrontEnd) (rx : Image) (x : Xcvr) (l : Link)
    (m : Nat) : State :=
  { s.issued i with
    mem := { mem with rx := rx }, fe := fe, xc := x, link := l,
    res := { s.res with result := BitVec.ofNat 8 (4 + 2 * m) } }

/-- That command's exchange ends with OK, the reply in RX (R143 to R152). -/
theorem after_begun (h : s.Able) (hw : s.Waits) (hr : Reply reply m) (hdel : s.link.Delivers reply rp)
    (hlen : txlen.toNat = live) (hpos : 0 < live) (hle : live ≤ 68) (hacc : s.link.Accepts s.params live rw rf) :
    ∃ rx x b, (∀ a, Image.get rx a = afterReply reply mem.rx a) ∧
      (s.begun i r txlen mem fe).after (exchangeSteps s.params live m) =
        some (endExchange statusOk (s.delivered i mem fe rx x (s.linkAnswered mem live m b rw rf rp) m)) := by
  have hnone : givesByte s.link.pollAnswer = false := by rw [Link.pollAnswer_cons hdel]; rfl
  have hpoll : (s.begun i r txlen mem fe).link.poll = reply.map .data ++ rp := congrArg List.tail hdel
  obtain ⟨u, b, hawaits, hafter⟩ :=
    after_exchange (sends_begun (i := i) (r := r) (mem := mem) (fe := fe) h hw hnone hlen hpos hle hacc) hr hpoll
  obtain ⟨⟨rx, x, rfl⟩, -, hreceived⟩ := hawaits
  refine ⟨_, x.withLastByte b, b, hreceived, hafter.trans ?_⟩
  rw [State.replied, State.turned_waits]
  · rfl
  · exact hw

end

/-- Settles O45: the end of a raw exchange is the end of its command. -/
theorem exchangeDeliversTheReply : Obligations.ExchangeDeliversTheReply := by
  intro s reply m rp rw rf h hw hretries hraw hcount hr hdel hacc
  obtain ⟨hmin, hmax, -⟩ : evenIn 4 68 (liveLength (s.mem.byte .tx 0)) := evenIn_liveLength hcount
  obtain ⟨rx, x, b, hrx, hafter⟩ :=
    after_begun (i := .xcvrExchange) (r := s.regs.retries) (mem := s.mem) (fe := s.fe) h hw hr hdel rfl (by omega)
      hmax hacc
  obtain ⟨hpoll, hwrite, hflush, hsent⟩ := linkAnswered_lists (mem := s.mem) (m := m) (rp := rp) hacc b
  refine ⟨_, _, (exchangeBeginsItsFirstAttempt s h).2 hretries, hafter, ?_⟩
  rw [endExchange_raw (s := s.delivered ..) statusOk hraw]
  obtain ⟨hsound, -, hready⟩ := h
  exact ⟨rfl, hsound, rfl, rfl, rfl, rfl, rfl, rfl, rfl, rfl, rfl, hready, rfl, hrx, hpoll, hwrite, hflush, hsent⟩

/-! ### A reply that the classification layer accepts (R192) -/

theorem get_imageFrom {a : Nat} {bytes : List Byte} (ha : a + bytes.length ≤ 68) (x : Nat) :
    Image.get (imageFrom a bytes) x = if a ≤ x then (bytes[x - a]?).getD 0#8 else 0#8 := by
  induction bytes generalizing a with
  | nil => simp [imageFrom]
  | cons b rest ih =>
    rw [List.length_cons] at ha
    rw [imageFrom, Image.get_set, ih (by omega)]
    obtain hlt | rfl | hgt := lt_trichotomy x a
    · rw [if_neg (by omega), if_neg (by omega), if_neg (by omega)]
    · rw [if_pos ⟨rfl, by simp only [pktLen]; omega⟩, if_pos (Nat.le_refl x), Nat.sub_self]
      rfl
    · rw [if_neg (by omega), if_pos (show a + 1 ≤ x by omega), if_pos (by omega),
        show x - a = x - (a + 1) + 1 by omega, List.getElem?_cons_succ]

/-- A slot reads its two bytes. -/
theorem Image.reg_congr {order : ByteOrder} {x y : Image} {k : Nat}
    (h : ∀ a, 4 + 2 * k ≤ a → a < 6 + 2 * k → Image.get x a = Image.get y a) :
    Image.reg order x k = Image.reg order y k := by
  have hfirst := h (4 + 2 * k) (by omega) (by omega)
  have hsecond := h (4 + 2 * k + 1) (by omega) (by omega)
  cases order <;> simp only [Image.reg, Image.read16, hdrLen, hfirst, hsecond]

section
variable {p : Params} {reply : List Byte} {m : Nat} {rx old : Image} (hr : Reply reply m)
  (hrx : ∀ a, Image.get rx a = afterReply reply old a)
include hr hrx

/-- RX reads the bytes of the reply that it has received. -/
theorem get_received {a : Nat} (ha : a < 4 + 2 * m) : Image.get rx a = Image.get (imageFrom 0 reply) a := by
  have hlen := hr.length
  have hm := hr.legal
  rw [hrx, afterReply, get_imageFrom (by omega), if_pos (Nat.zero_le a), Nat.sub_zero,
    List.getElem?_eq_getElem (by omega)]
  rfl

/-- Past the reply RX reads as before. -/
theorem get_received_past {a : Nat} (ha : 4 + 2 * m ≤ a) : Image.get rx a = Image.get old a := by
  rw [hrx, afterReply, List.getElem?_eq_none (by rw [hr.length]; exact ha)]
  rfl

/-- The slots of the reply, and past them those that were there before. -/
theorem reg_received (k : Nat) :
    Image.reg p.regByteOrder rx k = if k < m then replySlot p reply k else Image.reg p.regByteOrder old k := by
  split
  · exact Image.reg_congr fun a _ ha => get_received hr hrx (by omega)
  · exact Image.reg_congr fun a ha _ => get_received_past hr hrx (by omega)

/-- A good reply in RX is accepted (R192). -/
theorem accept_received (hgood : reply[1]? = some (crc8 p.crcTable (imageFrom 0 reply) m)) :
    accept p rx = true := by
  obtain ⟨hcount, hrej⟩ := header_of_count hr.legal p
  have h0 : Image.get rx 0 = BitVec.ofNat 8 m := by rw [hrx, afterReply, hr.byte0]; rfl
  have h1 : Image.get rx 1 = crc8 p.crcTable (imageFrom 0 reply) m := by rw [hrx, afterReply, hgood]; rfl
  have hm : Image.count rx = m := by rw [Image.count, h0, countOf_toNat_of_countBits hcount hr.legal]
  have hvalid : crcValid p.crcTable rx = true := by
    rw [crcValid_iff, hm, h1]
    exact ⟨hr.legal, crc8_congr _ fun a ha _ => get_received hr hrx ha⟩
  rw [accept, hvalid, h0, hrej]
  rfl

end

/-! ### The REG commands with one packet exchange -/

/-- The front end of an issued REG command (R193). -/
def State.latched (s : State) (f : FState) (n : Byte) : FrontEnd where
  state := f
  catt := 1#8
  page := s.regs.page
  offset := s.regs.offset
  n := n
  clearBits := s.regs.clearBits
  setBits := s.regs.setBits

section
variable {s : State} {i : Instr} {f : FState} {n txlen : Byte} {mem : Memory} {live m : Nat} {reply : List Byte}
  {rp : List PollAnswer} {rw rf : List SendAnswer}

/-- The exchange of a REG command over a link that delivers a good reply returns OK to the front end (R191). -/
theorem after_regIssued (hf : f ≠ .idle) (h : s.Able) (hw : s.Waits) (hr : GoodReply s.params reply m)
    (hdel : s.link.Delivers reply rp) (hlen : txlen.toNat = live) (hpos : 0 < live) (hle : live ≤ 68)
    (hacc : s.link.Accepts s.params live rw rf) :
    ∃ rx x b, (∀ a, Image.get rx a = afterReply reply mem.rx a) ∧
      (s.regIssued i f n txlen mem).after (exchangeSteps s.params live m) =
        some
          (feReturn statusOk
            (closeExchange statusOk
              (s.delivered i mem (s.latched f n) rx x (s.linkAnswered mem live m b rw rf rp) m))) := by
  obtain ⟨rx, x, b, hrx, hafter⟩ :=
    after_begun (i := i) (r := 10#8) (mem := mem) (fe := s.latched f n) h hw hr.toReply hdel hlen hpos hle hacc
  have haccept : accept s.params rx = true := accept_received hr.toReply hrx hr.crc
  exact ⟨rx, x, b, hrx, hafter.trans (congrArg some (endExchange_accepted hf haccept))⟩

end

/-- Settles O46: the READ request goes out, and OUT takes the slots of RX, which was cleared before the reply. -/
theorem getDeliversTheValues : Obligations.GetDeliversTheValues := by
  intro s i n reply m rp rw rf h hw hi hr hdel hacc
  obtain ⟨hn, hexec⟩ := exec_get h hi
  obtain ⟨rx, x, b, hrx, hafter⟩ :=
    after_regIssued (i := i) (f := .get) (n := n) (txlen := 4#8) (mem := s.readMemory n) nofun h hw hr hdel rfl
      (by decide) (by decide) hacc
  obtain ⟨-, -, -, hsent⟩ := linkAnswered_lists (mem := s.readMemory n) (m := m) (rp := rp) hacc b
  refine ⟨_, _, hexec, hafter, ?_⟩
  rw [feReturn_get (s := closeExchange ..) _ rfl, getReturn_ok]
  obtain ⟨hsound, -, -⟩ := h
  refine ⟨rfl, hsound, rfl, rfl, rfl, rfl, rfl, rfl, rfl, rfl, fun k hk => ?_, readPacket_readMemory hn, hsent⟩
  have hslots := (cleared_clearImage s.params s.mem.rx).slots k hk
  refine (copyRegs_get s.params.regByteOrder rx s.res.out n.toNat k hk).trans ?_
  rw [reg_received (p := s.params) hr.toReply hrx]
  simp only [State.readMemory, hslots]

/-- Settles O47: the WRITE request goes out, and the end of its exchange is the end of the command. -/
theorem setIsAcknowledged : Obligations.SetIsAcknowledged := by
  intro s i n reply m rp rw rf h hw hi hr hdel hacc
  obtain ⟨hn, hexec⟩ := exec_set h hi
  have hlen : (4#8 + 2#8 * n).toNat = 4 + 2 * n.toNat := by
    rw [BitVec.toNat_add, BitVec.toNat_mul]
    simp only [BitVec.toNat_ofNat]
    omega
  obtain ⟨rx, x, b, -, hafter⟩ :=
    after_regIssued (i := i) (f := .set) (n := n) (mem := s.writeMemory n) nofun h hw hr hdel hlen
      (by omega) (by omega) hacc
  obtain ⟨-, -, -, hsent⟩ := linkAnswered_lists (mem := s.writeMemory n) (m := m) (rp := rp) hacc b
  refine ⟨_, _, hexec, hafter, ?_⟩
  rw [feReturn_set (s := closeExchange ..) _ (.inl rfl)]
  obtain ⟨hsound, -, -⟩ := h
  exact ⟨rfl, hsound, rfl, rfl, rfl, rfl, rfl, rfl, rfl, rfl, rfl, packet_writeMemory hn, hsent⟩

end Sys2Proof.Machine
end

