-- ==== Sys2Proof/Proofs/SilentLink.lean ====
section
/-! SUPPORT. A command over a link that takes every byte and never answers a poll with one: each attempt stalls
(spec/42_transceiver.md R153, R155) until none is left (spec/70_reset_and_hazards.md R270). -/

namespace Sys2Proof.Machine

section
variable {s : State} {rest : List PollAnswer}

/-! ### One stalled attempt -/

/-- A NoData answer counted in WB (R155). -/
def State.heardNothing (s : State) (rest : List PollAnswer) : State :=
  countWouldBlock { s with link := s.link.polled 1 rest }

section
variable (hx : s.xc.xst = .rdHdr) (hT : s.params.stallTolerance ≤ 254) (hp : s.link.poll = .noData :: rest)
include hx hT hp

theorem linkStep_noData_within (hwb : s.xc.wb.toNat < s.params.stallTolerance) :
    linkStep s = .next (s.heardNothing rest) := by
  rw [linkStep_noData (.inl hx) (Link.pollAnswer_cons hp),
    wouldBlock_more (s := s.afterPoll) (show s.xc.wb.toNat < 255 by omega) hwb, State.heardNothing,
    ← Link.afterPoll_cons hp]
  rfl

theorem linkStep_noData_over (hwb : s.xc.wb.toNat = s.params.stallTolerance) :
    linkStep s = .next (attemptFailed .stall (s.heardNothing rest)) := by
  rw [linkStep_noData (.inl hx) (Link.pollAnswer_cons hp),
    wouldBlock_last (s := s.afterPoll) (show s.xc.wb.toNat < 255 by omega) hwb, State.heardNothing,
    ← Link.afterPoll_cons hp]
  rfl

end

/-- NoData answers count in WB until one exceeds the tolerance and fails the attempt (R155). -/
theorem after_noData {k : Nat} (h : s.Unattended) (hx : s.xc.xst = .rdHdr) (hT : s.params.stallTolerance ≤ 254)
    (hk : s.xc.wb.toNat + k = s.params.stallTolerance)
    (hp : s.link.poll = List.replicate (k + 1) PollAnswer.noData ++ rest) :
    s.after (k + 1) =
      some
        (attemptFailed .stall
          { s with
            xc := { s.xc with wb := BitVec.ofNat 8 (s.params.stallTolerance + 1) },
            link := s.link.polled (k + 1) rest }) := by
  induction k generalizing s with
  | zero =>
    rw [h.after_one (linkStep_noData_over hx hT hp hk), ← hk, Nat.add_zero, BitVec.ofNat_add, BitVec.ofNat_toNat,
      BitVec.setWidth_eq]
    rfl
  | succ k ih =>
    have hwb : (s.xc.wb + 1#8).toNat = s.xc.wb.toNat + 1 := toNat_add_one (by omega)
    have hk' : (s.xc.wb + 1#8).toNat + k = s.params.stallTolerance := by omega
    rw [h.after_succ (linkStep_noData_within hx hT hp (by omega))]
    refine Eq.trans (ih (s := s.heardNothing _) { h with } hx hT hk' rfl) ?_
    rw [State.heardNothing, countWouldBlock, Link.polled_polled]

/-- An attempt that has sent its request and fails for want of an answer. -/
def State.unanswered (s : State) (live : Nat) (rw rf : List SendAnswer) (rest : List PollAnswer) : State :=
  { s with
    xc := { s.xc with xst := .rdHdr, idx := 0#8, wb := BitVec.ofNat 8 (s.params.stallTolerance + 1) },
    link := s.linkServed live (s.params.stallTolerance + 1) rw rf rest }

/-- Over a link that takes the request and answers nothing, an attempt fails once the tolerance is exceeded. -/
theorem after_attempt {live : Nat} {rw rf : List SendAnswer} (h : s.Sends live rw rf) (hwb : s.xc.wb = 0#8)
    (hT : s.params.stallTolerance ≤ 254)
    (hp : s.link.poll = List.replicate (s.params.stallTolerance + 1) PollAnswer.noData ++ rest) :
    s.after (live + (if s.params.flushAfterWrite then 1 else 0) + (s.params.stallTolerance + 1)) =
      some (attemptFailed .stall (s.unanswered live rw rf rest)) := by
  have hsent := after_request h.unattended h.writing h.first h.length h.pos h.le h.accepts
  obtain ⟨-, -, hpoll⟩ := Link.tookRequest_lists h.accepts ((List.range live).map (s.mem.byte .tx))
  have hreads : (enter .rdHdr { s with
      link := s.link.tookRequest s.params ((List.range live).map (s.mem.byte .tx)) rw rf }).Unattended :=
    { h.unattended with }
  have hzero : s.xc.wb.toNat + s.params.stallTolerance = s.params.stallTolerance := by rw [hwb]; exact Nat.zero_add _
  rw [State.after_add _ hsent]
  exact after_noData hreads rfl hT hzero (hpoll.trans hp)

/-! ### All attempts -/

/-- The beginning of WRITE in an attempt after which `left` more are allowed, over a link that takes the requests
of them all and answers every poll with NoData. -/
structure State.Unheard (s : State) (left : Nat) (rp : List PollAnswer) (rw rf : List SendAnswer) : Prop where
  unattended : s.Unattended
  writing : s.xc.xst = .write
  first : s.xc.idx = 0#8
  fresh : s.xc.wb = 0#8
  length : s.xc.txlen = 4#8
  begun : 1 ≤ s.xc.att.toNat
  attempts : s.xc.att.toNat + left = s.xc.retr.toNat
  tolerance : s.params.stallTolerance ≤ 254
  poll : s.link.poll =
    List.replicate (s.params.stallTolerance + 1 + left * (s.params.stallTolerance + 2)) PollAnswer.noData ++ rp
  write : s.link.write = List.replicate (4 + 4 * left) SendAnswer.ok ++ rw
  flush : s.link.flush = List.replicate (if s.params.flushAfterWrite then 1 + left else 0) SendAnswer.ok ++ rf

section
variable {left : Nat} {rp : List PollAnswer} {rw rf : List SendAnswer}

theorem State.Unheard.sends (h : s.Unheard left rp rw rf) :
    s.Sends 4 (List.replicate (4 * left) SendAnswer.ok ++ rw)
      (List.replicate (if s.params.flushAfterWrite then left else 0) SendAnswer.ok ++ rf) where
  unattended := h.unattended
  writing := h.writing
  first := h.first
  length := congrArg BitVec.toNat h.length
  pos := by decide
  le := by decide
  accepts := by
    refine ⟨?_, ?_⟩
    · rw [h.write, List.replicate_add, List.append_assoc]
    · rw [h.flush]
      split
      · rw [List.replicate_add, List.append_assoc]
        rfl
      · rfl

/-- That attempt failed, its share of the link's lists used up. -/
def State.spent (s : State) (left : Nat) (rp : List PollAnswer) (rw rf : List SendAnswer) : State :=
  s.unanswered 4 (List.replicate (4 * left) SendAnswer.ok ++ rw)
    (List.replicate (if s.params.flushAfterWrite then left else 0) SendAnswer.ok ++ rf)
    (List.replicate (left * (s.params.stallTolerance + 2)) PollAnswer.noData ++ rp)

/-- The steps of a stalled attempt after its drain poll. -/
def State.stallSteps (s : State) : Nat :=
  4 + (if s.params.flushAfterWrite then 1 else 0) + (s.params.stallTolerance + 1)

theorem State.Unheard.after_attempt (h : s.Unheard left rp rw rf) :
    s.after s.stallSteps = some (attemptFailed .stall (s.spent left rp rw rf)) := by
  refine Machine.after_attempt h.sends h.fresh h.tolerance ?_
  rw [h.poll, List.replicate_add, List.append_assoc]

/-- What that attempt leaves of the link's lists. -/
theorem State.Unheard.spent_lists (h : s.Unheard left rp rw rf) :
    (s.spent left rp rw rf).link.poll =
        List.replicate (left * (s.params.stallTolerance + 2)) PollAnswer.noData ++ rp ∧
      (s.spent left rp rw rf).link.write = List.replicate (4 * left) SendAnswer.ok ++ rw ∧
      (s.spent left rp rw rf).link.flush =
        List.replicate (if s.params.flushAfterWrite then left else 0) SendAnswer.ok ++ rf := by
  obtain ⟨hwrite, hflush, -⟩ := Link.tookRequest_lists h.sends.accepts ((List.range 4).map (s.mem.byte .tx))
  exact ⟨rfl, hwrite, hflush⟩

/-- The attempt after a stalled one, its drain poll made: STALL_CNT and RETRY_CNT have counted (R144, R153). -/
def State.triedAgain (s : State) : State :=
  { s.afterPoll with
    xc := { s.xc.nextAttempt with xst := .write },
    cnt := { s.cnt with stall := s.cnt.stall + 1, retry := s.cnt.retry + 1 } }

/-- A stalled attempt before the last is followed by the next, about to send its request. -/
theorem State.Unheard.after_more (h : s.Unheard (left + 1) rp rw rf) :
    s.after (s.stallSteps + 1) = some (s.spent (left + 1) rp rw rf).triedAgain := by
  have hatt := h.attempts
  have hretr := s.xc.retr.isLt
  have hne : s.xc.att ≠ s.xc.retr := fun he => by rw [he] at hatt; omega
  obtain ⟨hpoll, -, -⟩ := h.spent_lists
  rw [show (left + 1) * (s.params.stallTolerance + 2) =
    left * (s.params.stallTolerance + 2) + (s.params.stallTolerance + 1) + 1 by ring] at hpoll
  have hnone : givesByte (s.spent (left + 1) rp rw rf).link.pollAnswer = false := by
    rw [Link.pollAnswer_cons hpoll]
    rfl
  rw [State.after_add _ h.after_attempt, attemptFailed_more (s := s.spent (left + 1) rp rw rf) hne,
    beginAttempt_next (s := countStall .stall (s.spent (left + 1) rp rw rf)) h.begun
      (show s.xc.att.toNat < 255 by omega)]
  refine State.Unattended.after_one { h.unattended with } ((linkStep_discard rfl).trans (congrArg _ ?_))
  exact discardStep_other hnone

theorem State.Unheard.triedAgain (h : s.Unheard (left + 1) rp rw rf) :
    (s.spent (left + 1) rp rw rf).triedAgain.Unheard left rp rw rf := by
  have hatt := h.attempts
  have hretr := s.xc.retr.isLt
  have hcount : (s.xc.att + 1#8).toNat = s.xc.att.toNat + 1 := toNat_add_one (by omega)
  obtain ⟨hpoll, hwrite, hflush⟩ := h.spent_lists
  exact
    { unattended := { h.unattended with }
      writing := rfl
      first := rfl
      fresh := rfl
      length := h.length
      begun := hcount.symm ▸ Nat.le_add_left _ _
      attempts := by
        show (s.xc.att + 1#8).toNat + left = s.xc.retr.toNat
        omega
      tolerance := h.tolerance
      poll := by
        show (s.spent (left + 1) rp rw rf).link.poll.tail = _
        rw [hpoll, show (left + 1) * (s.params.stallTolerance + 2) =
          s.params.stallTolerance + 1 + left * (s.params.stallTolerance + 2) + 1 by ring]
        rfl
      write := hwrite.trans (by rw [show 4 * (left + 1) = 4 + 4 * left by ring])
      flush := hflush.trans (by rw [Nat.add_comm left 1]; rfl) }

/-- The command of the block s has given up after `left` more attempts than the one under way: each has been
counted, and the link's lists are used up to rp, rw and rf. -/
def State.GaveUp (s u : State) (left : Nat) (rp : List PollAnswer) (rw rf : List SendAnswer) : Prop :=
  ∃ x l,
    u =
        { s with
          xc := x, link := l,
          cnt :=
            { s.cnt with
              stall := s.cnt.stall + BitVec.ofNat 32 (left + 1),
              retry := s.cnt.retry + BitVec.ofNat 32 left } }.endedWith 4#8 ∧
      l.poll = rp ∧ l.write = rw ∧ l.flush = rf

/-- The last attempt stalled, the command ends UNRESPONSIVE (R153). -/
theorem State.Unheard.after_last (h : s.Unheard 0 rp rw rf) :
    ∃ u, s.after s.stallSteps = some u ∧ s.GaveUp u 0 rp rw rf := by
  have hlast : s.xc.att = s.xc.retr := BitVec.eq_of_toNat_eq h.attempts
  obtain ⟨hpoll, hwrite, hflush⟩ := h.spent_lists
  rw [Nat.zero_mul] at hpoll
  rw [ite_self] at hflush
  refine ⟨_, h.after_attempt, (s.spent 0 rp rw rf).xc, (s.spent 0 rp rw rf).link, ?_, hpoll, hwrite, hflush⟩
  rw [attemptFailed_last (s := s.spent 0 rp rw rf) hlast, endExchange_error _ (by decide), BitVec.add_zero]
  rfl

/-- Every attempt stalls, and the command ends UNRESPONSIVE after the last. -/
theorem State.Unheard.after_all (h : s.Unheard left rp rw rf) :
    ∃ u, s.after (left * (s.stallSteps + 1) + s.stallSteps) = some u ∧ s.GaveUp u left rp rw rf := by
  induction left generalizing s with
  | zero =>
    rw [Nat.zero_mul, Nat.zero_add]
    exact h.after_last
  | succ left ih =>
    obtain ⟨u, hafter, x, l, rfl, hlists⟩ := ih h.triedAgain
    rw [show (left + 1) * (s.stallSteps + 1) + s.stallSteps =
        s.stallSteps + 1 + (left * (s.stallSteps + 1) + s.stallSteps) by ring,
      State.after_add _ h.after_more]
    refine ⟨_, hafter, x, l, ?_, hlists⟩
    have hcount (c : BitVec 32) (n : Nat) : c + 1 + BitVec.ofNat 32 n = c + BitVec.ofNat 32 (n + 1) := by
      rw [BitVec.ofNat_add, BitVec.add_comm (BitVec.ofNat 32 n), BitVec.add_assoc]
      rfl
    rw [← hcount s.cnt.stall, ← hcount s.cnt.retry]
    rfl

end

end

/-- REG.GET issued over a silent link: ten attempts, the first about to send its request. -/
theorem unheard_regGet {s : State} {n : Byte} {rp : List PollAnswer} {rw rf : List SendAnswer} (h : s.Able)
    (hw : s.Waits) (hT : s.params.stallTolerance ≤ 254)
    (hp : s.link.poll = List.replicate (10 * (s.params.stallTolerance + 2)) PollAnswer.noData ++ rp)
    (hwrite : s.link.write = List.replicate 40 SendAnswer.ok ++ rw)
    (hflush : s.link.flush = List.replicate (if s.params.flushAfterWrite then 10 else 0) SendAnswer.ok ++ rf) :
    (s.regIssued .regGet .get n 4#8 (s.readMemory n)).Unheard 9 rp rw rf := by
  rw [show 10 * (s.params.stallTolerance + 2) =
    s.params.stallTolerance + 1 + 9 * (s.params.stallTolerance + 2) + 1 by ring] at hp
  exact
    { unattended := ⟨h.1, rfl, hw⟩
      writing := by simp [State.regIssued, Xcvr.firstAttempt, Link.pollAnswer_cons hp, givesByte]
      first := rfl
      fresh := rfl
      length := rfl
      begun := Nat.le_refl 1
      attempts := rfl
      tolerance := hT
      poll := congrArg List.tail hp
      write := hwrite
      flush := hflush }

/-- Settles O49: REG.GET's exchange has ten attempts, the first of them begun in its issue (log 9). -/
theorem silentLinkEndsGetUnresponsive : Obligations.SilentLinkEndsGetUnresponsive := by
  intro s rp rw rf h hw hn hT hp hwrite hflush
  obtain ⟨-, hexec⟩ := exec_get h (.inl ⟨rfl, rfl, hn⟩)
  obtain ⟨_, hafter, x, l, rfl, hpoll, hwrite', hflush'⟩ :=
    (unheard_regGet (n := s.regs.n) h hw hT hp hwrite hflush).after_all
  have hsteps : 10 * (1 + 4 + (if s.params.flushAfterWrite then 1 else 0) + (s.params.stallTolerance + 1)) - 1 =
      9 * (s.stallSteps + 1) + s.stallSteps := by
    rw [State.stallSteps]
    omega
  rw [hsteps]
  obtain ⟨hsound, -, -⟩ := h
  exact ⟨_, _, hexec, hafter, rfl, hsound, rfl, rfl, rfl, rfl, rfl, rfl, rfl, rfl, hpoll, hwrite', hflush'⟩

end Sys2Proof.Machine
end

