-- ==== Sys2Proof/Proofs/RegisterAccess.lean ====
section
/-! SUPPORT. The register driver (spec/43_register_access.md): DRV.NEW, the requests that the REG commands send, a
reply with a wrong CRC, and REG.MODIFY's write phase over a link that delivers (R190 to R198). -/

namespace Sys2Proof.Machine

/-! ### DRV.NEW (R190) -/

section
variable {s : State}

/-- Packet memory with two default packets (R106). -/
def Memory.zeroed (m : Memory) : Memory where
  tx := defaultImage m.tx
  rx := defaultImage m.rx

theorem Memory.byte_zeroed (m : Memory) (b : Buf) (a : Nat) :
    m.zeroed.byte b a = if a < 68 then 0#8 else m.byte b a := by
  cases b <;> simp only [Memory.byte, Memory.image, Memory.zeroed, get_defaultImage]

theorem zeroBuffers_eq : zeroBuffers s = { s with mem := s.mem.zeroed } := by
  simp only [zeroBuffers, State.setImage, Memory.setImage, Memory.zeroed]

theorem exec_drvNew (h : s.Free) :
    exec .drvNew s = .next (setupCall false { s.withCmd .drvNew with mem := s.mem.zeroed }) := by
  rw [exec, execDrvNew, issue_always h, zeroBuffers_eq]
  rfl

end

/-- Settles O27: both buffers are zeroed, then the link's answer decides, whatever they hold. -/
theorem newZeroesAndSetsUp : Obligations.NewZeroesAndSetsUp := by
  refine ⟨rfl, fun s h => ⟨s.mem.zeroed, fun b a ha => ?zeroed, fun b a ha => ?past, ?issue⟩⟩
  case zeroed => rw [Memory.byte_zeroed, if_pos ha]
  case past => rw [Memory.byte_zeroed, if_neg (by omega)]
  case issue =>
    rw [exec_drvNew h]
    generalize s.mem.zeroed = m
    refine ⟨fun ha => ?ok, fun e ha => ?err⟩
    case ok =>
      rw [setupCall_ok (s := { s.withCmd .drvNew with mem := m }) _ ha, finish_free]
      · rfl
      · exact h.2
    case err =>
      rw [setupCall_err (s := { s.withCmd .drvNew with mem := m }) _ ha, finish_free]
      · rfl
      · exact h.2

/-! ### The requests at issue (R193, R195 to R198) -/

/-- Settles O41: the issued READ request is the one that READ_CRC_MODE asks for. -/
theorem getSendsAReadRequest : Obligations.GetSendsAReadRequest := by
  intro s i n h hi
  obtain ⟨hn, hexec⟩ := exec_get h hi
  have hpacket := readPacket_readMemory (s := s) hn
  refine ⟨s.readMemory n, hexec, cleared_clearImage _ _, fun hmode => ?_, fun hmode => ?_⟩ <;>
    rwa [ReadPacket, hmode] at hpacket

/-- Settles O42: the issued WRITE request holds the values of VAL. -/
theorem setSendsAWriteRequest : Obligations.SetSendsAWriteRequest := by
  intro s i n h hi
  obtain ⟨hn, hexec⟩ := exec_set h hi
  exact ⟨s.writeMemory n, hexec, cleared_clearImage _ _, packet_writeMemory hn⟩

/-- Settles O43: REG.MODIFY is issued with the READ request for one register. -/
theorem modifyStartsWithARead : Obligations.ModifyStartsWithARead := by
  intro s h
  have hpacket := readPacket_readMemory (s := s) (n := 1#8) (by decide)
  refine ⟨s.readMemory 1#8, exec_modify h, cleared_clearImage _ _, fun hmode => ?_, fun hmode => ?_⟩ <;>
    rwa [ReadPacket, hmode] at hpacket

/-! ### A reply with a wrong CRC (R191, R192) -/

section
variable {s : State} {b : Byte} {m : Nat}

/-- A received reply whose CRC byte is not the CRC8 of its bytes is not valid (R109). -/
theorem crcValid_receivedWith (hm : m ≤ 32) (hcount : countBits s.xc.hdr[0] = BitVec.ofNat 8 m)
    (hcrc : crc8 s.params.crcTable (s.receivedWith b) m ≠ s.xc.hdr[1]) :
    crcValid s.params.crcTable (s.receivedWith b) = false := by
  have h0 : Image.get (s.receivedWith b) 0 = s.xc.hdr[0] :=
    (receivedWith_header (by decide)).trans (withLastByte_hdr _ _ (by decide))
  have h1 : Image.get (s.receivedWith b) 1 = s.xc.hdr[1] :=
    (receivedWith_header (by decide)).trans (withLastByte_hdr _ _ (by decide))
  have hm' : Image.count (s.receivedWith b) = m := by
    rw [Image.count, h0, countOf_toNat_of_countBits hcount hm]
  refine Bool.eq_false_iff.mpr fun hvalid => hcrc ?_
  obtain ⟨-, hcrc'⟩ := (crcValid_iff _ _).mp hvalid
  rwa [hm', h1] at hcrc'

/-- A reply with a wrong CRC, counted (R38). -/
def State.crcFailed (s : State) : State := { s with cnt := { s.cnt with crcFail := s.cnt.crcFail + 1#32 } }

/-- A packet exchange whose exchange ended with a reply that is not valid goes on with its next classification
attempt, or returns ERROR_RESPONSE after the last (R191). -/
theorem endExchange_corrupt (hf : s.fe.state ≠ .idle) (hv : crcValid s.params.crcTable s.mem.rx = false) :
    endExchange statusOk s =
      if s.fe.catt = driverRetries then feReturn statusErrorResponse (closeExchange statusOk s).crcFailed
      else classifyAttempt driverRetries (closeExchange statusOk s).crcFailed := by
  have hrefused : accept s.params s.mem.rx = false := by rw [accept, hv, Bool.false_and]
  have hcount : countCrcFail (closeExchange statusOk s) = (closeExchange statusOk s).crcFailed :=
    if_neg (by rw [Bool.not_eq_true]; exact hv)
  rw [endExchange_reg _ hf, exchangeReturned, hcount]
  exact (if_pos rfl).trans (if_neg (by rw [Bool.not_eq_true]; exact hrefused))

/-- Whichever REG command runs, an error that its packet exchange returns ends it (R191, R193, R196, R198). -/
theorem feReturn_error {st : Byte} (hf : s.fe.state ≠ .idle) (hst : st ≠ statusOk) :
    feReturn st s = endCommand st (setCatt 0#8 s) := by
  cases h : s.fe.state with
  | idle => exact absurd h hf
  | get => rw [feReturn_get _ h, getReturn, if_neg hst]
  | set => exact feReturn_set _ (.inl h)
  | modRead => rw [feReturn_modRead _ h, modReadReturn, if_neg hst]
  | modWrite => exact feReturn_set _ (.inr h)

end

/-- Settles O40: the reply is not valid, and CATT decides between the next classification attempt and the end. -/
theorem corruptReplyIsTriedAgainThenGivenUp : Obligations.CorruptReplyIsTriedAgainThenGivenUp := by
  intro s b m hr hf hp hl hcount hcrc
  have hinvalid := crcValid_receivedWith hl.le hcount hcrc
  rw [step_lastByte hr hp hl, endExchange_corrupt (s := s.replied b m) hf hinvalid]
  refine ⟨fun hlt => ⟨_, ?again, cleared_clearImage _ _⟩, fun hlast => ?givenUp⟩
  case again =>
    have hmore : (s.replied b m).fe.catt ≠ driverRetries := fun h =>
      absurd hlt (by rw [show s.fe.catt = driverRetries from h]; decide)
    rw [if_neg hmore, classifyAttempt_driver]
    rfl
  case givenUp =>
    rw [if_pos (by exact hlast), feReturn_error (s := (closeExchange statusOk (s.replied b m)).crcFailed) hf (by decide)]
    exact congrArg _ (endCommand_closed (s := (s.replied b m).crcFailed) statusErrorResponse statusOk hf)

/-! ### The write phase of REG.MODIFY (R198) -/

section
variable {s : State} {live m : Nat} {reply : List Byte} {rw rf : List SendAnswer} {rest : List PollAnswer}

/-- A reply of m values has arrived: RX, the transceiver's registers and the link are rx, x and l (R152). -/
def State.answered (s : State) (rx : Image) (x : Xcvr) (l : Link) (m : Nat) : State :=
  { s with
    mem := { s.mem with rx := rx }, xc := x, link := l,
    res := { s.res with result := BitVec.ofNat 8 (4 + 2 * m) } }

/-- An exchange of a REG command over a link that takes the request and delivers a good reply returns OK to the
front end (R191). -/
theorem State.Sends.after_goodReply (h : s.Sends live rw rf) (hf : s.fe.state ≠ .idle)
    (hr : GoodReply s.params reply m) (hp : s.link.poll = reply.map .data ++ rest) :
    ∃ rx x b,
      s.after (exchangeSteps s.params live m) =
        some
          (feReturn statusOk
            (closeExchange statusOk
              (s.answered rx x (s.linkServed live (3 + 2 * m) rw rf (.data b :: rest)).afterPoll m))) := by
  obtain ⟨u, b, ⟨⟨rx, x, rfl⟩, -, hreceived⟩, hafter⟩ := after_exchange h hr.toReply hp
  have haccept := accept_received (p := s.params) hr.toReply hreceived hr.crc
  rw [State.replied, State.turned_waits (by exact h.unattended.waits)] at hafter
  exact ⟨_, _, b, hafter.trans (congrArg some (endExchange_accepted hf haccept))⟩

/-- The read of REG.MODIFY puts one value in OUT (R198). -/
theorem copyRegs_one_get (order : ByteOrder) (rx : Image) (out : Vector RegValue 32) {k : Nat} (hk : k < 32) :
    (copyRegs order rx out 1)[k] = if k = 0 then Image.reg order rx 0 else out[k] := by
  rw [copyRegs_get order rx out 1 k hk]
  split
  · next hone =>
    obtain rfl : k = 0 := by omega
    rfl
  · next hmore => rw [if_neg (by omega)]

/-- The read of REG.MODIFY has returned OK, the write of the modified value has begun, and its drain poll has
found nothing (R198, R143 to R145). -/
def State.writesBack (s : State) : State :=
  { s.afterPoll with
    mem :=
      { tx := s.modifiedRequest (Image.reg s.params.regByteOrder s.mem.rx 0),
        rx := clearImage s.params.regByteOrder s.mem.rx },
    fe := { s.fe with state := .modWrite, catt := 1#8 },
    xc := s.xc.firstAttempt 10#8 6#8 true,
    res := { s.res with out := copyRegs s.params.regByteOrder s.mem.rx s.res.out 1 } }

theorem after_modReadReturn (h : s.Unattended) (hnone : givesByte s.link.pollAnswer = false) :
    (modReadReturn statusOk s).after 1 = some s.writesBack := by
  have hruns : (modReadReturn statusOk s).Unattended := by
    rw [modReadReturn_ok]
    exact { h with }
  refine hruns.after_one ?_
  rw [modReadReturn_ok, linkStep_discard rfl, discardStep_first rfl rfl]
  simp only [hnone]
  rfl

theorem sends_writesBack (h : s.Unattended) (hacc : s.link.Accepts s.params 6 rw rf) :
    s.writesBack.Sends 6 rw rf where
  unattended := { h with }
  writing := rfl
  first := rfl
  length := rfl
  pos := by decide
  le := by decide
  accepts := hacc

/-- The read of REG.MODIFY has returned OK, and the link takes the write and delivers a good acknowledgement: the
command ends with OK (R196, R198). -/
theorem after_writeBack (h : s.Unattended) (hr : GoodReply s.params reply m)
    (hdel : s.link.Delivers reply rest) (hacc : s.link.Accepts s.params 6 rw rf) :
    ∃ rx x b,
      (modReadReturn statusOk s).after (1 + exchangeSteps s.params 6 m) =
        some
          ((s.writesBack.answered rx x
            (s.writesBack.linkServed 6 (3 + 2 * m) rw rf (.data b :: rest)).afterPoll m).endedWith statusOk) := by
  have hnone : givesByte s.link.pollAnswer = false := by rw [Link.pollAnswer_cons hdel]; rfl
  obtain ⟨rx, x, b, hafter⟩ :=
    (sends_writesBack h hacc).after_goodReply (by exact nofun) hr (congrArg List.tail hdel)
  refine ⟨rx, x, b, (State.after_add _ (after_modReadReturn h hnone)).trans (hafter.trans (congrArg some ?_))⟩
  rw [feReturn_set (s := closeExchange ..) _ (.inr rfl)]
  exact endCommand_closed (s := s.writesBack.answered ..) _ _ (by exact nofun)

/-- What that write has sent: the six live bytes of the WRITE request. -/
theorem sent_writesBack (n : Nat) :
    (s.writesBack.linkServed 6 n rw rf rest).afterPoll.sent =
      s.link.sent ++ (List.range 6).map (s.writesBack.mem.byte .tx) := by
  rw [State.linkServed, Link.sent_afterPoll, Link.sent_polled, Link.sent_tookRequest]
  rfl

/-- A link that takes the requests of two exchanges takes the first and then the second. -/
theorem accepts_two {l : Link} {p : Params} {j k : Nat}
    (hwrite : l.write = List.replicate (j + k) SendAnswer.ok ++ rw)
    (hflush : l.flush = (if p.flushAfterWrite then [SendAnswer.ok, .ok] else []) ++ rf) :
    l.Accepts p j (List.replicate k .ok ++ rw) ((if p.flushAfterWrite then [.ok] else []) ++ rf) := by
  refine ⟨?_, ?_⟩
  · rw [hwrite, ← List.append_assoc, List.replicate_append_replicate]
  · rw [hflush]
    split <;> rfl

end

/-- Settles O48: the read returns the reply's value, or the SENTINEL left by the clearing of RX, and the write
phase is a second exchange, after its own drain poll. -/
theorem modifyWritesBackTheModifiedValue : Obligations.ModifyWritesBackTheModifiedValue := by
  intro s reply ack m m' rp rw rf h hw hr hack hpoll hwrite hflush
  have hacc : s.link.Accepts s.params 4 _ _ := accepts_two (k := 6) hwrite hflush
  obtain ⟨rx, x, b, hrx, hread⟩ :=
    after_regIssued (i := .regModify) (f := .modRead) (n := 1#8) (txlen := 4#8) (live := 4)
      (mem := s.readMemory 1#8) nofun h hw hr hpoll rfl (by decide) (by decide) hacc
  obtain ⟨hpoll', hwrite', hflush', hsent⟩ := linkAnswered_lists (mem := s.readMemory 1#8) (m := m)
    (rp := .noData :: (ack.map .data ++ rp)) hacc b
  rw [feReturn_modRead (s := closeExchange ..) _ rfl] at hread
  obtain ⟨rx', x', b', hafter⟩ := after_writeBack (s := setCatt 0#8 (closeExchange statusOk (s.delivered ..)))
    ⟨h.1, rfl, hw⟩ hack hpoll' ⟨hwrite', hflush'⟩
  have hvalue : Image.reg s.params.regByteOrder rx 0 = if 0 < m then replySlot s.params reply 0 else 0x55AA#16 := by
    rw [reg_received (p := s.params) hr.toReply hrx]
    exact congrArg _ ((cleared_clearImage s.params s.mem.rx).slots 0 (by decide))
  have hpacket := packet_buildImage s.params (s.readMemory 1#8).tx modeWrite s.regs.page s.regs.offset 1#8
    (fun _ => modified (Image.reg s.params.regByteOrder rx 0) s.regs.clearBits s.regs.setBits) (by decide)
  refine ⟨_, _, _, (s.readMemory 1#8).tx, exec_modify h,
    (congrArg _ (Nat.add_assoc ..)).trans ((State.after_add _ hread).trans hafter), hvalue.symm ▸ rfl, rfl, h.1, rfl,
    rfl, rfl, rfl, rfl, rfl, rfl, rfl, readPacket_readMemory (by decide), fun k hk => copyRegs_one_get _ _ _ hk,
    hpacket.byte0, hpacket.byte2, hpacket.byte3, hpacket.slots 0 (by decide), hpacket.crc, ?_⟩
  exact (sent_writesBack _).trans (congrArg (· ++ _) hsent)

end Sys2Proof.Machine
end

