-- ==== Sys2Proof/Proofs/IssueChecks.lean ====
section
/-! SUPPORT. The checks at the issue of a command and their order (spec/60_exceptions.md R236, R237(a);
spec/70_reset_and_hazards.md R262, R263). -/

namespace Sys2Proof.Machine

/-! ### What the issue of a command answers when it is refused -/

section
variable {s : State} (hf : s.fault = none) (w : Byte) (r : Readiness) (body : State → State)
include hf

/-- A command issued while another runs is refused before any other check; BUSY is 0 afterwards (R263; log 12). -/
theorem issue_busy (hb : s.busy = true) :
    issue w r s body = .next { setCmd w s with fault := some .busyOverlap, busy := false } := by
  rw [issue, whileSound_none hf, if_pos hb]
  rfl

/-- A command that needs READY is refused without it, before its own checks (R262). -/
theorem issue_notReady (hb : s.busy = false) (hr : s.ready = false) :
    issue w .needsReady s body = .next { setCmd w s with fault := some .notReady } := by
  rw [issue, whileSound_none hf, if_neg (by simp [hb]), if_pos ⟨rfl, hr⟩]
  exact congrArg _ (raise_free (s := setCmd w s) _ hb)

end

/-! ### Every command is issued through these checks -/

/-- Whether the spec lists a command among those that need READY = 1 (R262). -/
def readiness (i : Instr) : Readiness := if i ∈ linkCommands then .needsReady else .always

theorem readiness_of_mem {i : Instr} (h : i ∈ linkCommands) : readiness i = .needsReady := if_pos h

theorem mem_of_readiness {i : Instr} (h : readiness i = .needsReady) : i ∈ linkCommands := by
  by_contra hi
  rw [readiness, if_neg hi] at h
  cases h

/-- The meaning of a command is its issue: it asks for READY exactly as R262 says, and its own part depends on
the state only after CMD is written. -/
theorem exec_eq_issue {i : Instr} (hi : i.port = .command) :
    ∃ body, ∀ s, exec i s = issue (encode i) (readiness i) s body := by
  cases i
  case wireReadReq | wireWriteReq | wireRespOk | wireRespCorrupt | wireRespError | wireRespReserved => cases hi
  all_goals exact ⟨_, fun _ => by rw [exec]; rfl⟩

/-- The own part of a command that counts in ARG_N begins with the check of the count (R236). -/
theorem exec_eq_issue_counted {i : Instr} (hi : i ∈ countedCommands) :
    ∃ body : State → State, ∀ s, exec i s =
      issue (encode i) (readiness i) s fun s => if legalN s.regs.n = false then raise .badCount s else body s := by
  simp only [countedCommands, List.mem_cons, List.not_mem_nil, or_false] at hi
  obtain rfl | rfl | rfl | rfl | rfl | rfl := hi <;> exact ⟨_, fun _ => by rw [exec]; rfl⟩

/-- Settles O25: every command's meaning is its issue, whose checks come in the order of R237(a); only PKT.BUILD
has a check after the count. -/
theorem issueChecksInOrder : Obligations.IssueChecksInOrder := by
  intro i s hi hf
  obtain ⟨body, hexec⟩ := exec_eq_issue hi
  refine ⟨fun hb => ?busy, fun hb hlink hr => ?notReady, fun hb hr hcount hn => ?badCount,
    fun hb ⟨b, hbuild⟩ hn hm => ?badMode⟩
  case busy =>
    rw [hexec, issue_busy hf _ _ _ hb]
    rfl
  case notReady =>
    rw [hexec, readiness_of_mem hlink, issue_notReady hf _ _ hb hr]
    rfl
  case badCount =>
    obtain ⟨rest, hcounted⟩ := exec_eq_issue_counted hcount
    rw [hcounted, issue_counted_over ⟨hf, hb⟩ (fun h => hr (mem_of_readiness h)) hn]
    rfl
  case badMode =>
    subst hbuild
    exact exec_pktBuild_badMode ⟨hf, hb⟩ b hn hm

end Sys2Proof.Machine
end

