-- ==== Sys2Proof/Proofs/HostRegisters.lean ====
section
/-! SUPPORT. A running command does not read the host's registers (spec/10_state.md R31;
spec/70_reset_and_hazards.md R263): every update that a step chains commutes with putting other values into them.
Then the statements about these registers and about the reset event (R260, R261). -/

namespace Sys2Proof.Machine

/-- The machine with other values in the host's registers. -/
def State.withRegs (g : HostRegs) (s : State) : State := { s with regs := g }

/-- A choice whose condition does not read the host's registers, between updates that do not read them. -/
theorem ite_withRegs {c : Prop} [Decidable c] {g : HostRegs} {a b a' b' : State} (ha : a' = a.withRegs g)
    (hb : b' = b.withRegs g) : (if c then a' else b') = (if c then a else b).withRegs g := by
  rw [ha, hb, apply_ite (State.withRegs g)]

/-! ### What stands beside the host's registers -/

section
variable (s : State) (g : HostRegs)

@[simp] theorem withRegs_params : (s.withRegs g).params = s.params := rfl
@[simp] theorem withRegs_mem : (s.withRegs g).mem = s.mem := rfl
@[simp] theorem withRegs_xc : (s.withRegs g).xc = s.xc := rfl
@[simp] theorem withRegs_fe : (s.withRegs g).fe = s.fe := rfl
@[simp] theorem withRegs_res : (s.withRegs g).res = s.res := rfl
@[simp] theorem withRegs_link : (s.withRegs g).link = s.link := rfl

/-! ### Single updates -/

@[simp] theorem setImage_withRegs (b : Buf) (img : Image) :
    (s.withRegs g).setImage b img = (s.setImage b img).withRegs g := rfl
@[simp] theorem afterPoll_withRegs : (s.withRegs g).afterPoll = s.afterPoll.withRegs g := rfl
@[simp] theorem afterWrite_withRegs (b : Byte) : (s.withRegs g).afterWrite b = (s.afterWrite b).withRegs g := rfl
@[simp] theorem afterFlush_withRegs : (s.withRegs g).afterFlush = s.afterFlush.withRegs g := rfl
@[simp] theorem raise_withRegs (r : FaultReason) : raise r (s.withRegs g) = (raise r s).withRegs g := rfl
@[simp] theorem finish_withRegs (st : Byte) : finish st (s.withRegs g) = (finish st s).withRegs g := rfl
@[simp] theorem setErrinfo_withRegs (e : LinkErr) : setErrinfo e (s.withRegs g) = (setErrinfo e s).withRegs g := rfl
@[simp] theorem setResult_withRegs (v : Byte) : setResult v (s.withRegs g) = (setResult v s).withRegs g := rfl
@[simp] theorem setFe_withRegs (f : FState) : setFe f (s.withRegs g) = (setFe f s).withRegs g := rfl
@[simp] theorem setCatt_withRegs (c : Byte) : setCatt c (s.withRegs g) = (setCatt c s).withRegs g := rfl
@[simp] theorem copyOut_withRegs (n : Byte) : copyOut n (s.withRegs g) = (copyOut n s).withRegs g := rfl
@[simp] theorem closeExchange_withRegs (st : Byte) :
    closeExchange st (s.withRegs g) = (closeExchange st s).withRegs g := rfl
@[simp] theorem beginAttempt_withRegs : beginAttempt (s.withRegs g) = (beginAttempt s).withRegs g := rfl
@[simp] theorem enter_withRegs (x : XState) : enter x (s.withRegs g) = (enter x s).withRegs g := rfl
@[simp] theorem countWouldBlock_withRegs : countWouldBlock (s.withRegs g) = (countWouldBlock s).withRegs g := rfl
@[simp] theorem byteRead_withRegs : byteRead (s.withRegs g) = (byteRead s).withRegs g := rfl
@[simp] theorem storeHdr_withRegs (i : Nat) (b : Byte) :
    storeHdr i b (s.withRegs g) = (storeHdr i b s).withRegs g := rfl
@[simp] theorem copyHeader_withRegs : copyHeader (s.withRegs g) = (copyHeader s).withRegs g := rfl

@[simp] theorem countStall_withRegs (kind : AttemptFailure) :
    countStall kind (s.withRegs g) = (countStall kind s).withRegs g := by cases kind <;> rfl

@[simp] theorem countCrcFail_withRegs : countCrcFail (s.withRegs g) = (countCrcFail s).withRegs g :=
  ite_withRegs rfl rfl

/-! ### Packet exchanges and REG commands -/

@[simp] theorem classifyAttempt_withRegs :
    classifyAttempt driverRetries (s.withRegs g) = (classifyAttempt driverRetries s).withRegs g := by
  rw [classifyAttempt_driver, classifyAttempt_driver]
  rfl

@[simp] theorem endCommand_withRegs (st : Byte) :
    endCommand st (s.withRegs g) = (endCommand st s).withRegs g := rfl

@[simp] theorem setBody_withRegs (n : Byte) (values : Nat → RegValue) :
    setBody n values (s.withRegs g) = (setBody n values s).withRegs g := by
  simp [setBody, packetExchange_driver, onReturn]

/-- The write phase of REG.MODIFY takes its operands from the front end, not from ARG (log 11). -/
@[simp] theorem writeBack_withRegs : writeBack (s.withRegs g) = (writeBack s).withRegs g := by
  simp [writeBack]

@[simp] theorem getReturn_withRegs (st : Byte) : getReturn st (s.withRegs g) = (getReturn st s).withRegs g := by
  unfold getReturn
  split <;> simp

@[simp] theorem setReturn_withRegs (st : Byte) : setReturn st (s.withRegs g) = (setReturn st s).withRegs g := rfl

@[simp] theorem modReadReturn_withRegs (st : Byte) :
    modReadReturn st (s.withRegs g) = (modReadReturn st s).withRegs g :=
  ite_withRegs (by simp) rfl

@[simp] theorem feReturn_withRegs (st : Byte) : feReturn st (s.withRegs g) = (feReturn st s).withRegs g := by
  simp only [feReturn, withRegs_fe]
  split <;> simp

@[simp] theorem exchangeReturned_withRegs :
    exchangeReturned (s.withRegs g) = (exchangeReturned s).withRegs g :=
  ite_withRegs (ite_withRegs (by simp) (ite_withRegs (by simp) (by simp))) (feReturn_withRegs s g s.res.status)

/-! ### The ends of an attempt and of an exchange -/

@[simp] theorem endExchange_withRegs (st : Byte) :
    endExchange st (s.withRegs g) = (endExchange st s).withRegs g :=
  ite_withRegs rfl (by simp)

@[simp] theorem complete_withRegs (m : Byte) : complete m (s.withRegs g) = (complete m s).withRegs g := by
  simp [complete]

@[simp] theorem attemptFailed_withRegs (kind : AttemptFailure) :
    attemptFailed kind (s.withRegs g) = (attemptFailed kind s).withRegs g :=
  ite_withRegs (by simp) (by simp)

@[simp] theorem commAbort_withRegs (e : LinkErr) : commAbort e (s.withRegs g) = (commAbort e s).withRegs g := by
  simp [commAbort]

@[simp] theorem acceptHeader_withRegs (m : BitVec 6) :
    acceptHeader m (s.withRegs g) = (acceptHeader m s).withRegs g := by
  refine ite_withRegs (ite_withRegs (by simp) rfl) ?_
  rw [withRegs_params]
  split <;> simp

@[simp] theorem validateHeader_withRegs : validateHeader (s.withRegs g) = (validateHeader s).withRegs g :=
  ite_withRegs (acceptHeader_withRegs s g _) <|
    ite_withRegs (attemptFailed_withRegs s g _) <|
      ite_withRegs (attemptFailed_withRegs s g _) <|
        ite_withRegs (attemptFailed_withRegs s g _) (acceptHeader_withRegs s g _)

/-! ### The steps of a running command -/

@[simp] theorem drainStep_withRegs : drainStep (s.withRegs g) = (drainStep s).withRegs g := by
  simp only [drainStep, withRegs_link]
  split <;> rfl

@[simp] theorem discardStep_withRegs : discardStep (s.withRegs g) = (discardStep s).withRegs g := by
  simp only [discardStep, withRegs_link]
  split <;> rfl

@[simp] theorem byteWritten_withRegs : byteWritten (s.withRegs g) = (byteWritten s).withRegs g :=
  ite_withRegs rfl rfl

@[simp] theorem flushStep_withRegs : flushStep (s.withRegs g) = (flushStep s).withRegs g := by
  simp only [flushStep, withRegs_link]
  split <;> simp

@[simp] theorem wouldBlock_withRegs : wouldBlock (s.withRegs g) = (wouldBlock s).withRegs g :=
  ite_withRegs (by simp) rfl

@[simp] theorem headerByte_withRegs (b : Byte) : headerByte b (s.withRegs g) = (headerByte b s).withRegs g :=
  ite_withRegs (by simp) rfl

@[simp] theorem bodyByte_withRegs : bodyByte (s.withRegs g) = (bodyByte s).withRegs g :=
  ite_withRegs (by simp) rfl

@[simp] theorem mapNext_next (f : State → State) : mapNext f (.next s) = .next (f s) := rfl
@[simp] theorem mapNext_fault (f : State → State) (r : Fault) : mapNext f (.fault r) = .fault r := rfl

theorem writeStep_withRegs : writeStep (s.withRegs g) = mapNext (.withRegs g) (writeStep s) := by
  simp only [writeStep, withRegs_mem, withRegs_xc, withRegs_link]
  split
  · rfl
  · split <;> simp

theorem rdHdrStep_withRegs : rdHdrStep (s.withRegs g) = mapNext (.withRegs g) (rdHdrStep s) := by
  simp only [rdHdrStep, withRegs_xc, withRegs_link]
  split
  · by_cases h : s.xc.idx.toNat < hdrLen <;> simp [h]
  all_goals simp

theorem rdBodyStep_withRegs : rdBodyStep (s.withRegs g) = mapNext (.withRegs g) (rdBodyStep s) := by
  simp only [rdBodyStep, withRegs_mem, withRegs_xc, withRegs_link]
  split
  · split <;> simp
  all_goals simp

/-- The host's registers have no effect on a step of a running command: with other values in them it makes the
same step (R31, R263). -/
theorem linkStep_withRegs : linkStep (s.withRegs g) = mapNext (.withRegs g) (linkStep s) := by
  simp only [linkStep, withRegs_xc]
  cases s.xc.xst with
  | idle => simp
  | discard => simp
  | write => exact writeStep_withRegs s g
  | flush => simp
  | rdHdr => exact rdHdrStep_withRegs s g
  | rdBody => exact rdBodyStep_withRegs s g

end

theorem regs_of_surroundings {s t : State} (h : t.surroundings = s.surroundings) : t.regs = s.regs :=
  congrArg Surroundings.regs h

/-! ### The host's registers and the reset event -/

/-- Settles O56: a step commutes with other values in the host's registers, and these are among the surroundings
that no step of a running command writes. -/
theorem operandRegistersDoNotReachARunningCommand : Obligations.OperandRegistersDoNotReachARunningCommand :=
  fun s g => ⟨linkStep_withRegs s g, fun _ h => regs_of_surroundings (linkStep_surroundings h)⟩

/-- Settles O2: the reset event is the reset state around the parameters, the link and the host's list, so the
record of calls is the old one. -/
theorem resetEventLeavesTheLink : Obligations.ResetEventLeavesTheLink := fun _ => ⟨rfl, rfl⟩

end Sys2Proof.Machine
end
